-- ==== Sys2Proof/Word.lean ====
section
/-! DEFINITION. The word of the block: 32 bits wide (spec rule R9, parameter `W`), bit 0 the least significant
(rule R11). Every command, operand, response and register word, and every sample, coefficient and gain of type `T`
(binary32, rule R12), is one such word. -/

namespace Sys2Proof

/-- One 32-bit word (R9 `W`, R11). A value of type `T` is such a word, read as a binary32 bit pattern (R83). -/
abbrev Word := BitVec 32

end Sys2Proof
end

