-- ==== Sys2Proof/Config.lean ====
section
/-! DEFINITION. What an implementation of the block fixes (spec rule R9: `MAXBLK`, `MAXCH`, `FS_MIN`, all OPEN; and the
host's `LPHP_USE_Q`, false), and the free values the spec leaves open: the NaN an operation returns (R115), the quotient of an
infinity by a zero (R114 is silent) and which agent takes the next step (R16).
The opaque constants have no body: nothing can be proved of them but what their type says. -/

namespace Sys2Proof

/-- The agents of R16 and R260: who takes a step. -/
inductive Agent where
  /-- the outside party on the processing port -/
  | hostp
  /-- the processing sequencer inside the block -/
  | proc
  /-- the upstream audio source -/
  | src
  /-- the outside party on the control port -/
  | hostc
  /-- the control command executor inside the block -/
  | ctrlx
deriving DecidableEq, Repr, Inhabited

/-- The implementation parameters of R9 that the block's own rules read. The bounds R9 gives them are in the types:
`1 <= MAXBLK < 2^32`, `1 <= MAXCH < 2^32`, and `FS_MIN` positive and finite, that is a binary32 pattern from
`0x00000001` to `0x7F7FFFFF`; each field holds the value less one. -/
structure Params where
  /-- `MAXBLK - 1` -/
  maxBlkLessOne : Fin 4294967295
  /-- `MAXCH - 1` -/
  maxChLessOne : Fin 4294967295
  /-- the bit pattern of `FS_MIN`, less one -/
  fsMinLessOne : Fin 0x7F7FFFFF
deriving DecidableEq, Repr

/-- `MAXBLK` (R9): depth of the sample buffer in samples per channel. -/
def Params.maxBlk (p : Params) : Nat := p.maxBlkLessOne.val + 1

/-- `MAXCH` (R9): number of channel rows of the sample buffer. -/
def Params.maxCh (p : Params) : Nat := p.maxChLessOne.val + 1

/-- `FS_MIN` (R9): the smallest valid sample rate, a word of type `T`. -/
def Params.fsMin (p : Params) : Word := BitVec.ofNat 32 (p.fsMinLessOne.val + 1)

/-- The implementation's `MAXBLK - 1`, open (R9, log entry 3). -/
opaque Config.maxBlkLessOne : Fin 4294967295

/-- The implementation's `MAXCH - 1`, open (R9, log entry 3). -/
opaque Config.maxChLessOne : Fin 4294967295

/-- The pattern of the implementation's `FS_MIN`, less one, open (R9, log entry 3). -/
opaque Config.fsMinLessOne : Fin 0x7F7FFFFF

/-- The parameters of the machine that `State.reset` describes: all three open. -/
def Config.params : Params :=
  { maxBlkLessOne := Config.maxBlkLessOne
    maxChLessOne := Config.maxChLessOne
    fsMinLessOne := Config.fsMinLessOne }

/-- `LPHP_USE_Q` (R9, R215): whether the host's low-pass and high-pass designs use the caller's Q. The reference
behaviour, false. Host-side only. -/
def Config.lphpUseQ : Bool := false

/-- FREE VALUE (R115, U2; log entry 4). The sign and the fraction less one of the NaN that draw number `d` returns:
any sign and any fraction that is not 0. -/
opaque Config.freeNaN : Nat → Bool × Fin 8388607

/-- FREE VALUE (R114 does not state it; log entry 13). The quotient of an infinity by a zero, which no step of the
block computes in a state with valid coefficients (R114, R30). -/
opaque Config.infinityOverZero : Word → Word → Word

/-- FREE VALUE (R16, U6; log entry 5). Which agent takes turn number `d` when the state's schedule names none. -/
opaque Config.freeAgent : Nat → Agent

end Sys2Proof
end

