-- ==== Sys2Proof/Syntax.lean ====
section
/-! DEFINITION. The commands of the block (spec rules R2, R80, R84), one constructor of `Instr` per row of
spec/opcode_table.json, with the frames they arrive in (R81) and the two ports they arrive on (R80). -/

namespace Sys2Proof

/-- The two command ports (R80). -/
inductive Port where
  | processing
  | control
deriving DecidableEq, Repr

/-- A frame (R81): one header word and zero or more operand words; the port delivers it with its length. -/
structure Frame where
  header : Word
  operands : List Word
deriving DecidableEq, Repr

/-- Band index (R8, R82): LOW, MID, HIGH are 0, 1, 2. -/
inductive Band where
  | low
  | mid
  | high
deriving DecidableEq, Repr

/-- Channel index (R8): L, R are 0, 1. -/
inductive Chan where
  | left
  | right
deriving DecidableEq, Repr

/-- A CoefficientSet (R19): six values of one number format. The block's own sets are `Coefs Word`. -/
structure Coefs (α : Type) where
  b0 : α
  b1 : α
  b2 : α
  a0 : α
  a1 : α
  a2 : α
deriving DecidableEq, Repr

/-- The eight opcodes (R84, R85). -/
inductive Op where
  | prepare
  | release
  | process
  | flush
  | wrCoef
  | wrGain
  | wrEnable
  | rdReg
deriving DecidableEq, Repr

/-- A decoded command (R84, R93): header fields and operand words as values. -/
inductive Instr where
  /-- `PREPARE blk, fs` (R141) -/
  | prepare (blk fs : Word)
  /-- `RELEASE` (R145) -/
  | release
  /-- `PROCESS nch, ns` (R146) -/
  | process (nch ns : Word)
  /-- `FLUSH` (R158) -/
  | flush
  /-- `WR_COEF band, b0, b1, b2, a0, a1, a2` (R184) -/
  | wrCoef (band : Band) (k : Coefs Word)
  /-- `WR_GAIN band, g` (R186) -/
  | wrGain (band : Band) (g : Word)
  /-- `WR_ENABLE en` (R187) -/
  | wrEnable (en : Bool)
  /-- `RD_REG idx` (R188) -/
  | rdReg (idx : BitVec 8)
deriving DecidableEq, Repr

/-- The opcode of a command. -/
def Instr.op : Instr → Op
  | .prepare _ _ => .prepare
  | .release => .release
  | .process _ _ => .process
  | .flush => .flush
  | .wrCoef _ _ => .wrCoef
  | .wrGain _ _ => .wrGain
  | .wrEnable _ => .wrEnable
  | .rdReg _ => .rdReg

/-- The one port an opcode is legal on (R84, R86). -/
def Op.port : Op → Port
  | .prepare => .processing
  | .release => .processing
  | .process => .processing
  | .flush => .processing
  | .wrCoef => .control
  | .wrGain => .control
  | .wrEnable => .control
  | .rdReg => .control

/-- How many operand words the opcode's frame carries (R84). -/
def Op.operandWords : Op → Nat
  | .prepare => 2
  | .release => 0
  | .process => 2
  | .flush => 0
  | .wrCoef => 6
  | .wrGain => 1
  | .wrEnable => 0
  | .rdReg => 0

end Sys2Proof
end

