-- ==== Sys2Proof/WellFormed.lean ====
section
/-! DEFINITION. Which frames are commands: the match and mask table of spec rule R85 and the conditions of rules R87
and R88, each a check of its own, written over masks of the whole header word. `Decode.lean` reads the same frames
field by field (R93); the two are written apart so that one can be proved against the other. Every term of `Instr`
is well formed by its type (there is no fourth `Band`), so the checks are about frames. -/

namespace Sys2Proof

/-- One row of the opcode map of R85, with its port and operand count (R84). -/
structure OpcodeRow where
  op : Op
  pattern : Word
  mask : Word
deriving DecidableEq, Repr

/-- The opcode map of R85: header pattern ("match") and mask, row by row. -/
def opcodeRows : List OpcodeRow :=
  [ { op := .prepare, pattern := 0x00000001#32, mask := 0xFFFFFFFF#32 },
    { op := .release, pattern := 0x00000002#32, mask := 0xFFFFFFFF#32 },
    { op := .process, pattern := 0x00000003#32, mask := 0xFFFFFFFF#32 },
    { op := .flush, pattern := 0x00000004#32, mask := 0xFFFFFFFF#32 },
    { op := .wrCoef, pattern := 0x00000010#32, mask := 0xFFFFFCFF#32 },
    { op := .wrGain, pattern := 0x00000011#32, mask := 0xFFFFFCFF#32 },
    { op := .wrEnable, pattern := 0x00000012#32, mask := 0xFFFFFBFF#32 },
    { op := .rdReg, pattern := 0x00000013#32, mask := 0xFF00FFFF#32 } ]

/-- A header selects a row when `(h AND mask) = match` (R85). -/
def OpcodeRow.selects (r : OpcodeRow) (h : Word) : Bool := h &&& r.mask == r.pattern

/-- The row whose opcode number stands in bits 7:0 of the header, if there is one (R84: `op` alone tells it). -/
def rowOfHeader (h : Word) : Option OpcodeRow :=
  opcodeRows.find? (fun r => h &&& 0x000000FF#32 == r.pattern)

/-- R87: the opcode is assigned. -/
def Frame.opAssigned (f : Frame) : Bool := (rowOfHeader f.header).isSome

/-- R86: the opcode belongs to the port the frame arrived on. -/
def Frame.portLegal (p : Port) (f : Frame) : Bool :=
  (rowOfHeader f.header).all (fun r => r.op.port == p)

/-- R87: the reserved header bits 15:11 and 31:24 are 0. -/
def Frame.reservedClear (f : Frame) : Bool := f.header &&& 0xFF00F800#32 == 0#32

/-- R82, R87: `band` (9:8), `en` (10) and `idx` (23:16) are 0 unless the opcode's mask leaves them open. -/
def Frame.unusedFieldsClear (f : Frame) : Bool :=
  (rowOfHeader f.header).all (fun r => f.header &&& r.mask &&& 0x00FF0700#32 == 0#32)

/-- R88: `band = 3` names no band in `WR_COEF` and `WR_GAIN`. -/
def Frame.bandNamed (f : Frame) : Bool :=
  (rowOfHeader f.header).all (fun r =>
    !(r.op == .wrCoef || r.op == .wrGain) || !(f.header &&& 0x00000300#32 == 0x00000300#32))

/-- R81, R87: the frame has the operand words its opcode requires. -/
def Frame.lengthRight (f : Frame) : Bool :=
  (rowOfHeader f.header).all (fun r => f.operands.length == r.op.operandWords)

/-- The frame is a command on that port: none of the conditions of R87 and R88 makes it illegal. -/
def Frame.wellFormed (p : Port) (f : Frame) : Bool :=
  f.opAssigned && f.portLegal p && f.reservedClear && f.unusedFieldsClear && f.bandNamed && f.lengthRight

end Sys2Proof
end

