-- ==== Sys2Proof/Decode.lean ====
section
/-! DEFINITION. The decoder of spec rule R93, total on every frame and rejecting by name (R87, R88), and after it the
encoder, written from the header format of R82 and the opcode numbers of R84. -/

namespace Sys2Proof

/-- Why a frame is an illegal command (R87, R88). -/
inductive Illegal where
  /-- a reserved header bit (15:11, 31:24) is 1 -/
  | reservedBit
  /-- `op` is unassigned (R85) -/
  | unassignedOp
  /-- `op` belongs to the other port (R86) -/
  | wrongPort
  /-- a header field that must be 0 for the opcode is not (R82) -/
  | fieldNotZero
  /-- `band = 3` (R88) -/
  | noSuchBand
  /-- the frame's length is not the one R84 requires -/
  | badLength
deriving DecidableEq, Repr

/-- Header bits 7:0 (R82). -/
def headerOp (h : Word) : BitVec 8 := h.extractLsb' 0 8

/-- Header bits 9:8 (R82). -/
def headerBand (h : Word) : BitVec 2 := h.extractLsb' 8 2

/-- Header bit 10 (R82). -/
def headerEn (h : Word) : BitVec 1 := h.extractLsb' 10 1

/-- Header bits 15:11, reserved (R82). -/
def headerReservedLow (h : Word) : BitVec 5 := h.extractLsb' 11 5

/-- Header bits 23:16 (R82). -/
def headerIdx (h : Word) : BitVec 8 := h.extractLsb' 16 8

/-- Header bits 31:24, reserved (R82). -/
def headerReservedHigh (h : Word) : BitVec 8 := h.extractLsb' 24 8

/-- The opcode number of R84. -/
def opNumber : Op → BitVec 8
  | .prepare => 0x01#8
  | .release => 0x02#8
  | .process => 0x03#8
  | .flush => 0x04#8
  | .wrCoef => 0x10#8
  | .wrGain => 0x11#8
  | .wrEnable => 0x12#8
  | .rdReg => 0x13#8

/-- The opcode a number stands for (R84, R85): every other number is unassigned. -/
def opOfNumber (n : BitVec 8) : Option Op :=
  if n = 0x01#8 then some .prepare
  else if n = 0x02#8 then some .release
  else if n = 0x03#8 then some .process
  else if n = 0x04#8 then some .flush
  else if n = 0x10#8 then some .wrCoef
  else if n = 0x11#8 then some .wrGain
  else if n = 0x12#8 then some .wrEnable
  else if n = 0x13#8 then some .rdReg
  else none

/-- The band index of R8. -/
def bandNumber : Band → BitVec 2
  | .low => 0#2
  | .mid => 1#2
  | .high => 2#2

/-- The band an index names; 3 names none (R88). -/
def bandOfNumber (n : BitVec 2) : Option Band :=
  if n = 0#2 then some .low
  else if n = 1#2 then some .mid
  else if n = 2#2 then some .high
  else none

/-- The header fields `band`, `en`, `idx` that must be 0 for an opcode are 0 (R82, R93's "need" lists). -/
def unusedFieldsZero (o : Op) (h : Word) : Bool :=
  match o with
  | .prepare => headerBand h == 0#2 && headerEn h == 0#1 && headerIdx h == 0#8
  | .release => headerBand h == 0#2 && headerEn h == 0#1 && headerIdx h == 0#8
  | .process => headerBand h == 0#2 && headerEn h == 0#1 && headerIdx h == 0#8
  | .flush => headerBand h == 0#2 && headerEn h == 0#1 && headerIdx h == 0#8
  | .wrCoef => headerEn h == 0#1 && headerIdx h == 0#8
  | .wrGain => headerEn h == 0#1 && headerIdx h == 0#8
  | .wrEnable => headerBand h == 0#2 && headerIdx h == 0#8
  | .rdReg => headerBand h == 0#2 && headerEn h == 0#1

/-- The command an opcode makes of its header fields and operand words (R93), the other header checks done. -/
def assemble (o : Op) (h : Word) (ops : List Word) : Except Illegal Instr :=
  match o with
  | .prepare =>
    match ops with
    | [blk, fs] => .ok (.prepare blk fs)
    | _ => .error .badLength
  | .release =>
    match ops with
    | [] => .ok .release
    | _ => .error .badLength
  | .process =>
    match ops with
    | [nch, ns] => .ok (.process nch ns)
    | _ => .error .badLength
  | .flush =>
    match ops with
    | [] => .ok .flush
    | _ => .error .badLength
  | .wrCoef =>
    match bandOfNumber (headerBand h) with
    | none => .error .noSuchBand
    | some b =>
      match ops with
      | [b0, b1, b2, a0, a1, a2] =>
        .ok (.wrCoef b { b0 := b0, b1 := b1, b2 := b2, a0 := a0, a1 := a1, a2 := a2 })
      | _ => .error .badLength
  | .wrGain =>
    match bandOfNumber (headerBand h) with
    | none => .error .noSuchBand
    | some b =>
      match ops with
      | [g] => .ok (.wrGain b g)
      | _ => .error .badLength
  | .wrEnable =>
    match ops with
    | [] => .ok (.wrEnable (headerEn h == 1#1))
    | _ => .error .badLength
  | .rdReg =>
    match ops with
    | [] => .ok (.rdReg (headerIdx h))
    | _ => .error .badLength

/-- The decoding procedure of R93: every frame on either port is one command or illegal (R90). -/
def decode (p : Port) (f : Frame) : Except Illegal Instr :=
  if headerReservedLow f.header = 0#5 ∧ headerReservedHigh f.header = 0#8 then
    match opOfNumber (headerOp f.header) with
    | none => .error .unassignedOp
    | some o =>
      if o.port = p then
        if unusedFieldsZero o f.header then assemble o f.header f.operands else .error .fieldNotZero
      else .error .wrongPort
  else .error .reservedBit

/-- A header word from its fields (R82): reserved bits 0. -/
def headerWord (op : BitVec 8) (band : BitVec 2) (en : BitVec 1) (idx : BitVec 8) : Word :=
  op.setWidth 32 ||| (band.setWidth 32 <<< 8) ||| (en.setWidth 32 <<< 10) ||| (idx.setWidth 32 <<< 16)

/-- The header of a command (R82, R84). -/
def encodeHeader : Instr → Word
  | .prepare _ _ => headerWord 0x01#8 0#2 0#1 0#8
  | .release => headerWord 0x02#8 0#2 0#1 0#8
  | .process _ _ => headerWord 0x03#8 0#2 0#1 0#8
  | .flush => headerWord 0x04#8 0#2 0#1 0#8
  | .wrCoef b _ => headerWord 0x10#8 (bandNumber b) 0#1 0#8
  | .wrGain b _ => headerWord 0x11#8 (bandNumber b) 0#1 0#8
  | .wrEnable en => headerWord 0x12#8 0#2 (BitVec.ofBool en) 0#8
  | .rdReg idx => headerWord 0x13#8 0#2 0#1 idx

/-- The operand words of a command, in the order of R84. -/
def encodeOperands : Instr → List Word
  | .prepare blk fs => [blk, fs]
  | .release => []
  | .process nch ns => [nch, ns]
  | .flush => []
  | .wrCoef _ k => [k.b0, k.b1, k.b2, k.a0, k.a1, k.a2]
  | .wrGain _ g => [g]
  | .wrEnable _ => []
  | .rdReg _ => []

/-- The frame of a command: the words of R84 and R85. -/
def encode (i : Instr) : Frame :=
  { header := encodeHeader i, operands := encodeOperands i }

/-- `count` operand words of a number whose bits 31:0 are the header: operand `i` is its bits `32*i+63 : 32*i+32`. -/
def tableOperands (w : Nat) : Nat → List Word
  | 0 => []
  | k + 1 => BitVec.ofNat 32 (w >>> 32) :: tableOperands (w >>> 32) k

/-- The frame of a number of `nbits` bits as spec/opcode_table.json numbers them: the header in bits 31:0, then as
many operand words as the opcode requires (R84), each bit above `nbits` 0. -/
def tableFrame (nbits w : Nat) : Frame :=
  let v := w % 2 ^ nbits
  let h := BitVec.ofNat 32 v
  { header := h
    operands := tableOperands v (match opOfNumber (headerOp h) with
      | some o => o.operandWords
      | none => 0) }

/-- The port such a frame is sent on: its opcode's (R84), the processing port where there is none. -/
def tablePort (nbits w : Nat) : Port :=
  match opOfNumber (headerOp (tableFrame nbits w).header) with
  | some o => o.port
  | none => .processing

/-- The command the decoder reads from a table row's word. -/
def decodeTableWord (nbits w : Nat) : Option Instr :=
  match decode (tablePort nbits w) (tableFrame nbits w) with
  | .ok i => some i
  | .error _ => none

end Sys2Proof
end

