-- ==== Sys2Proof/Machine/State.lean ====
section
/-! DEFINITION. The state of the block (spec rule R20, items 1 to 10) and, beside it, the inputs of the outside
parties as plain data (R16, R293), what they have observed (R294), and the counters of the free values. The reasons a
step can stop, and the state after reset (R44). -/

namespace Sys2Proof.Machine

/-- FilterState (R21): the two most recent inputs and the two most recent outputs of one instance. -/
structure Hist (α : Type) where
  /-- the previous input, x[n-1] -/
  x1 : α
  /-- the input before that, x[n-2] -/
  x2 : α
  /-- the previous output, y[n-1] -/
  y1 : α
  /-- the output before that, y[n-2] -/
  y2 : α
deriving DecidableEq, Repr

/-- One biquad instance (R110): six active coefficient registers (R22) and four FilterState registers (R21). -/
structure Biquad (α : Type) where
  coef : Coefs α
  hist : Hist α
deriving DecidableEq, Repr

/-- One value per band (R8). -/
structure PerBand (α : Type) where
  low : α
  mid : α
  high : α
deriving DecidableEq, Repr

/-- The value of band `b`. -/
def PerBand.get {α : Type} (p : PerBand α) : Band → α
  | .low => p.low
  | .mid => p.mid
  | .high => p.high

/-- The record with the value of band `b` replaced. -/
def PerBand.set {α : Type} (p : PerBand α) (b : Band) (v : α) : PerBand α :=
  match b with
  | .low => { p with low := v }
  | .mid => { p with mid := v }
  | .high => { p with high := v }

/-- One value per channel (R8). -/
structure PerChan (α : Type) where
  left : α
  right : α
deriving DecidableEq, Repr

/-- The value of channel `c`. -/
def PerChan.get {α : Type} (p : PerChan α) : Chan → α
  | .left => p.left
  | .right => p.right

/-- The record with the value of channel `c` replaced. -/
def PerChan.set {α : Type} (p : PerChan α) (c : Chan) (v : α) : PerChan α :=
  match c with
  | .left => { p with left := v }
  | .right => { p with right := v }

/-- The lock (R29). -/
inductive Lock where
  | free
  /-- held by `CTRLX` -/
  | ctrl
  /-- held by `PROC` -/
  | proc
deriving DecidableEq, Repr

/-- The sequencer's seven states (R34). -/
inductive PState where
  | unprepared
  | idle
  | pull
  | snapWait
  | snapHold
  | run
  | fault
deriving DecidableEq, Repr

/-- The control executor's three states (R40). -/
inductive CState where
  | cIdle
  | cWait
  | cHold
deriving DecidableEq, Repr

/-- A validated control write as it is latched (R40, R182): its header fields and operand words. -/
inductive Latched where
  | wrCoef (band : Band) (k : Coefs Word)
  | wrGain (band : Band) (g : Word)
  | wrEnable (en : Bool)
deriving DecidableEq, Repr

/-- A response on the control port (R41, R91): one word, or two for a successful `RD_REG`. -/
structure CResp where
  word : Word
  data : Option Word
deriving DecidableEq, Repr

/-- A request to the upstream source (R41). -/
inductive SrcReq where
  | prepare (blk fs : Word)
  | release
  | fill (nch ns : Word)
deriving DecidableEq, Repr

/-- One written word of the sample buffer: its address (`Memory.addr`) and its value. -/
abbrev Cell := Nat × Word

/-- The sample buffer `BUF` (R60): its written words, addresses strictly rising; an address not listed has no value
(R64). The unit is the whole word of `T`: no rule splits a word into bytes (R62). -/
abbrev Memory := List Cell

/-- The canonical form of the sample buffer: addresses strictly rising. -/
abbrev Memory.wf (m : Memory) : Prop := m.Pairwise (fun x y => x.1 < y.1)

/-- One action of `HOSTP`'s script (R293, R260): send a frame, write or read a word of `BUF`, or wait. A wait does
nothing but hold back what follows it in the script. -/
inductive HostPAction where
  | send (f : Frame)
  | write (c n : Nat) (v : Word)
  | read (c n : Nat)
  /-- wait until no command is outstanding on the processing port and its response has been taken -/
  | awaitResponse
  /-- wait until the last frame sent has been answered `DONE` (R225: `wait DONE`); after any other answer, for ever -/
  | awaitDone
  /-- wait for `awaitResponse`, and until `HOSTC` has signalled `n` times (the host's own order, R225) -/
  | awaitSignals (n : Nat)
deriving DecidableEq, Repr

/-- One action of `HOSTC`'s script (R293, R260): send a frame, wait, or tell `HOSTP` how far the script is (the host's own
order between its two contexts, R225). -/
inductive HostCAction where
  | send (f : Frame)
  /-- wait until the last frame sent has been answered `OK` (R225: `wait OK`); after any other answer, for ever -/
  | awaitOk
  /-- signal to `HOSTP` -/
  | signal
deriving DecidableEq, Repr

/-- One free answer of the source to a fill (R162): the count it reports and the samples it writes, row by row. -/
structure SrcAnswer where
  count : Word
  rows : List (List Word)
deriving DecidableEq, Repr

/-- Who moves next: an agent (R16), or the block's reset input (R270). -/
inductive Turn where
  | agent (a : Agent)
  | hardwareReset
deriving DecidableEq, Repr

/-- One read of `BUF` by `HOSTP`, as it observed it (R294). -/
structure BufObservation where
  row : Nat
  index : Nat
  value : Word
deriving DecidableEq, Repr

/-- What the outside parties have observed (R294), oldest first. -/
structure Observed where
  /-- (1) responses taken on the processing port -/
  presps : List Word
  /-- (2) responses taken on the control port -/
  cresps : List CResp
  /-- (3) words of `BUF` read by `HOSTP` -/
  reads : List BufObservation
  /-- (4) requests taken by the source -/
  sreqs : List SrcReq
deriving DecidableEq, Repr

/-- The whole state. The fields from `flt` to `buf` are the block's (R20); the fields from `hostP` on are the
model's own: the outside parties' inputs and observations, the implementation's parameters, and the counters of the
free values. -/
structure State where
  /-- `flt[b][c]` (R21, R22) -/
  flt : PerBand (PerChan (Biquad Word))
  /-- `act.gain[b]` (R23) -/
  actGain : PerBand Word
  /-- `act.bypass` (R24) -/
  actBypass : Bool
  /-- `cfg.coef[b]` (R26) -/
  cfgCoef : PerBand (Coefs Word)
  /-- `cfg.gain[b]` (R27) -/
  cfgGain : PerBand Word
  /-- `cfg.bypass` (R27) -/
  cfgBypass : Bool
  /-- `lock` (R29) -/
  lock : Lock
  /-- `fs` (R31) -/
  fs : Word
  /-- `blk` (R32) -/
  blk : Word
  /-- `pstate` (R34) -/
  pstate : PState
  /-- `cur_nch` (R35) -/
  curNch : Word
  /-- `cur_ns` (R35) -/
  curNs : Word
  /-- `cur_k` (R35) -/
  curK : Word
  /-- `cur_n` (R35) -/
  curN : Word
  /-- `fault_code` (R36) -/
  faultCode : BitVec 4
  /-- `fault_info` (R36) -/
  faultInfo : Word
  /-- `cfg_err` (R37) -/
  cfgErr : Bool
  /-- `cstate` (R40) -/
  cstate : CState
  /-- `clatch` (R40) -/
  clatch : Latched
  /-- `pcmd` (R41) -/
  pcmd : Option Frame
  /-- `presp` (R41) -/
  presp : Option Word
  /-- `ccmd` (R41) -/
  ccmd : Option Frame
  /-- `cresp` (R41) -/
  cresp : Option CResp
  /-- `sreq` (R41) -/
  sreq : Option SrcReq
  /-- `sresp` (R41) -/
  sresp : Option Word
  /-- `BUF` (R60) -/
  buf : Memory
  /-- `HOSTP`'s script: what it has still to do (R293) -/
  hostP : List HostPAction
  /-- `HOSTP` has sent a `PROCESS` and not yet taken its response (R76) -/
  hostPBlock : Bool
  /-- the response `HOSTP` has taken to the last frame it sent, if it has -/
  hostPAnswer : Option Word
  /-- `HOSTC`'s script: what it has still to do (R293) -/
  hostC : List HostCAction
  /-- the response word `HOSTC` has taken to the last frame it sent, if it has -/
  hostCAnswer : Option Word
  /-- how many signals `HOSTC` has given (R225) -/
  hostCSignals : Nat
  /-- the source's answers to the coming fills (R162, R293) -/
  source : List SrcAnswer
  /-- who moves in the coming turns (R16, U6); where it is empty the turn is a free value -/
  sched : List Turn
  /-- what has been observed (R294) -/
  obs : Observed
  /-- the implementation's parameters (R9); no step changes them -/
  params : Params
  /-- how many NaN patterns have been drawn (R115, U2) -/
  nanDraws : Nat
  /-- how many turns have been drawn (R16, U6) -/
  agentDraws : Nat
deriving DecidableEq, Repr

/-- Why the machine stops. None of these is the block's own fault state: `raise Fault` of R244 is a next state. -/
inductive Fault where
  /-- `HOSTP` (or `PROC`, in states no run reaches) reads a word of `BUF` that nothing has written (R64: a fault of
  the host's program). Safe: the machine stops where the spec gives no value. -/
  | bufNeverWritten
  /-- an access to `BUF` with `c >= MAXCH` or `n >= MAXBLK` (R60: no meaning), by `HOSTP`, or by `SRC` or `PROC` in
  states no run reaches. Safe: the machine stops where the spec gives no meaning. -/
  | bufOutOfRange
  /-- raised by a turn when no agent has a step and the run is over (R293). Safe: the spec gives no step there. -/
  | runOver
  /-- raised by a turn when no agent has a step and the run is not over (R293: stuck). Safe: the spec gives no step
  there. -/
  | stuck
deriving DecidableEq, Repr

/-- Why a step has no meaning. -/
inductive Refusal where
  /-- raised by `exec` for a command that has no meaning yet; no arm does so. Safe: the machine stops. -/
  | notModelled (mnemonic : String)
deriving DecidableEq, Repr

/-- The identity set (R44): `b0 = a0 = 1.0`, the rest `+0.0`. -/
def identityCoefs : Coefs Word :=
  { b0 := 0x3F800000#32, b1 := 0#32, b2 := 0#32, a0 := 0x3F800000#32, a1 := 0#32, a2 := 0#32 }

/-- A cleared FilterState (R44, R123): all `+0.0`. -/
def clearedHist : Hist Word := { x1 := 0#32, x2 := 0#32, y1 := 0#32, y2 := 0#32 }

/-- A biquad instance after reset (R44). -/
def resetBiquad : Biquad Word := { coef := identityCoefs, hist := clearedHist }

/-- The machine right after reset (R44), with empty scripts: nothing sent, nothing observed, nothing scheduled. The
loop registers and `clatch`, which R44 leaves unspecified, have the values of log entry 2. -/
def State.reset : State :=
  { flt :=
      { low := { left := resetBiquad, right := resetBiquad }
        mid := { left := resetBiquad, right := resetBiquad }
        high := { left := resetBiquad, right := resetBiquad } }
    actGain := { low := 0x3F800000#32, mid := 0x3F800000#32, high := 0x3F800000#32 }
    actBypass := false
    cfgCoef := { low := identityCoefs, mid := identityCoefs, high := identityCoefs }
    cfgGain := { low := 0x3F800000#32, mid := 0x3F800000#32, high := 0x3F800000#32 }
    cfgBypass := false
    lock := .free
    fs := 0#32
    blk := 0#32
    pstate := .unprepared
    curNch := 0#32
    curNs := 0#32
    curK := 0#32
    curN := 0#32
    faultCode := 0#4
    faultInfo := 0#32
    cfgErr := false
    cstate := .cIdle
    clatch := .wrEnable false
    pcmd := none
    presp := none
    ccmd := none
    cresp := none
    sreq := none
    sresp := none
    buf := []
    hostP := []
    hostPBlock := false
    hostPAnswer := none
    hostC := []
    hostCAnswer := none
    hostCSignals := 0
    source := []
    sched := []
    obs := { presps := [], cresps := [], reads := [], sreqs := [] }
    params := Config.params
    nanDraws := 0
    agentDraws := 0 }

end Sys2Proof.Machine
end

