-- ==== Sys2Proof/Machine/Num.lean ====
section
/-! DEFINITION. The number format `NUM` as a configuration record (spec rule R9) and its binary32 form (R12, R111 to
R115): every finite value is a whole number of units of 2^-149, so each operation is computed exactly over the
natural numbers and rounded once, to nearest, ties to even. -/

namespace Sys2Proof.Machine

/-- `NUM` (R9): a number format's four operations. The block takes it as an argument (`stepWith`, over values held in
words of `W` = 32 bits, R9, R62); this hardware's is `binary32`. The first argument numbers the operation's free draw (R115); a
format without NaNs ignores it. -/
structure NumOps (α : Type) where
  fadd : Nat → α → α → α
  fsub : Nat → α → α → α
  fmul : Nat → α → α → α
  fdiv : Nat → α → α → α

/-- The sign bit, bit 31 (R12): true for a negative sign. -/
def signBit (v : Word) : Bool := v.getLsbD 31

/-- The biased exponent, bits 30 to 23 (R12). -/
def expField (v : Word) : Nat := (v.extractLsb' 23 8).toNat

/-- The fraction, bits 22 to 0 (R12). -/
def fracField (v : Word) : Nat := (v.extractLsb' 0 23).toNat

/-- A NaN: exponent bits all 1, fraction not 0 (R115). -/
def isNaN (v : Word) : Bool := expField v == 255 && !(fracField v == 0)

/-- An infinity: exponent bits all 1, fraction 0. -/
def isInf (v : Word) : Bool := expField v == 255 && fracField v == 0

/-- Neither an infinity nor a NaN (R12). -/
def isFinite (v : Word) : Bool := !(expField v == 255)

/-- `+0.0` or `-0.0` (R12). -/
def isZero (v : Word) : Bool := expField v == 0 && fracField v == 0

/-- The magnitude of a finite value in units of 2^-149, the smallest subnormal. -/
def magnitude (v : Word) : Nat :=
  if expField v = 0 then fracField v else (2 ^ 23 + fracField v) * 2 ^ (expField v - 1)

/-- A finite value in units of 2^-149. -/
def units (v : Word) : Int := if signBit v then -(magnitude v : Int) else (magnitude v : Int)

/-- `num / den` rounded to a whole number: nearest, ties to even (R111). -/
def roundHalfEven (num den : Nat) : Nat :=
  let q := num / den
  let r := num % den
  if 2 * r < den then q else if den < 2 * r then q + 1 else q + q % 2

/-- Bits 30 to 0 of the binary32 value nearest to `num / den` units of 2^-149, ties to even (R111). With `e` the
excess of the quotient's width over 24 bits, the unit in the last place is `2^e`, and `e * 2^23` added to the rounded
significand is the pattern, a carry into the next binade included; from the infinity's pattern on it is the infinity. -/
def roundMagnitude (num den : Nat) : Nat :=
  let e := Nat.log2 (num / den) - 23
  min (e * 2 ^ 23 + roundHalfEven num (den * 2 ^ e)) 0x7F800000

/-- A word from a sign and bits 30 to 0. -/
def pack (neg : Bool) (bits : Nat) : Word := BitVec.ofNat 32 ((if neg then 2 ^ 31 else 0) + bits)

/-- `neg` of R112: the sign bit flipped. -/
def fneg (v : Word) : Word := v ^^^ 0x80000000#32

/-- `fadd` (R111); `nan` is the NaN it returns where it returns one (R115). -/
def faddWith (nan a b : Word) : Word :=
  if isNaN a || isNaN b then nan
  else if isInf a then (if isInf b && (signBit a != signBit b) then nan else a)
  else if isInf b then b
  else
    let z := units a + units b
    if z = 0 then pack (isZero a && isZero b && signBit a && signBit b) 0
    else pack (decide (z < 0)) (roundMagnitude z.natAbs 1)

/-- `fsub` (R112). -/
def fsubWith (nan a b : Word) : Word := faddWith nan a (fneg b)

/-- `fmul` (R113). -/
def fmulWith (nan a b : Word) : Word :=
  if isNaN a || isNaN b then nan
  else if (isInf a && isZero b) || (isZero a && isInf b) then nan
  else if isInf a || isInf b then pack (signBit a ^^ signBit b) 0x7F800000
  else pack (signBit a ^^ signBit b) (roundMagnitude (magnitude a * magnitude b) (2 ^ 149))

/-- `fdiv` (R114). An infinity by a zero, which R114 does not state, is a free value; an infinity by another finite
value is the infinity of the exclusive-or sign (DEDUCED: log entry 13). The sign of a zero quotient of two finite
operands (a zero dividend, or a quotient that rounds to zero), which R114 does not state either, is the exclusive-or of
the operand signs (PRESUMED, from IEEE 754; DEDUCED for `+0.0` over a positive divisor: log entry 18). -/
def fdivWith (nan a b : Word) : Word :=
  if isNaN a || isNaN b then nan
  else if (isInf a && isInf b) || (isZero a && isZero b) then nan
  else if isInf a && isZero b then Config.infinityOverZero a b
  else if isInf a || isZero b then pack (signBit a ^^ signBit b) 0x7F800000
  else if isInf b then pack (signBit a ^^ signBit b) 0
  else pack (signBit a ^^ signBit b) (roundMagnitude (magnitude a * 2 ^ 149) (magnitude b))

/-- FREE VALUE (R115, log entry 4). The NaN pattern of draw number `d`: any sign, exponent bits all 1, any fraction
that is not 0. -/
def drawNaN (d : Nat) : Word :=
  pack (Config.freeNaN d).1 (0x7F800000 + ((Config.freeNaN d).2.val + 1))

/-- This hardware's `NUM` (R9, R111 to R115): binary32, each NaN a draw of its own. -/
def binary32 : NumOps Word :=
  { fadd := fun d a b => faddWith (drawNaN d) a b
    fsub := fun d a b => fsubWith (drawNaN d) a b
    fmul := fun d a b => fmulWith (drawNaN d) a b
    fdiv := fun d a b => fdivWith (drawNaN d) a b }

/-- Exact arithmetic over a field as a `NUM` (R117: with it the document's formula holds exactly). -/
def exactNum (K : Type) [Field K] : NumOps K :=
  { fadd := fun _ a b => a + b
    fsub := fun _ a b => a - b
    fmul := fun _ a b => a * b
    fdiv := fun _ a b => a / b }

/-- The output of `BQ.STEP` (R116, R117): five products, four additions and subtractions from left to right, one
division, in any number format. Operation `i` of the ten uses draw `d + i`. -/
def biquadOut {α : Type} (N : NumOps α) (d : Nat) (k : Coefs α) (h : Hist α) (x : α) : α :=
  let p0 := N.fmul d k.b0 x
  let p1 := N.fmul (d + 1) k.b1 h.x1
  let p2 := N.fmul (d + 2) k.b2 h.x2
  let p3 := N.fmul (d + 3) k.a1 h.y1
  let p4 := N.fmul (d + 4) k.a2 h.y2
  let s1 := N.fadd (d + 5) p0 p1
  let s2 := N.fadd (d + 6) s1 p2
  let s3 := N.fsub (d + 7) s2 p3
  let s4 := N.fsub (d + 8) s3 p4
  N.fdiv (d + 9) s4 k.a0

/-- The history shift of `BQ.STEP` (R116, R118): all four writes read the old values. -/
def shiftHist {α : Type} (h : Hist α) (x out : α) : Hist α :=
  { x1 := x, x2 := h.x1, y1 := out, y2 := h.y1 }

/-- One instance fed a list of inputs with constant coefficients (R13's x[n] and y[n], R120): the outputs in order
and the final history. Sample `i` uses draws `d + 10 * i` to `d + 10 * i + 9`. -/
def biquadRun {α : Type} (N : NumOps α) (k : Coefs α) (d : Nat) (h : Hist α) : List α → List α × Hist α
  | [] => ([], h)
  | x :: xs =>
    let out := biquadOut N d k h x
    let r := biquadRun N k (d + 10) (shiftHist h x out) xs
    (out :: r.1, r.2)

end Sys2Proof.Machine
end

