-- ==== Sys2Proof/Machine/Operands.lean ====
section
/-! DEFINITION. What the block makes of operand words (spec rule R83): the validity of a coefficient set (R183), the
clamp of a sample rate (R143), and the register index of `RD_REG` (R39). -/

namespace Sys2Proof.Machine

/-- The row of `BUF` and the index of a channel's instances (R8): L is 0, R is 1. -/
def chanRow : Chan → Nat
  | .left => 0
  | .right => 1

/-- All six values satisfy `isFinite` (R183). -/
def coefsFinite (k : Coefs Word) : Bool :=
  isFinite k.b0 && isFinite k.b1 && isFinite k.b2 && isFinite k.a0 && isFinite k.a1 && isFinite k.a2

/-- `valid_coef(k)` (R183): all six values finite, and `a0` neither `+0.0` nor `-0.0`. -/
def validCoef (k : Coefs Word) : Bool := coefsFinite k && !(isZero k.a0)

/-- `v < w` for a value that is no NaN and a finite `w` (R143): an infinity by its sign, a finite value exactly. -/
def lessThanFinite (v w : Word) : Bool :=
  if isInf v then signBit v else decide (units v < units w)

/-- `clamp_fs(v)` (R143), the second argument `FS_MIN`: a NaN and everything below `FS_MIN` become `FS_MIN`, positive
infinity the largest finite value. -/
def clampFs (v fsMin : Word) : Word :=
  if isNaN v || lessThanFinite v fsMin then fsMin
  else if isInf v then 0x7F7FFFFF#32
  else v

/-- A coefficient register of a set (R39): `k` is 0 for b0, 1 for b1, 2 for b2, 3 for a0, 4 for a1, 5 for a2. -/
inductive CoefReg where
  | b0
  | b1
  | b2
  | a0
  | a1
  | a2
deriving DecidableEq, Repr

/-- The value of a coefficient register. -/
def CoefReg.of {α : Type} (r : CoefReg) (k : Coefs α) : α :=
  match r with
  | .b0 => k.b0
  | .b1 => k.b1
  | .b2 => k.b2
  | .a0 => k.a0
  | .a1 => k.a1
  | .a2 => k.a2

/-- The registers `RD_REG` can read (R39). -/
inductive RegName where
  | status
  | fs
  | blk
  | faultInfo
  | gain (b : Band)
  | coef (b : Band) (r : CoefReg)
deriving DecidableEq, Repr

/-- The register map of R39; every other index names no register (R89). -/
def regOfIndex (idx : BitVec 8) : Option RegName :=
  match idx.toNat with
  | 0x00 => some .status
  | 0x01 => some .fs
  | 0x02 => some .blk
  | 0x03 => some .faultInfo
  | 0x04 => some (.gain .low)
  | 0x05 => some (.gain .mid)
  | 0x06 => some (.gain .high)
  | 0x10 => some (.coef .low .b0)
  | 0x11 => some (.coef .low .b1)
  | 0x12 => some (.coef .low .b2)
  | 0x13 => some (.coef .low .a0)
  | 0x14 => some (.coef .low .a1)
  | 0x15 => some (.coef .low .a2)
  | 0x18 => some (.coef .mid .b0)
  | 0x19 => some (.coef .mid .b1)
  | 0x1A => some (.coef .mid .b2)
  | 0x1B => some (.coef .mid .a0)
  | 0x1C => some (.coef .mid .a1)
  | 0x1D => some (.coef .mid .a2)
  | 0x20 => some (.coef .high .b0)
  | 0x21 => some (.coef .high .b1)
  | 0x22 => some (.coef .high .b2)
  | 0x23 => some (.coef .high .a0)
  | 0x24 => some (.coef .high .a1)
  | 0x25 => some (.coef .high .a2)
  | _ => none

end Sys2Proof.Machine
end

