-- ==== Sys2Proof/Machine/Flags.lean ====
section
/-! DEFINITION. The condition bits and words the block shows (spec rules R37, R38, R91): the predicates on the
sequencer's state, the `STATUS` view and the response words. There are no arithmetic flags (R37, R115). -/

namespace Sys2Proof.Machine

/-- A frame can be accepted on the processing port, and `HOSTP` may send and owns `BUF`: `UNPREPARED`, `IDLE`,
`FAULT` (R61, R160, R161). -/
def PState.accepting : PState → Bool
  | .unprepared => true
  | .idle => true
  | .pull => false
  | .snapWait => false
  | .snapHold => false
  | .run => false
  | .fault => true

/-- `STATUS.BUSY` (R38): a block is in progress. -/
def PState.busy : PState → Bool
  | .unprepared => false
  | .idle => false
  | .pull => true
  | .snapWait => true
  | .snapHold => true
  | .run => true
  | .fault => false

/-- `STATUS.PREPARED` (R38). -/
def PState.prepared : PState → Bool
  | .unprepared => false
  | .idle => true
  | .pull => true
  | .snapWait => true
  | .snapHold => true
  | .run => true
  | .fault => false

/-- `STATUS` (R38), assembled at the moment of the read: reserved bits 31:12 and 7:5 are 0. -/
def statusWord (s : State) : Word :=
  (BitVec.ofBool s.pstate.prepared).setWidth 32 |||
    ((BitVec.ofBool s.pstate.busy).setWidth 32 <<< 1) |||
    ((BitVec.ofBool (s.pstate == .fault)).setWidth 32 <<< 2) |||
    ((BitVec.ofBool s.cfgErr).setWidth 32 <<< 3) |||
    ((BitVec.ofBool (!s.cfgBypass)).setWidth 32 <<< 4) |||
    (s.faultCode.setWidth 32 <<< 8)

/-- A response word (R91): `kind` in bits 3:0, `code` in bits 11:8, the rest 0. -/
def responseWord (kind code : BitVec 4) : Word := kind.setWidth 32 ||| (code.setWidth 32 <<< 8)

/-- `OK`, called `DONE` on the processing port (R91). -/
def okWord : Word := responseWord 0#4 0#4

/-- `ERR` (R91). -/
def errWord : Word := responseWord 1#4 0#4

/-- `FAULT(code)` (R91, R244). -/
def faultWord (code : BitVec 4) : Word := responseWord 2#4 code

/-- The word `RD_REG` returns for a register (R39, R188). -/
def regValue (r : RegName) (s : State) : Word :=
  match r with
  | .status => statusWord s
  | .fs => s.fs
  | .blk => s.blk
  | .faultInfo => s.faultInfo
  | .gain b => s.cfgGain.get b
  | .coef b k => k.of (s.cfgCoef.get b)

end Sys2Proof.Machine
end

