-- ==== Sys2Proof/Machine/Ops.lean ====
section
/-! DEFINITION. The named operations the meanings share: the sample buffer (spec rules R60 to R67), the
micro-operations (R116, R121, R123), responses, fault entry (R244) and refusal (R248). -/

namespace Sys2Proof.Machine

/-- Run `f` on the next state, if there is one. -/
def andThen (o : Host.Outcome State Fault Refusal) (f : State → Host.Outcome State Fault Refusal) :
    Host.Outcome State Fault Refusal :=
  match o with
  | .next s => f s
  | .fault r => .fault r
  | .refused r => .refused r

/-! ### The sample buffer -/

/-- The key of the word `(c, n)` (R60): the pair, `c` the more significant half. An index is below `MAXBLK < 2^32`. -/
def Memory.addr (c n : Nat) : Nat := c * 2 ^ 32 + n

/-- The word at an address; a word nothing has written has no value (R64). -/
def Memory.read (m : Memory) (a : Nat) : Option Word :=
  match m with
  | [] => none
  | (b, w) :: rest => if a = b then some w else Memory.read rest a

/-- Replace the word at an address, keeping the addresses strictly rising. -/
def Memory.write (m : Memory) (a : Nat) (v : Word) : Memory :=
  match m with
  | [] => [(a, v)]
  | (b, w) :: rest =>
    if a < b then (a, v) :: (b, w) :: rest
    else if a = b then (a, v) :: rest
    else (b, w) :: Memory.write rest a v

/-- Write `value n` at `(c, n)` for the `count` indices from `lo` on. -/
def Memory.fillRow (m : Memory) (value : Nat → Word) (c lo : Nat) : Nat → Memory
  | 0 => m
  | k + 1 => Memory.write (Memory.fillRow m value c lo k) (Memory.addr c (lo + k)) (value (lo + k))

/-- Write `value c n` at `(c, n)` for the rows below `rows` and the `count` indices from `lo` on (R150, R162). -/
def Memory.fillRows (m : Memory) (value : Nat → Nat → Word) (lo count : Nat) : Nat → Memory
  | 0 => m
  | r + 1 => Memory.fillRow (Memory.fillRows m value lo count r) (value r) r lo count

/-- The word `(c, n)` exists (R60). -/
def inBuf (s : State) (c n : Nat) : Bool := decide (c < s.params.maxCh) && decide (n < s.params.maxBlk)

/-- A region of `nch` rows and `ns` indices lies in `BUF` (R60, R147). -/
def regionFits (s : State) (nch ns : Nat) : Bool :=
  decide (nch ≤ s.params.maxCh) && decide (ns ≤ s.params.maxBlk)

/-- `BufRead(c, n)` (R14, R60, R64). -/
def bufRead (c n : Nat) (s : State) : Except Fault Word :=
  if inBuf s c n then
    match Memory.read s.buf (Memory.addr c n) with
    | some w => .ok w
    | none => .error .bufNeverWritten
  else .error .bufOutOfRange

/-- `BufWrite(c, n, v)` (R14, R60) at a word that exists. -/
def bufWrite (c n : Nat) (v : Word) (s : State) : State :=
  { s with buf := Memory.write s.buf (Memory.addr c n) v }

/-! ### The biquad instances -/

/-- The instance `flt[b][c]`. -/
def instanceOf (s : State) (b : Band) (c : Chan) : Biquad Word := (s.flt.get b).get c

/-- Replace the instance `flt[b][c]`. -/
def setBiquad (b : Band) (c : Chan) (q : Biquad Word) (s : State) : State :=
  { s with flt := s.flt.set b ((s.flt.get b).set c q) }

/-- `BQ.STEP(b, c, in)` (R116) in the number format `N` (R9): the output, and the state with the instance's history
shifted. Its ten operations use the next ten NaN draws. -/
def bqStepWith (N : NumOps Word) (b : Band) (c : Chan) (x : Word) (s : State) : Word × State :=
  let q := instanceOf s b c
  let out := biquadOut N s.nanDraws q.coef q.hist x
  (out, { setBiquad b c { q with hist := shiftHist q.hist x out } s with nanDraws := s.nanDraws + 10 })

/-- `BQ.STEP` of this hardware: `NUM` is binary32 (R9). -/
abbrev bqStep (b : Band) (c : Chan) (x : Word) (s : State) : Word × State := bqStepWith binary32 b c x s

/-- `BQ.RETUNE` (R121) on one instance: the six coefficients replaced, the history kept. -/
def bqRetune (k : Coefs Word) (q : Biquad Word) : Biquad Word := { q with coef := k }

/-- `BQ.CLEAR` (R123) on one instance: the history `+0.0`, the coefficients kept. -/
def bqClear (q : Biquad Word) : Biquad Word := { q with hist := clearedHist }

/-- One function on both instances of a band. -/
def bothChannels (f : Biquad Word → Biquad Word) (p : PerChan (Biquad Word)) : PerChan (Biquad Word) :=
  { left := f p.left, right := f p.right }

/-- `BQ.CLEAR(b, c)` for all six instances (R141, R158). -/
def clearAll (s : State) : State :=
  { s with flt :=
      { low := bothChannels bqClear s.flt.low
        mid := bothChannels bqClear s.flt.mid
        high := bothChannels bqClear s.flt.high } }

/-- The gain multiplication after a band's filter (R152): one rounded product, one NaN draw. -/
def applyGain (N : NumOps Word) (b : Band) (y : Word) (s : State) : Word × State :=
  (N.fmul s.nanDraws (s.actGain.get b) y, { s with nanDraws := s.nanDraws + 1 })

/-! ### Responses, faults, refusals -/

/-- `respond(processing, w)` (R15). -/
def respondProcessing (w : Word) (s : State) : State := { s with presp := some w }

/-- `respond(control, ...)` (R15). -/
def respondControl (r : CResp) (s : State) : State := { s with cresp := some r }

/-- `raise Fault(code, info)` (R244): the one fault entry of the block. The loop registers keep their last values;
R35 leaves them unspecified in `FAULT` (DESIGN CHOICE: log entry 2). -/
def raiseFault (code : BitVec 4) (info : Word) (s : State) : State :=
  { s with
    faultCode := code
    faultInfo := info
    pstate := .fault
    presp := some (faultWord code) }

/-- The refusal of a control frame (R182, R248). -/
def refuse (s : State) : State :=
  { s with cfgErr := true, cresp := some { word := errWord, data := none } }

/-- `PROC` takes the frame (R161). -/
def takePcmd (s : State) : State := { s with pcmd := none }

/-- `CTRLX` takes the frame (R181). -/
def takeCcmd (s : State) : State := { s with ccmd := none }

/-- The entry of R159 for a processing-port frame, by `pstate`: in `FAULT` the answer of R246; where no frame can be
accepted (R161) no step; else `serve`, which takes the frame when it goes ahead. -/
def serveProcessing (serve : State → Host.Outcome State Fault Refusal) (s : State) :
    Host.Outcome State Fault Refusal :=
  match s.pstate with
  | .unprepared => serve s
  | .idle => serve s
  | .pull => .next s
  | .snapWait => .next s
  | .snapHold => .next s
  | .run => .next s
  | .fault => .next (respondProcessing (faultWord s.faultCode) (takePcmd s))

/-- `await sreq = empty` (R15): while the slot is full `PROC` has no step. -/
def awaitSreq (serve : State → Host.Outcome State Fault Refusal) (s : State) :
    Host.Outcome State Fault Refusal :=
  match s.sreq with
  | none => serve s
  | some _ => .next s

/-- The accept step of `CTRLX` for a decoded command (R181, R182): only in `C_IDLE`; it takes the frame. -/
def serveControl (serve : State → Host.Outcome State Fault Refusal) (s : State) :
    Host.Outcome State Fault Refusal :=
  match s.cstate with
  | .cIdle => serve (takeCcmd s)
  | .cWait => .next s
  | .cHold => .next s

/-- Latch a validated control write and wait for the lock (R182). -/
def latchWrite (l : Latched) (s : State) : State := { s with clatch := l, cstate := .cWait }

/-- Hardware reset (R270): every piece of the block's state at the value of R44, at once, whatever was in progress.
The outside parties' scripts, answers and signals, what they have observed, the parameters and the draw counters are not
the block's; with the slots emptied `HOSTP` has no command outstanding. -/
def hardwareReset (s : State) : State :=
  { State.reset with
    hostP := s.hostP
    hostPAnswer := s.hostPAnswer
    hostC := s.hostC
    hostCAnswer := s.hostCAnswer
    hostCSignals := s.hostCSignals
    source := s.source
    sched := s.sched
    obs := s.obs
    params := s.params
    nanDraws := s.nanDraws
    agentDraws := s.agentDraws }

end Sys2Proof.Machine
end

