-- ==== Sys2Proof/Machine/Control.lean ====
section
/-! DEFINITION. The control-port commands (spec rules R182 to R189): for each its accept step, which is the command's
meaning in `exec`, an illegal control frame (R248), and the acquire and write steps of `CTRLX` that complete a
control write (R192, R193). -/

namespace Sys2Proof.Machine

/-- `WR_COEF`, the accept step (R182): refused when the set is not valid (R183), else latched. -/
def execWrCoef (band : Band) (k : Coefs Word) (s : State) : Host.Outcome State Fault Refusal :=
  serveControl (fun s =>
    if validCoef k then .next (latchWrite (.wrCoef band k) s) else .next (refuse s)) s

/-- `WR_GAIN`, the accept step (R182): refused when the gain is a NaN or an infinity (R186), else latched. -/
def execWrGain (band : Band) (g : Word) (s : State) : Host.Outcome State Fault Refusal :=
  serveControl (fun s =>
    if isFinite g then .next (latchWrite (.wrGain band g) s) else .next (refuse s)) s

/-- `WR_ENABLE`, the accept step (R182, R187): always latched. -/
def execWrEnable (en : Bool) (s : State) : Host.Outcome State Fault Refusal :=
  serveControl (fun s => .next (latchWrite (.wrEnable en) s)) s

/-- `RD_REG` (R188): the word of the register map, in this one step and without the lock; an index not in the map is
refused (R189). -/
def execRdReg (idx : BitVec 8) (s : State) : Host.Outcome State Fault Refusal :=
  serveControl (fun s =>
    match regOfIndex idx with
    | some r => .next (respondControl { word := okWord, data := some (regValue r s) } s)
    | none => .next (refuse s)) s

/-- An illegal frame on the control port (R87, R248): refused. -/
def illegalControl (s : State) : Host.Outcome State Fault Refusal :=
  serveControl (fun s => .next (refuse s)) s

/-- The control acquire step (R192): in `C_WAIT` with the lock free. -/
def ctrlAcquire (s : State) : State := { s with lock := .ctrl, cstate := .cHold }

/-- The effect of a latched command on the guarded unit (R184, R186, R187). -/
def applyLatched (l : Latched) (s : State) : State :=
  match l with
  | .wrCoef band k => { s with cfgCoef := s.cfgCoef.set band k }
  | .wrGain band g => { s with cfgGain := s.cfgGain.set band g }
  | .wrEnable en => { s with cfgBypass := !en }

/-- The control write step (R193): the latched effect, and in the same step the lock released and `OK` answered.
`clatch` keeps the last command; R40 gives it no meaning in `C_IDLE` (DESIGN CHOICE: log entry 2). -/
def ctrlWrite (s : State) : State :=
  respondControl { word := okWord, data := none }
    { applyLatched s.clatch s with lock := .free, cstate := .cIdle }

end Sys2Proof.Machine
end

