-- ==== Sys2Proof/Machine/Lifecycle.lean ====
section
/-! DEFINITION. The processing-port commands of the life cycle: `PREPARE` (spec rules R141 to R144), `RELEASE` (R145)
and `FLUSH` (R158), and an illegal processing-port frame (R87, R159). -/

namespace Sys2Proof.Machine

/-- `PREPARE blk, fs_in` (R141): fault 2 when `blk > MAXBLK` (R142); else the clamped rate and the block size are
stored, all FilterState is cleared and the source is told. -/
def execPrepare (blk fsIn : Word) (s : State) : Host.Outcome State Fault Refusal :=
  serveProcessing (fun s =>
    if s.params.maxBlk < blk.toNat then .next (raiseFault 2#4 0x00000001#32 (takePcmd s))
    else awaitSreq (fun s =>
      let fsEff := clampFs fsIn s.params.fsMin
      .next (respondProcessing okWord
        { clearAll (takePcmd s) with
          fs := fsEff
          blk := blk
          sreq := some (.prepare blk fsEff)
          pstate := .idle })) s) s

/-- `RELEASE` (R145): nothing to release in `UNPREPARED`; in `IDLE` the source is told and the stage is unprepared. -/
def execRelease (s : State) : Host.Outcome State Fault Refusal :=
  serveProcessing (fun s =>
    match s.pstate with
    | .unprepared => .next (respondProcessing okWord (takePcmd s))
    | _ => awaitSreq (fun s =>
        .next (respondProcessing okWord
          { takePcmd s with sreq := some .release, pstate := .unprepared })) s) s

/-- `FLUSH` (R158): all FilterState cleared, nothing else. -/
def execFlush (s : State) : Host.Outcome State Fault Refusal :=
  serveProcessing (fun s => .next (respondProcessing okWord (clearAll (takePcmd s)))) s

/-- An illegal frame on the processing port (R87, R159): fault 3 with the frame's header word. -/
def illegalProcessing (header : Word) (s : State) : Host.Outcome State Fault Refusal :=
  serveProcessing (fun s => .next (raiseFault 3#4 header (takePcmd s))) s

end Sys2Proof.Machine
end

