-- ==== Sys2Proof/Machine/Process.lean ====
section
/-! DEFINITION. `PROCESS` (spec rules R146 to R157): its admission step, which is the command's meaning in `exec`, and
the later steps of `PROC` that complete it: pull answer, lock acquire, `SNAP`, sample frames, completion. -/

namespace Sys2Proof.Machine

/-- `PROCESS nch, ns`, the admission step (R147): fault 1 in `UNPREPARED`, then fault 2 for a block that does not fit
`BUF`, then the fill request. It writes neither `cur_k` nor `cur_n` (R149 and R196 do): until then `cur_k` holds the value
of the block before, and `cur_n` is 0, which `completeBlock` leaves; nothing reads them before they are written (DESIGN
CHOICE: log entry 2). -/
def execProcess (nch ns : Word) (s : State) : Host.Outcome State Fault Refusal :=
  serveProcessing (fun s =>
    match s.pstate with
    | .unprepared => .next (raiseFault 1#4 0x00000003#32 (takePcmd s))
    | _ =>
      if s.params.maxCh < nch.toNat ∨ s.params.maxBlk < ns.toNat then
        .next (raiseFault 2#4 0x00000003#32 (takePcmd s))
      else awaitSreq (fun s =>
        .next { takePcmd s with
          curNch := nch
          curNs := ns
          sreq := some (.fill nch ns)
          pstate := .pull }) s) s

/-- The pull-answer step for the count `k` (R149): fault 4 when the source claims more than was asked, else the
silence fill of R150. A region outside `BUF` (no run reaches one) has no meaning (R60). -/
def pullAnswer (k : Word) (s : State) : Host.Outcome State Fault Refusal :=
  if s.curNs.toNat < k.toNat then .next (raiseFault 4#4 0x00000003#32 { s with sresp := none })
  else if regionFits s s.curNch.toNat s.curNs.toNat then
    .next { s with
      sresp := none
      curK := k
      buf := Memory.fillRows s.buf (fun _ _ => 0#32) k.toNat (s.curNs.toNat - k.toNat) s.curNch.toNat
      pstate := .snapWait }
  else .fault .bufOutOfRange

/-- The processing acquire step (R195): in `SNAP_WAIT` with the lock free. -/
def procAcquire (s : State) : State := { s with lock := .proc, pstate := .snapHold }

/-- `SNAP` (R196): the whole guarded unit copied to the active copies, the lock released, the loop begun. -/
def snap (s : State) : State :=
  { s with
    flt :=
      { low := bothChannels (bqRetune (s.cfgCoef.get .low)) s.flt.low
        mid := bothChannels (bqRetune (s.cfgCoef.get .mid)) s.flt.mid
        high := bothChannels (bqRetune (s.cfgCoef.get .high)) s.flt.high }
    actGain := s.cfgGain
    actBypass := s.cfgBypass
    lock := .free
    curN := 0#32
    pstate := .run }

/-- One band of the cascade (R152) in the number format `N`: the filter, then the band's gain. -/
def bandStage (N : NumOps Word) (b : Band) (c : Chan) (x : Word) (s : State) : Word × State :=
  let r := bqStepWith N b c x s
  applyGain N b r.1 r.2

/-- The three bands of a channel in series, LOW then MID then HIGH (R152). -/
def cascade (N : NumOps Word) (c : Chan) (x : Word) (s : State) : Word × State :=
  let r0 := bandStage N .low c x s
  let r1 := bandStage N .mid c r0.1 r0.2
  bandStage N .high c r1.1 r1.2

/-- One channel of a sample frame (R152): read, filter, write back in place (R67). -/
def channelFrame (N : NumOps Word) (c : Chan) (s : State) : Host.Outcome State Fault Refusal :=
  match bufRead (chanRow c) s.curN.toNat s with
  | .error e => .fault e
  | .ok x =>
    let r := cascade N c x s
    .next (bufWrite (chanRow c) s.curN.toNat r.1 r.2)

/-- The filtered channels of a frame, `0 .. rows - 1` with at most two rows (R152). -/
def channelFrames (N : NumOps Word) (rows : Nat) (s : State) : Host.Outcome State Fault Refusal :=
  match rows with
  | 0 => .next s
  | 1 => channelFrame N .left s
  | _ + 2 => andThen (channelFrame N .left s) (channelFrame N .right)

/-- The sample-frame step (R152). -/
def sampleFrame (N : NumOps Word) (s : State) : Host.Outcome State Fault Refusal :=
  andThen (channelFrames N s.curNch.toNat s) (fun t => .next { t with curN := s.curN + 1#32 })

/-- The completion step (R155). R35 leaves the loop registers unspecified outside a block: `cur_n` is set to 0, so that
it is within R35's bound in the next block before `SNAP` writes it, and the others keep their last values (DESIGN CHOICE:
log entry 2). -/
def completeBlock (s : State) : State := respondProcessing okWord { s with pstate := .idle, curN := 0#32 }

end Sys2Proof.Machine
end

