-- ==== Sys2Proof/Machine/Dispatch.lean ====
section
/-! DEFINITION. `exec`: the one dispatch from a decoded command to its meaning, the step in which the block accepts it
(spec rules R161 and R182). -/

namespace Sys2Proof.Machine

def exec (i : Instr) (s : State) : Host.Outcome State Fault Refusal :=
  match i with
  | .prepare blk fs => Sys2Proof.Machine.execPrepare blk fs s
  | .release => Sys2Proof.Machine.execRelease s
  | .process nch ns => Sys2Proof.Machine.execProcess nch ns s
  | .flush => Sys2Proof.Machine.execFlush s
  | .wrCoef band k => Sys2Proof.Machine.execWrCoef band k s
  | .wrGain band g => Sys2Proof.Machine.execWrGain band g s
  | .wrEnable en => Sys2Proof.Machine.execWrEnable en s
  | .rdReg idx => Sys2Proof.Machine.execRdReg idx s

end Sys2Proof.Machine
end

