-- ==== Sys2Proof/Machine/Outside.lean ====
section
/-! DEFINITION. The steps of the three outside agents (spec rule R260): `HOSTP` (R160, R164, R165), `HOSTC` (R181) and
`SRC` (R162, R163). What they do is read from their scripts in `State`, which are arbitrary data. -/

namespace Sys2Proof.Machine

/-- `HOSTP` may send (R160): nothing outstanding on its port, and `pstate` takes frames. -/
def hostpFree (s : State) : Bool := s.pcmd.isNone && s.presp.isNone && s.pstate.accepting

/-- `HOSTP` may touch `BUF`: by `pstate` it is the owner (R61, R165), and it is not between sending a `PROCESS` and
taking its response (R76). -/
def hostpOwnsBuf (s : State) : Bool := s.pstate.accepting && !s.hostPBlock

/-- A command starts a block (R76): `PROCESS` does. -/
def startsBlock (i : Instr) : Bool :=
  match i with
  | .prepare _ _ => false
  | .release => false
  | .process _ _ => true
  | .flush => false
  | .wrCoef _ _ => false
  | .wrGain _ _ => false
  | .wrEnable _ => false
  | .rdReg _ => false

/-- A frame on the processing port is a `PROCESS` (R76). -/
def isProcessFrame (f : Frame) : Bool :=
  match decode .processing f with
  | .ok i => startsBlock i
  | .error _ => false

/-- `HOSTP` may take the action now (R160, R165, R76, R225); what it may not do yet it waits for. -/
def hostpMay (a : HostPAction) (s : State) : Bool :=
  match a with
  | .send _ => hostpFree s
  | .write _ _ _ => hostpOwnsBuf s
  | .read _ _ => hostpOwnsBuf s
  | .awaitResponse => hostpFree s
  | .awaitDone => hostpFree s && s.hostPAnswer == some okWord
  | .awaitSignals n => hostpFree s && decide (n ≤ s.hostCSignals)

/-- `HOSTP` does an action of its script (R160, R165). -/
def hostpAct (a : HostPAction) (s : State) : Host.Outcome State Fault Refusal :=
  match a with
  | .send f => .next { s with pcmd := some f, hostPBlock := isProcessFrame f, hostPAnswer := none }
  | .write c n v => if inBuf s c n then .next (bufWrite c n v s) else .fault .bufOutOfRange
  | .read c n =>
    match bufRead c n s with
    | .ok v => .next { s with obs := { s.obs with reads := s.obs.reads ++ [{ row := c, index := n, value := v }] } }
    | .error e => .fault e
  | .awaitResponse => .next s
  | .awaitDone => .next s
  | .awaitSignals _ => .next s

/-- `HOSTP` takes a response (R164). -/
def hostpTake (s : State) : Host.Outcome State Fault Refusal :=
  match s.presp with
  | some w =>
    .next { s with
      presp := none, hostPBlock := false, hostPAnswer := some w, obs := { s.obs with presps := s.obs.presps ++ [w] } }
  | none => .next s

/-- A step of `HOSTP`: the next action of its script if it may take it, else a waiting response. A script that wants a
response taken before it touches `BUF` says so with `awaitResponse` (log entry 10). -/
def hostpStep (s : State) : Host.Outcome State Fault Refusal :=
  match s.hostP with
  | [] => hostpTake s
  | a :: rest => if hostpMay a s then hostpAct a { s with hostP := rest } else hostpTake s

/-- `HOSTP` may take the next action of its script. -/
def hostpScriptGoes (s : State) : Bool :=
  match s.hostP with
  | [] => false
  | a :: _ => hostpMay a s

/-- `HOSTP` has a step. -/
def hostpHasStep (s : State) : Bool := s.presp.isSome || hostpScriptGoes s

/-- `HOSTC` may send (R181). -/
def hostcFree (s : State) : Bool := s.ccmd.isNone && s.cresp.isNone && s.cstate == .cIdle

/-- `HOSTC` may take the action now (R181, R225); what it may not do yet it waits for. -/
def hostcMay (a : HostCAction) (s : State) : Bool :=
  match a with
  | .send _ => hostcFree s
  | .awaitOk => hostcFree s && s.hostCAnswer == some okWord
  | .signal => hostcFree s

/-- `HOSTC` does an action of its script (R181). -/
def hostcAct (a : HostCAction) (s : State) : State :=
  match a with
  | .send f => { s with ccmd := some f, hostCAnswer := none }
  | .awaitOk => s
  | .signal => { s with hostCSignals := s.hostCSignals + 1 }

/-- A step of `HOSTC` (R181): take a response, or else the next action of its script if it may take it. -/
def hostcStep (s : State) : Host.Outcome State Fault Refusal :=
  match s.cresp with
  | some r =>
    .next { s with cresp := none, hostCAnswer := some r.word, obs := { s.obs with cresps := s.obs.cresps ++ [r] } }
  | none =>
    match s.hostC with
    | [] => .next s
    | a :: rest => if hostcMay a s then .next (hostcAct a { s with hostC := rest }) else .next s

/-- `HOSTC` may take the next action of its script. -/
def hostcScriptGoes (s : State) : Bool :=
  match s.hostC with
  | [] => false
  | a :: _ => hostcMay a s

/-- `HOSTC` has a step. -/
def hostcHasStep (s : State) : Bool := s.cresp.isSome || hostcScriptGoes s

/-- The sample an answer gives for `(c, n)`; `+0.0` where its list is shorter (one of the values R162 allows). -/
def SrcAnswer.sample (a : SrcAnswer) (c n : Nat) : Word := (a.rows.getD c []).getD n 0#32

/-- The source answers a fill (R162): its samples in the first `min(k, ns)` indices of the `nch` rows, and its count. -/
def srcAnswer (a : SrcAnswer) (nch ns : Word) (s : State) : Host.Outcome State Fault Refusal :=
  if regionFits s nch.toNat ns.toNat then
    .next { s with
      buf := Memory.fillRows s.buf a.sample 0 (min a.count.toNat ns.toNat) nch.toNat
      sreq := none
      sresp := some a.count }
  else .fault .bufOutOfRange

/-- The source takes a request, which empties the slot (R163). -/
def takeSreq (r : SrcReq) (s : State) : State :=
  { s with sreq := none, obs := { s.obs with sreqs := s.obs.sreqs ++ [r] } }

/-- A step of `SRC` (R162, R163). A fill whose answer its script does not hold is never answered (R148). -/
def srcStep (s : State) : Host.Outcome State Fault Refusal :=
  match s.sreq with
  | none => .next s
  | some .release => .next (takeSreq .release s)
  | some (.prepare blk fs) => .next (takeSreq (.prepare blk fs) s)
  | some (.fill nch ns) =>
    match s.source with
    | [] => .next s
    | a :: rest => srcAnswer a nch ns (takeSreq (.fill nch ns) { s with source := rest })

/-- `SRC` has a step. -/
def srcHasStep (s : State) : Bool :=
  match s.sreq with
  | none => false
  | some .release => true
  | some (.prepare _ _) => true
  | some (.fill _ _) => !s.source.isEmpty

end Sys2Proof.Machine
end

