-- ==== Sys2Proof/Machine/Sequencer.lean ====
section
/-! DEFINITION. The steps of the two agents inside the block, `PROC` and `CTRLX` (spec rules R161, R181, R260), when
each agent has a step, when a run is over or stuck (R293), and one turn of an agent. -/

namespace Sys2Proof.Machine

/-- `PROC` accepts the frame in `pcmd` (R161): the meaning of the command it decodes to, or the illegal frame. -/
def acceptProcessing (f : Frame) (s : State) : Host.Outcome State Fault Refusal :=
  match decode .processing f with
  | .ok i => exec i s
  | .error _ => illegalProcessing f.header s

/-- `PROC` looks for a frame to accept (R161). -/
def procAccept (s : State) : Host.Outcome State Fault Refusal :=
  match s.pcmd with
  | some f => acceptProcessing f s
  | none => .next s

/-- A step of `PROC`, by `pstate` (R148, R149, R152, R155, R161, R195, R196), in the number format `N` (R9). -/
def procStepWith (N : NumOps Word) (s : State) : Host.Outcome State Fault Refusal :=
  match s.pstate with
  | .unprepared => procAccept s
  | .idle => procAccept s
  | .fault => procAccept s
  | .pull =>
    match s.sresp with
    | some k => pullAnswer k s
    | none => .next s
  | .snapWait =>
    match s.lock with
    | .free => .next (procAcquire s)
    | .ctrl => .next s
    | .proc => .next s
  | .snapHold => .next (snap s)
  | .run =>
    if s.actBypass ∨ s.curN = s.curNs then .next (completeBlock s)
    else if s.curN.toNat < s.curNs.toNat then sampleFrame N s
    else .next s

/-- A step of `PROC` of this hardware: `NUM` is binary32 (R9). -/
abbrev procStep (s : State) : Host.Outcome State Fault Refusal := procStepWith binary32 s

/-- In `UNPREPARED` and `IDLE`, the command puts a request to the source and so awaits an empty `sreq` (R141, R145,
R147): a `PREPARE` that fits, a `RELEASE` in `IDLE`, a `PROCESS` in `IDLE` that fits. -/
def needsSource (i : Instr) (s : State) : Bool :=
  match i with
  | .prepare blk _ => decide (blk.toNat ≤ s.params.maxBlk)
  | .release => s.pstate == .idle
  | .process nch ns => s.pstate == .idle && decide (nch.toNat ≤ s.params.maxCh) && decide (ns.toNat ≤ s.params.maxBlk)
  | .flush => false
  | .wrCoef _ _ => false
  | .wrGain _ _ => false
  | .wrEnable _ => false
  | .rdReg _ => false

/-- A frame on the processing port needs the source. -/
def frameNeedsSource (f : Frame) (s : State) : Bool :=
  match decode .processing f with
  | .ok i => needsSource i s
  | .error _ => false

/-- In `UNPREPARED` and `IDLE`, `PROC` has a frame to accept, and it does not await `sreq` (R15, R161). -/
def procCanAccept (s : State) : Bool :=
  match s.pcmd with
  | none => false
  | some f => s.sreq.isNone || !frameNeedsSource f s

/-- `PROC` has a step. -/
def procHasStep (s : State) : Bool :=
  match s.pstate with
  | .unprepared => procCanAccept s
  | .idle => procCanAccept s
  | .fault => s.pcmd.isSome
  | .pull => s.sresp.isSome
  | .snapWait => s.lock == .free
  | .snapHold => true
  | .run => s.actBypass || decide (s.curN.toNat ≤ s.curNs.toNat)

/-- `CTRLX` accepts the frame in `ccmd` (R181, R182). -/
def acceptControl (f : Frame) (s : State) : Host.Outcome State Fault Refusal :=
  match decode .control f with
  | .ok i => exec i s
  | .error _ => illegalControl s

/-- A step of `CTRLX`, by `cstate` (R181, R192, R193). -/
def ctrlxStep (s : State) : Host.Outcome State Fault Refusal :=
  match s.cstate with
  | .cIdle =>
    match s.ccmd with
    | some f => acceptControl f s
    | none => .next s
  | .cWait =>
    match s.lock with
    | .free => .next (ctrlAcquire s)
    | .ctrl => .next s
    | .proc => .next s
  | .cHold => .next (ctrlWrite s)

/-- `CTRLX` has a step. -/
def ctrlxHasStep (s : State) : Bool :=
  match s.cstate with
  | .cIdle => s.ccmd.isSome
  | .cWait => s.lock == .free
  | .cHold => true

/-- Whether an agent has a step (R260). -/
def hasStep (a : Agent) (s : State) : Bool :=
  match a with
  | .hostp => hostpHasStep s
  | .proc => procHasStep s
  | .src => srcHasStep s
  | .hostc => hostcHasStep s
  | .ctrlx => ctrlxHasStep s

/-- The step of an agent (R260) in the number format `N` (R9); where it has none the state is unchanged. -/
def agentStepWith (N : NumOps Word) (a : Agent) (s : State) : Host.Outcome State Fault Refusal :=
  match a with
  | .hostp => hostpStep s
  | .proc => procStepWith N s
  | .src => srcStep s
  | .hostc => hostcStep s
  | .ctrlx => ctrlxStep s

/-- The step of an agent of this hardware (R260): `NUM` is binary32 (R9). -/
abbrev agentStep (a : Agent) (s : State) : Host.Outcome State Fault Refusal := agentStepWith binary32 a s

/-- The run is over (R293): scripts exhausted, every response taken, nothing in flight, the lock free. -/
def runOver (s : State) : Bool :=
  s.hostP.isEmpty && s.hostC.isEmpty && s.pcmd.isNone && s.presp.isNone && s.ccmd.isNone && s.cresp.isNone &&
    s.sreq.isNone && s.sresp.isNone && s.cstate == .cIdle && s.lock == .free && s.pstate.accepting

/-- No agent has a step. -/
def noStep (s : State) : Bool :=
  !(hasStep .hostp s || hasStep .proc s || hasStep .src s || hasStep .hostc s || hasStep .ctrlx s)

/-- One turn of an agent: its step if it has one; else, where no agent has one, the run is over or stuck (R293); else
the turn passes (R73: an agent that finds the lock taken tries again). -/
def takeTurn (N : NumOps Word) (a : Agent) (s : State) : Host.Outcome State Fault Refusal :=
  if hasStep a s then agentStepWith N a s
  else if runOver s then .fault .runOver
  else if noStep s then .fault .stuck
  else .next s

/-- The turn the schedule names, or a free draw where it names none (R16, U6). -/
def nextTurn (s : State) : Turn :=
  match s.sched with
  | t :: _ => t
  | [] => .agent (Config.freeAgent s.agentDraws)

/-- The state with that turn used up. -/
def useTurn (s : State) : State :=
  match s.sched with
  | _ :: rest => { s with sched := rest }
  | [] => { s with agentDraws := s.agentDraws + 1 }

/-- Place a frame on its port with its executor ready for it and the next turn (`State.withFetchWord`). -/
def placeFrame (p : Port) (f : Frame) (s : State) : State :=
  match p with
  | .processing =>
    { s with
      pcmd := some f
      hostPBlock := isProcessFrame f
      hostPAnswer := none
      pstate := if s.pstate.accepting then s.pstate else .idle
      sched := .agent .proc :: s.sched }
  | .control =>
    { s with
      ccmd := some f
      hostCAnswer := none
      cstate := .cIdle
      sched := .agent .ctrlx :: s.sched }

end Sys2Proof.Machine
end

