-- ==== Sys2Proof/Machine/Step.lean ====
section
/-! DEFINITION. One step of the whole machine: the turn of one agent (spec rules R16, R69), or hardware reset (R270). -/

namespace Sys2Proof.Machine

/-- One step of the block built with the number format `N` (R9): the next turn is used up, and its agent takes it; the
reset input acts at any time (R270). -/
def stepWith (N : NumOps Word) (s : State) : Host.Outcome State Fault Refusal :=
  match nextTurn s with
  | .agent a => takeTurn N a (useTurn s)
  | .hardwareReset => .next (hardwareReset (useTurn s))

/-- One step of this hardware: `NUM` is binary32 (R9). -/
def step (s : State) : Host.Outcome State Fault Refusal := stepWith binary32 s

/-- `s` with the command of a table word in the slot of its port, and the next turn its executor's. -/
def State.withFetchWord (s : State) (nbits w : Nat) : State :=
  placeFrame (tablePort nbits w) (tableFrame nbits w) s

end Sys2Proof.Machine
end

