-- ==== Sys2Proof/Machine/Designer.lean ====
section
/-! DEFINITION. The host's part (spec rules R4, R210 to R232; not hardware, and no step of the block calls it): the
Biquad Coefficient Designer and the command sequences of the host, over any ordered field, with the trigonometric
functions, the power of ten, the rounding to `T` and the open bounds as parameters (R222). -/

namespace Sys2Proof.Machine

/-- FilterShape (R211). -/
inductive FilterShape where
  /-- LowPass/LowShelf -/
  | lowPass
  /-- HighPass/HighShelf -/
  | highPass
  | bandPass
  | bandStop
  | allPass
deriving DecidableEq, Repr

/-- The host's clamp range for a requested frequency (R9, R223), open but for what R9 says of it: both bounds lie inside
the open interval (0, fs/2). -/
structure FrequencyBounds (K : Type) [Field K] [LinearOrder K] where
  /-- `FREQ_LO` -/
  lo : K
  /-- `FREQ_HI(fs)` -/
  hi : K → K
  lo_pos : 0 < lo
  hi_inside : ∀ fs, 0 < fs → 0 < hi fs ∧ hi fs < fs / 2

/-- A number as the host holds it: a value, or a NaN, which the spec names for Q (R214). -/
inductive HostNum (K : Type) where
  | num (v : K)
  | nan
deriving DecidableEq, Repr

/-- What the spec leaves to the host (R9, R214, R222, R223): the mathematical functions and constant it computes with,
its rounding to `T`, its frequency bounds, and which bound of the Q range it takes for a NaN. -/
structure HostMath (K : Type) [Field K] [LinearOrder K] where
  pi : K
  cos : K → K
  sin : K → K
  /-- `10^v` (R228) -/
  pow10 : K → K
  roundT : K → Word
  freq : FrequencyBounds K
  nanQIsMax : Bool

/-- `Q_MIN` and `Q_MAX` (R9). -/
def qMin {K : Type} [Field K] : K := 1 / 100000
def qMax {K : Type} [Field K] : K := 1000

/-- The Q clamp of R214: into `[Q_MIN, Q_MAX]`, a NaN to one of the two bounds. -/
def clampQ {K : Type} [Field K] [LinearOrder K] (m : HostMath K) (q : HostNum K) : K :=
  match q with
  | .num v => min (max v qMin) qMax
  | .nan => if m.nanQIsMax then qMax else qMin

/-- Whether a shape's alpha depends on Q (R212, R215), by `LPHP_USE_Q`. -/
def usesQ (lphpUseQ : Bool) : FilterShape → Bool
  | .lowPass => lphpUseQ
  | .highPass => lphpUseQ
  | .bandPass => true
  | .bandStop => true
  | .allPass => true

/-- The coefficient formulas of R212 from `cos_w0` and `alpha`. -/
def coefsFromAngle {K : Type} [Field K] (shape : FilterShape) (cosW0 alpha : K) : Coefs K :=
  match shape with
  | .lowPass =>
    { b0 := (1 - cosW0) / 2, b1 := 1 - cosW0, b2 := (1 - cosW0) / 2,
      a0 := 1 + alpha, a1 := -2 * cosW0, a2 := 1 - alpha }
  | .highPass =>
    { b0 := (1 + cosW0) / 2, b1 := -(1 + cosW0), b2 := (1 + cosW0) / 2,
      a0 := 1 + alpha, a1 := -2 * cosW0, a2 := 1 - alpha }
  | .bandPass =>
    { b0 := alpha, b1 := 0, b2 := -alpha, a0 := 1 + alpha, a1 := -2 * cosW0, a2 := 1 - alpha }
  | .bandStop =>
    { b0 := 1, b1 := -2 * cosW0, b2 := 1, a0 := 1 + alpha, a1 := -2 * cosW0, a2 := 1 - alpha }
  | .allPass =>
    { b0 := 1 - alpha, b1 := -2 * cosW0, b2 := 1 + alpha,
      a0 := 1 + alpha, a1 := -2 * cosW0, a2 := 1 - alpha }

/-- `w0` (R212). -/
def angularFrequency {K : Type} [Field K] [LinearOrder K] (m : HostMath K) (fs f : K) : K := 2 * m.pi * f / fs

/-- `alpha` (R212, R215), for either value of `LPHP_USE_Q`. -/
def designAlpha {K : Type} [Field K] [LinearOrder K] (lphpUseQ : Bool) (m : HostMath K) (shape : FilterShape) (sinW0 : K)
    (q : HostNum K) : K :=
  if usesQ lphpUseQ shape then sinW0 / (2 * clampQ m q) else sinW0

/-- `design(shape, sampleRate, frequency, Q)` (R210, R212), for either value of `LPHP_USE_Q`. -/
def designWith {K : Type} [Field K] [LinearOrder K] (lphpUseQ : Bool) (m : HostMath K) (shape : FilterShape) (fs f : K)
    (q : HostNum K) : Coefs K :=
  let w0 := angularFrequency m fs f
  coefsFromAngle shape (m.cos w0) (designAlpha lphpUseQ m shape (m.sin w0) q)

/-- `design` of this spec's host (R215): `LPHP_USE_Q` is false. -/
abbrev design {K : Type} [Field K] [LinearOrder K] (m : HostMath K) (shape : FilterShape) (fs f : K) (q : HostNum K) :
    Coefs K := designWith Config.lphpUseQ m shape fs f q

/-- A set with a function applied to its six values. -/
def mapCoefs {α β : Type} (g : α → β) (k : Coefs α) : Coefs β :=
  { b0 := g k.b0, b1 := g k.b1, b2 := g k.b2, a0 := g k.a0, a1 := g k.a1, a2 := g k.a2 }

/-- The transfer function `H(z)` of a set (R120). -/
def transferFunction {K : Type} [Field K] (k : Coefs K) (z : K) : K :=
  (k.b0 + k.b1 * z⁻¹ + k.b2 * z⁻¹ ^ 2) / (k.a0 + k.a1 * z⁻¹ + k.a2 * z⁻¹ ^ 2)

/-- The shape of each band (R211). -/
def shapeOfBand : Band → FilterShape
  | .low => .lowPass
  | .mid => .bandPass
  | .high => .highPass

/-- BandConfiguration (R19, R224): state of the host, of which the block holds only the gain. R214 gives the Q range for
this field too, not only for the use of Q, and does not say when the field is clamped: here `q` is kept as it was given
(out of range or a NaN), and `design` clamps it where it uses it (DESIGN CHOICE: log entry 19). -/
structure BandConfiguration (K : Type) where
  targetFrequency : K
  q : HostNum K
  gain : K
deriving DecidableEq, Repr

/-- What the host keeps (R224): one configuration per band, and the stream's sample rate. -/
structure HostConfig (K : Type) where
  bands : PerBand (BandConfiguration K)
  sampleRate : K
deriving DecidableEq, Repr

/-- The frequency clamp of R223, into `[FREQ_LO, FREQ_HI(fs)]`. Where that range is empty (a rate so small that
`FREQ_HI(fs) < FREQ_LO`) R223 says nothing and the upper bound wins, which keeps the result below Nyquist (DESIGN CHOICE:
log entry 17). -/
def clampFrequency {K : Type} [Field K] [LinearOrder K] (m : HostMath K) (fs f : K) : K :=
  min (max f m.freq.lo) (m.freq.hi fs)

/-- The value of a finite word of `T` (R12). -/
def wordValue {K : Type} [Field K] (w : Word) : K := (units w : K) / 2 ^ 149

/-- The set the host computes for a band (R225, R227). -/
def designBand {K : Type} [Field K] [LinearOrder K] (m : HostMath K) (h : HostConfig K) (b : Band) : Coefs K :=
  design m (shapeOfBand b) h.sampleRate (clampFrequency m h.sampleRate (h.bands.get b).targetFrequency)
    (h.bands.get b).q

/-- The `WR_COEF` frame that sends a band's set (R225, R227). -/
def coefFrame {K : Type} [Field K] [LinearOrder K] (m : HostMath K) (h : HostConfig K) (b : Band) : Frame :=
  encode (.wrCoef b (mapCoefs m.roundT (designBand m h b)))

/-- Send a frame on the control port and wait for its `OK` (R225). -/
def sendAwaitOk (f : Frame) : List HostCAction := [.send f, .awaitOk]

/-- The host sequence `prepare` (R225): the host's new configuration, and what its two scripts do. The rate it designs for
is the clamped one (R143), which the block stores and `RD_REG 0x01` reads back. On the processing port it sends `PREPARE`,
waits for its `DONE`, and goes on to what follows (the first `PROCESS` at the new rate) only after the signal that each of
the three writes on the control port has had its own `OK`; `signals` is how many signals there have been before. -/
def hostPrepare {K : Type} [Field K] [LinearOrder K] (m : HostMath K) (p : Params) (h : HostConfig K) (signals : Nat)
    (blk fs : Word) : HostConfig K × List HostPAction × List HostCAction :=
  let h' := { h with sampleRate := wordValue (clampFs fs p.fsMin) }
  (h', [.send (encode (.prepare blk fs)), .awaitDone, .awaitSignals (signals + 1)],
    sendAwaitOk (coefFrame m h' .low) ++ sendAwaitOk (coefFrame m h' .mid) ++ sendAwaitOk (coefFrame m h' .high) ++
      [.signal])

/-- The host sequence `setBandGain` (R226): the gain is a linear factor (R228). The recomputed set is always
sent after it, which R226 lets the host omit (DESIGN CHOICE: log entry 20). -/
def hostSetBandGain {K : Type} [Field K] [LinearOrder K] (m : HostMath K) (h : HostConfig K) (b : Band) (g : K) :
    HostConfig K × List Frame :=
  let h' := { h with bands := h.bands.set b { h.bands.get b with gain := g } }
  (h', [encode (.wrGain b (m.roundT g)), coefFrame m h' b])

/-- A gain in decibels as the linear factor the block takes: `10^(dB/20)`, which R228 marks as general knowledge and
decision D6 takes (log entry 12). -/
def dbToFactor {K : Type} [Field K] [LinearOrder K] (m : HostMath K) (db : K) : K := m.pow10 (db / 20)

/-- `setBandGain` with a gain in decibels, converted by the host first (R228). -/
def hostSetBandGainDb {K : Type} [Field K] [LinearOrder K] (m : HostMath K) (h : HostConfig K) (b : Band) (db : K) :
    HostConfig K × List Frame :=
  hostSetBandGain m h b (dbToFactor m db)

/-- The host sequence `setBandFrequency` (R227). -/
def hostSetBandFrequency {K : Type} [Field K] [LinearOrder K] (m : HostMath K) (h : HostConfig K) (b : Band) (f : K) :
    HostConfig K × List Frame :=
  let h' := { h with bands := h.bands.set b { h.bands.get b with targetFrequency := f } }
  (h', [coefFrame m h' b])

/-- The host sequence `setFilterEnabled` (R229). -/
def hostSetFilterEnabled (flag : Bool) : List Frame := [encode (.wrEnable flag)]

end Sys2Proof.Machine
end

