-- ==== Sys2Proof/Safety.lean ====
section
/-! DEFINITION. What claims are stated in: the invariants of the block (spec rules R29, R30, R36, R41, R60, R61, R64),
the groups of state a step may leave unchanged, and the end of a run (R293). -/

namespace Sys2Proof.Machine

/-! ### Invariants -/

/-- A latched write carries only what passed validation (R182): it is what keeps R30 through the write step. -/
def Latched.valid : Latched → Bool
  | .wrCoef _ k => validCoef k
  | .wrGain _ g => isFinite g
  | .wrEnable _ => true

/-- R30: every pending and active set is finite with `a0` not zero, every gain finite; and a latched write is valid. -/
structure State.CoefsValid (s : State) : Prop where
  pendingCoef : ∀ b, validCoef (s.cfgCoef.get b) = true
  activeCoef : ∀ b c, validCoef (instanceOf s b c).coef = true
  pendingGain : ∀ b, isFinite (s.cfgGain.get b) = true
  activeGain : ∀ b, isFinite (s.actGain.get b) = true
  latch : s.cstate ≠ .cIdle → s.clatch.valid = true

/-- R29, R70: who holds the lock is in its critical section, and the reverse. -/
structure State.LockOwned (s : State) : Prop where
  ctrl : s.lock = .ctrl ↔ s.cstate = .cHold
  proc : s.lock = .proc ↔ s.pstate = .snapHold

/-- R36, R241: `pstate = FAULT` if and only if `fault_code` is not 0, and codes 5 to 15 are never produced. -/
structure State.FaultRecorded (s : State) : Prop where
  code : s.pstate = .fault ↔ s.faultCode ≠ 0#4
  range : s.faultCode.toNat ≤ 4

/-- R41, R76, R160, R181: on each port at most one of a command, its execution and its response is there. -/
structure State.OneOutstanding (s : State) : Prop where
  pcmd : s.pcmd.isSome = true → s.presp = none ∧ s.pstate.busy = false
  pbusy : s.pstate.busy = true → s.presp = none
  ccmd : s.ccmd.isSome = true → s.cresp = none ∧ s.cstate = .cIdle
  cbusy : s.cstate ≠ .cIdle → s.cresp = none

/-- R147 to R149, R162: a fill is outstanding, or its answer is there, exactly while `pstate = PULL`, and the fill is
the one the `PROCESS` in progress asked for. -/
structure State.PullTracked (s : State) : Prop where
  request : ∀ nch ns, s.sreq = some (.fill nch ns) → s.pstate = .pull ∧ nch = s.curNch ∧ ns = s.curNs
  answer : s.sresp.isSome = true → s.pstate = .pull ∧ s.sreq = none
  pull : s.pstate = .pull → s.sreq = some (.fill s.curNch s.curNs) ∨ s.sresp.isSome = true

/-- R35, R60, R147: while a block is in progress it fits `BUF`, and the loop index is within it. (Outside `RUN` the model
keeps the index 0: log entry 2.) -/
structure State.BlockFits (s : State) : Prop where
  fits : s.pstate.busy = true → s.curNch.toNat ≤ s.params.maxCh ∧ s.curNs.toNat ≤ s.params.maxBlk
  loop : s.pstate.busy = true → s.curN.toNat ≤ s.curNs.toNat
  start : s.pstate ≠ .run → s.curN = 0#32

/-- The word `(c, n)` of `BUF` has been written (R64). -/
def written (s : State) (c n : Nat) : Prop := (Memory.read s.buf (Memory.addr c n)).isSome = true

/-- R64: once the source has answered, the words it produced are written, and from the silence fill on every word of
the block is. -/
structure State.BlockWritten (s : State) : Prop where
  produced : ∀ k, s.sresp = some k → ∀ c n, c < s.curNch.toNat → n < k.toNat → n < s.curNs.toNat → written s c n
  filled : s.pstate = .snapWait ∨ s.pstate = .snapHold ∨ s.pstate = .run →
    ∀ c n, c < s.curNch.toNat → n < s.curNs.toNat → written s c n

/-- R76: from the moment `HOSTP` has sent a `PROCESS` until it has taken the response, it keeps off `BUF`: it does while
the frame waits and while the block runs, and only while something of a command is outstanding. -/
structure State.HostKeepsOff (s : State) : Prop where
  sent : ∀ f, s.pcmd = some f → isProcessFrame f = true → s.hostPBlock = true
  running : s.pstate.busy = true → s.hostPBlock = true
  outstanding : s.hostPBlock = true → s.pcmd ≠ none ∨ s.presp ≠ none ∨ s.pstate.busy = true

/-- A valid sample rate (R143): positive, finite, and not below `FS_MIN`. -/
def validRate (p : Params) (v : Word) : Prop := isFinite v = true ∧ 0 < units v ∧ units p.fsMin ≤ units v

/-- R31, R44, R143: the stored rate is valid, or it is the reset value `+0.0` and nothing has been prepared. -/
structure State.RateValid (s : State) : Prop where
  stored : s.fs = 0#32 ∨ validRate s.params s.fs
  prepared : s.pstate.prepared = true → validRate s.params s.fs

/-- All of the block's invariants together. -/
structure State.Inv (s : State) : Prop where
  coefs : s.CoefsValid
  lock : s.LockOwned
  fault : s.FaultRecorded
  ports : s.OneOutstanding
  pull : s.PullTracked
  fits : s.BlockFits
  block : s.BlockWritten
  memory : Memory.wf s.buf
  owner : s.HostKeepsOff
  rate : s.RateValid

/-! ### Groups of state, for frames -/

/-- The guarded unit (R28) is the same. -/
structure SameGuarded (s t : State) : Prop where
  coef : t.cfgCoef = s.cfgCoef
  gain : t.cfgGain = s.cfgGain
  bypass : t.cfgBypass = s.cfgBypass

/-- The active copies (R22 to R24) are the same. -/
structure SameActive (s t : State) : Prop where
  coef : ∀ b c, (instanceOf t b c).coef = (instanceOf s b c).coef
  gain : t.actGain = s.actGain
  bypass : t.actBypass = s.actBypass

/-- All FilterState (R21) is the same. -/
def SameHist (s t : State) : Prop := ∀ b c, (instanceOf t b c).hist = (instanceOf s b c).hist

/-- The stream registers (R31, R32) are the same. -/
structure SameStream (s t : State) : Prop where
  fs : t.fs = s.fs
  blk : t.blk = s.blk

/-- The loop registers (R35) are the same. -/
structure SameLoop (s t : State) : Prop where
  nch : t.curNch = s.curNch
  ns : t.curNs = s.curNs
  k : t.curK = s.curK
  n : t.curN = s.curN

/-- The fault registers (R36) are the same. -/
structure SameFault (s t : State) : Prop where
  code : t.faultCode = s.faultCode
  info : t.faultInfo = s.faultInfo

/-- What is the control context's own (R254: `cfg_err`, `cstate`, `clatch`), and its port slots, are the same. -/
structure SameControl (s t : State) : Prop where
  err : t.cfgErr = s.cfgErr
  cstate : t.cstate = s.cstate
  clatch : t.clatch = s.clatch
  ccmd : t.ccmd = s.ccmd
  cresp : t.cresp = s.cresp

/-- Every word of `BUF` reads as before. -/
def SameBuf (s t : State) : Prop := ∀ a, Memory.read t.buf a = Memory.read s.buf a

/-- The outside parties' scripts, answers, signals and observations, the schedule, the parameters and the agent draws are the same. -/
structure SameOutside (s t : State) : Prop where
  hostP : t.hostP = s.hostP
  hostPBlock : t.hostPBlock = s.hostPBlock
  hostPAnswer : t.hostPAnswer = s.hostPAnswer
  hostC : t.hostC = s.hostC
  hostCAnswer : t.hostCAnswer = s.hostCAnswer
  hostCSignals : t.hostCSignals = s.hostCSignals
  source : t.source = s.source
  sched : t.sched = s.sched
  obs : t.obs = s.obs
  params : t.params = s.params
  agentDraws : t.agentDraws = s.agentDraws

/-- The processing context's registers but `pstate` and the slots of its ports (R254): FilterState, active copies,
stream, loop and fault registers, and `BUF`. -/
structure SameProcessingRegs (s t : State) : Prop where
  flt : t.flt = s.flt
  gain : t.actGain = s.actGain
  bypass : t.actBypass = s.actBypass
  stream : SameStream s t
  loop : SameLoop s t
  fault : SameFault s t
  buf : SameBuf s t

/-- Nothing of the processing side changed (R194): its registers, `pstate`, the slots of its port and of the source
port, and the NaN draws. -/
structure SameProcessing (s t : State) : Prop where
  regs : SameProcessingRegs s t
  pstate : t.pstate = s.pstate
  pcmd : t.pcmd = s.pcmd
  presp : t.presp = s.presp
  sreq : t.sreq = s.sreq
  sresp : t.sresp = s.sresp
  nanDraws : t.nanDraws = s.nanDraws

/-! ### The end of a run -/

/-- A run that ended well (R293): over, and no fault was ever signalled. -/
def GoodEnd (s : State) : Bool := runOver s && s.faultCode == 0#4

/-! ### Runs and fairness -/

/-- A run as a sequence of states (R16, R293): each the machine's next state, and where the machine stops, the state it
stops in from then on. -/
def IsRun (run : Nat → State) : Prop :=
  ∀ n, step (run n) = .next (run (n + 1)) ∨ ((∀ t, step (run n) ≠ .next t) ∧ run (n + 1) = run n)

/-- Weak fairness (R74): an agent whose step stays enabled eventually takes a turn. -/
def WeaklyFair (run : Nat → State) : Prop :=
  ∀ a n, (∀ m, n ≤ m → hasStep a (run m) = true) → ∃ m, n ≤ m ∧ nextTurn (run m) = .agent a

/-- R74 asks a model to bound the control side's use of the lock, by an obligation on `HOSTC` or by a fair lock. This
model takes the obligation, and every state meets it: `HOSTC`'s script is a finite list (R293). This is a bound on the
steps the control side can still take, hence on its acquires; no step raises it and each acquire lowers it (log
entry 5). -/
def controlWork (s : State) : Nat :=
  4 * s.hostC.length + (if s.ccmd.isSome then 3 else 0) +
    match s.cstate with
    | .cIdle => 0
    | .cWait => 2
    | .cHold => 1

/-- The source answers every fill (R148, R292): its script holds an answer whenever one is asked for. -/
def SourceAnswers (run : Nat → State) : Prop :=
  ∀ n nch ns, (run n).sreq = some (.fill nch ns) → (run n).source ≠ []

end Sys2Proof.Machine
end

