-- ==== Sys2Proof/Certificates/Slice0/Obligations.lean ====
section
/-! DEFINITION. The statements for the provers. Each says in its docstring which rule of the spec it formalises. -/

open Sys2Proof Sys2Proof.Machine

namespace Sys2Proof.Machine

/-! ### Words the statements use -/

/-- Every value the table of R44 gives: each register of the block at its reset value and every slot empty. -/
structure ResetValues (t : State) : Prop where
  hist : ∀ b c, (instanceOf t b c).hist = { x1 := 0x00000000#32, x2 := 0x00000000#32, y1 := 0x00000000#32, y2 := 0x00000000#32 }
  coef : ∀ b c, (instanceOf t b c).coef =
    { b0 := 0x3F800000#32, b1 := 0x00000000#32, b2 := 0x00000000#32,
      a0 := 0x3F800000#32, a1 := 0x00000000#32, a2 := 0x00000000#32 }
  actGain : ∀ b, t.actGain.get b = 0x3F800000#32
  actBypass : t.actBypass = false
  cfgCoef : ∀ b, t.cfgCoef.get b =
    { b0 := 0x3F800000#32, b1 := 0x00000000#32, b2 := 0x00000000#32,
      a0 := 0x3F800000#32, a1 := 0x00000000#32, a2 := 0x00000000#32 }
  cfgGain : ∀ b, t.cfgGain.get b = 0x3F800000#32
  cfgBypass : t.cfgBypass = false
  lock : t.lock = .free
  fs : t.fs = 0x00000000#32
  blk : t.blk = 0x00000000#32
  pstate : t.pstate = .unprepared
  faultCode : t.faultCode = 0#4
  faultInfo : t.faultInfo = 0x00000000#32
  cfgErr : t.cfgErr = false
  cstate : t.cstate = .cIdle
  slots : t.pcmd = none ∧ t.presp = none ∧ t.ccmd = none ∧ t.cresp = none ∧ t.sreq = none ∧ t.sresp = none
  buf : ∀ a, Memory.read t.buf a = none

/-- The word `r` is `num / den` units of 2^-149 rounded as R111 says: an infinity of its sign when the rounded
magnitude exceeds the largest finite value (half a last-binade step above it and more), else a nearest finite value,
and on a tie between two values the one whose last fraction bit is 0. -/
def RoundsTo (num : Int) (den : Nat) (r : Word) : Prop :=
  ((den : Int) * 2 ^ 253 * (2 * 2 ^ 24) ≤ 2 * |num| + den * 2 ^ 253 →
      isInf r = true ∧ signBit r = decide (num < 0)) ∧
    (2 * |num| + den * 2 ^ 253 < (den : Int) * 2 ^ 253 * (2 * 2 ^ 24) →
      isFinite r = true ∧
        ∀ w : Word, isFinite w = true →
          |num - den * units r| ≤ |num - den * units w| ∧
            (|num - den * units r| = |num - den * units w| → units w = units r ∨ r.getLsbD 0 = false))

/-- The element `d` places before place `n` of a list, 0 before its start: the signals x[n-d], y[n-d] of R120. -/
def delayed {K : Type} [Zero K] (l : List K) (n d : Nat) : K := if d ≤ n then l.getD (n - d) 0 else 0

/-- The gains of a set at zero frequency and at the Nyquist frequency (R120). -/
def dcGain {K : Type} [Field K] (k : Coefs K) : K := (k.b0 + k.b1 + k.b2) / (k.a0 + k.a1 + k.a2)
def nyquistGain {K : Type} [Field K] (k : Coefs K) : K := (k.b0 - k.b1 + k.b2) / (k.a0 - k.a1 + k.a2)

/-- The host's mathematics over the reals, with the rounding, the frequency bounds and the bound for a NaN Q left
open. -/
noncomputable def realMath (roundT : ℝ → Word) (freq : FrequencyBounds ℝ) (nanQIsMax : Bool) : HostMath ℝ :=
  { pi := Real.pi, cos := Real.cos, sin := Real.sin, pow10 := fun v => (10 : ℝ) ^ v, roundT := roundT, freq := freq,
    nanQIsMax := nanQIsMax }

/-- The next action of `HOSTP`'s script is an access to `BUF`, and `HOSTP` may make it (R61, R76). -/
def HostAccessGoes (s : State) : Prop :=
  ((∃ c n v rest, s.hostP = .write c n v :: rest) ∨ ∃ c n rest, s.hostP = .read c n :: rest) ∧
    s.pstate.accepting = true ∧ s.hostPBlock = false

end Sys2Proof.Machine

/-! ### Reset, decoding and the step -/

/-- R44, R270: the reset state, and hardware reset from any state whatever was in progress, give every listed value. -/
def Obligations.HardwareResetPutsEveryRegister : Prop :=
  ResetValues State.reset ∧
    ∀ s : State, nextTurn s = .hardwareReset → ∃ t, step s = .next t ∧ ResetValues t

/-- R161, R181, R93: when the frame in an executor's slot decodes to a command and the executor can accept it, the
executor's turn is `exec` of that command on the state with the turn used up. The premise that a request still in
`sreq` is one the source can take fails only in states that do not meet `Inv` (a fill is there only in `PULL`). That the
turn of a command which awaits `sreq` passes is log entry 9. -/
def Obligations.TurnRunsTheDecodedCommand : Prop :=
  ∀ (s : State) (f : Frame) (i : Instr),
    (nextTurn s = .agent .proc → s.pcmd = some f → s.pstate.accepting = true → decode .processing f = .ok i →
        s.sreq = none ∨ hasStep .src s = true → step s = exec i (useTurn s)) ∧
      (nextTurn s = .agent .ctrlx → s.ccmd = some f → s.cstate = .cIdle → decode .control f = .ok i →
        step s = exec i (useTurn s))

/-- R87, R88: an illegal frame on the processing port is fault 3 with its header, on the control port it is refused;
nothing else changes. -/
def Obligations.IllegalFramesFaultOrAreRefused : Prop :=
  ∀ (s : State) (f : Frame),
    (nextTurn s = .agent .proc → s.pcmd = some f → s.pstate = .unprepared ∨ s.pstate = .idle →
        f.wellFormed .processing = false →
        step s = .next { useTurn s with
          pcmd := none, faultCode := 3#4, faultInfo := f.header, pstate := .fault, presp := some 0x00000302#32 }) ∧
      (nextTurn s = .agent .ctrlx → s.ccmd = some f → s.cstate = .cIdle → f.wellFormed .control = false →
        step s = .next { useTurn s with
          ccmd := none, cfgErr := true, cresp := some { word := 0x00000001#32, data := none } })

/-- R90, R93 against R85 to R88: the decoder accepts exactly the frames the mask table and the conditions of R87 and
R88 allow. -/
def Obligations.DecoderAcceptsExactlyTheWellFormedFrames : Prop :=
  ∀ (p : Port) (f : Frame), (∃ i, decode p f = .ok i) ↔ f.wellFormed p = true

/-- R85: the header of a decoded frame selects the table row of its opcode and no other row. -/
def Obligations.DecodedHeaderSelectsOnlyItsRow : Prop :=
  ∀ (p : Port) (f : Frame) (i : Instr), decode p f = .ok i →
    ∀ r ∈ opcodeRows, (r.selects f.header = true ↔ r.op = i.op)

/-- R84, R85, R93: decoding a command's frame gives the command back, for every command and every operand. -/
def Obligations.DecodeOfEncodeIsTheCommand : Prop :=
  ∀ i : Instr, decode i.op.port (encode i) = .ok i

/-- R85, R86, R93: a frame that decodes is the frame of its command, and arrived on the command's port. -/
def Obligations.DecodedFrameIsTheEncoding : Prop :=
  ∀ (p : Port) (f : Frame) (i : Instr), decode p f = .ok i → f = encode i ∧ p = i.op.port

/-- R85, R93: words written out from the spec's own encodings decode to the commands they stand for, one of each
opcode. A sanity check on fixed values. -/
def Obligations.WrittenOutWordsDecode : Prop :=
  decode .processing { header := 0x00000001#32, operands := [0x00000004#32, 0x472C4400#32] } =
      .ok (.prepare 0x00000004#32 0x472C4400#32) ∧
    decode .processing { header := 0x00000002#32, operands := [] } = .ok .release ∧
    decode .processing { header := 0x00000003#32, operands := [1#32, 4#32] } = .ok (.process 1#32 4#32) ∧
    decode .processing { header := 0x00000004#32, operands := [] } = .ok .flush ∧
    decode .control { header := 0x00000110#32, operands := [1#32, 2#32, 3#32, 4#32, 5#32, 6#32] } =
      .ok (.wrCoef .mid { b0 := 1#32, b1 := 2#32, b2 := 3#32, a0 := 4#32, a1 := 5#32, a2 := 6#32 }) ∧
    decode .control { header := 0x00000211#32, operands := [0x3F000000#32] } = .ok (.wrGain .high 0x3F000000#32) ∧
    decode .control { header := 0x00000412#32, operands := [] } = .ok (.wrEnable true) ∧
    decode .control { header := 0x00250013#32, operands := [] } = .ok (.rdReg 0x25#8)

/-! ### Numerics -/

/-- R111: `fadd` is the exact sum rounded to nearest even, with its infinities, NaNs and zeros. -/
def Obligations.FaddRoundsTheExactSum : Prop :=
  ∀ (d : Nat) (a b : Word),
    (isNaN a = true ∨ isNaN b = true ∨ (isInf a = true ∧ isInf b = true ∧ signBit a ≠ signBit b) →
        isNaN (binary32.fadd d a b) = true) ∧
      (isInf a = true → (isFinite b = true ∨ (isInf b = true ∧ signBit b = signBit a)) → binary32.fadd d a b = a) ∧
      (isInf b = true → isFinite a = true → binary32.fadd d a b = b) ∧
      (isFinite a = true → isFinite b = true →
        (units a + units b = 0 →
            binary32.fadd d a b = if a = 0x80000000#32 ∧ b = 0x80000000#32 then 0x80000000#32 else 0x00000000#32) ∧
          (units a + units b ≠ 0 → RoundsTo (units a + units b) 1 (binary32.fadd d a b)))

/-- R112: `fsub` is `fadd` of the second operand with its sign bit flipped, with the zeros and the NaN it names. -/
def Obligations.FsubAddsTheNegation : Prop :=
  (∀ (d : Nat) (a b : Word), binary32.fsub d a b = binary32.fadd d a (b ^^^ 0x80000000#32)) ∧
    ∀ d : Nat,
      binary32.fsub d 0x00000000#32 0x00000000#32 = 0x00000000#32 ∧
        binary32.fsub d 0x80000000#32 0x00000000#32 = 0x80000000#32 ∧
        isNaN (binary32.fsub d 0x7F800000#32 0x7F800000#32) = true ∧
        isNaN (binary32.fsub d 0xFF800000#32 0xFF800000#32) = true

/-- R113: `fmul` is the exact product rounded as in R111, its sign the exclusive-or, with its NaNs and infinities; it
is commutative in value. That it is so for a NaN result too, at one draw number, is the model's choice (the draw number
alone fixes the NaN: log entry 4). A product of two finite values is `units a * units b` units of 2^-298. -/
def Obligations.FmulRoundsTheExactProduct : Prop :=
  ∀ (d : Nat) (a b : Word),
    (isNaN a = true ∨ isNaN b = true ∨ (isZero a = true ∧ isInf b = true) ∨ (isInf a = true ∧ isZero b = true) →
        isNaN (binary32.fmul d a b) = true) ∧
      (isNaN a = false → isNaN b = false → ¬ (isZero a = true ∧ isInf b = true) →
        ¬ (isInf a = true ∧ isZero b = true) →
          signBit (binary32.fmul d a b) = (signBit a ^^ signBit b) ∧
            (isInf a = true ∨ isInf b = true → isInf (binary32.fmul d a b) = true) ∧
            (isFinite a = true → isFinite b = true →
              RoundsTo (units a * units b) (2 ^ 149) (binary32.fmul d a b))) ∧
      (binary32.fmul d a b = binary32.fmul d b a)

/-- R114: `fdiv` is the exact quotient rounded as in R111 for a finite dividend and a finite divisor not zero, with the
zero divisors, the NaNs and the infinite divisors the rule lists. The sign of a quotient that is not zero is carried by
the numerator of `RoundsTo`; of the sign of a zero quotient of two finite operands, which R114 does not state, the last
clause claims nothing (log entry 18). -/
def Obligations.FdivRoundsTheExactQuotient : Prop :=
  ∀ (d : Nat) (a b : Word),
    (isNaN a = true ∨ isNaN b = true ∨ (isZero a = true ∧ isZero b = true) ∨ (isInf a = true ∧ isInf b = true) →
        isNaN (binary32.fdiv d a b) = true) ∧
      (isFinite a = true → isZero a = false → isZero b = true →
        isInf (binary32.fdiv d a b) = true ∧ signBit (binary32.fdiv d a b) = (signBit a ^^ signBit b)) ∧
      (isFinite a = true → isInf b = true →
        isZero (binary32.fdiv d a b) = true ∧ signBit (binary32.fdiv d a b) = (signBit a ^^ signBit b)) ∧
      (isFinite a = true → isFinite b = true → isZero b = false →
        RoundsTo ((if signBit b then -1 else 1) * units a * 2 ^ 149) (magnitude b) (binary32.fdiv d a b))

/-! ### The biquad instance -/

/-- R116, R118: `BQ.STEP` computes its ten operations in the order written, shifts the history simultaneously, and
touches nothing else of the block. Which number of the NaN draws an operation uses, and that the counter of draws
advances by ten, is the model's choice (log entry 4). -/
def Obligations.BqStepComputesAndShifts : Prop :=
  ∀ (b : Band) (c : Chan) (x : Word) (s : State),
    let k := (instanceOf s b c).coef
    let h := (instanceOf s b c).hist
    let d := s.nanDraws
    let p0 := binary32.fmul d k.b0 x
    let p1 := binary32.fmul (d + 1) k.b1 h.x1
    let p2 := binary32.fmul (d + 2) k.b2 h.x2
    let p3 := binary32.fmul (d + 3) k.a1 h.y1
    let p4 := binary32.fmul (d + 4) k.a2 h.y2
    let s1 := binary32.fadd (d + 5) p0 p1
    let s2 := binary32.fadd (d + 6) s1 p2
    let s3 := binary32.fsub (d + 7) s2 p3
    let s4 := binary32.fsub (d + 8) s3 p4
    let out := binary32.fdiv (d + 9) s4 k.a0
    ∃ F, bqStep b c x s = (out, { s with flt := F, nanDraws := d + 10 }) ∧
      ∀ b' c', (F.get b').get c' =
        if b' = b ∧ c' = c then { coef := k, hist := { x1 := x, x2 := h.x1, y1 := out, y2 := h.y1 } }
        else instanceOf s b' c'

/-- R117, R120: over exact arithmetic an instance fed from a cleared history satisfies the difference equation at
every sample. -/
def Obligations.ExactInstanceSatisfiesTheDifferenceEquation : Prop :=
  ∀ (K : Type) [Field K] (k : Coefs K) (d : Nat) (xs : List K), k.a0 ≠ 0 →
    let ys := (biquadRun (exactNum K) k d { x1 := 0, x2 := 0, y1 := 0, y2 := 0 } xs).1
    ys.length = xs.length ∧
      ∀ n, n < xs.length →
        k.a0 * delayed ys n 0 =
          k.b0 * delayed xs n 0 + k.b1 * delayed xs n 1 + k.b2 * delayed xs n 2
            - k.a1 * delayed ys n 1 - k.a2 * delayed ys n 2

/-- R119 (first case), for every finite history: with the identity set a finite non-zero sample comes out bit for
bit. -/
def Obligations.IdentitySetPassesFiniteSamplesThrough : Prop :=
  ∀ (d : Nat) (h : Hist Word) (x : Word),
    isFinite h.x1 = true → isFinite h.x2 = true → isFinite h.y1 = true → isFinite h.y2 = true →
      isFinite x = true → isZero x = false →
        biquadOut binary32 d
          { b0 := 0x3F800000#32, b1 := 0#32, b2 := 0#32, a0 := 0x3F800000#32, a1 := 0#32, a2 := 0#32 } h x = x

/-- R119, R283: once a NaN goes in, every output of the instance from then on is a NaN, whatever the coefficients. -/
def Obligations.NaNInputPoisonsEveryLaterOutput : Prop :=
  ∀ (k : Coefs Word) (d : Nat) (h : Hist Word) (x : Word) (xs : List Word), isNaN x = true →
    ∀ y ∈ (biquadRun binary32 k d h (x :: xs)).1, isNaN y = true

/-- R121, R123, R124: retune replaces the six coefficients and keeps the history; clear zeroes the history and keeps
the coefficients, and doing it twice is doing it once. -/
def Obligations.RetuneKeepsHistoryAndClearIsIdempotent : Prop :=
  ∀ (k : Coefs Word) (q : Biquad Word),
    bqRetune k q = { coef := k, hist := q.hist } ∧
      bqClear q = { coef := q.coef, hist := { x1 := 0#32, x2 := 0#32, y1 := 0#32, y2 := 0#32 } } ∧
      bqClear (bqClear q) = bqClear q

/-! ### Processing-port commands -/

/-- R141, R142: `PREPARE` in `UNPREPARED` or `IDLE`: fault 2 and nothing else when `blk > MAXBLK`; else, once `sreq` is
empty, the clamped rate and `blk` stored, all FilterState cleared, the source told, `IDLE`, `DONE`; nothing else
changes. While `sreq` is full `PROC` has no step (R15, R161); that the frame then waits in its slot and `exec` answers the
state unchanged is the model's choice (log entries 9 and 11). -/
def Obligations.PrepareStoresClearsAndTellsTheSource : Prop :=
  ∀ (blk fsIn : Word) (s : State), s.pstate = .unprepared ∨ s.pstate = .idle →
    (s.params.maxBlk < blk.toNat →
        exec (.prepare blk fsIn) s = .next { s with
          pcmd := none, faultCode := 2#4, faultInfo := 0x00000001#32, pstate := .fault,
          presp := some 0x00000202#32 }) ∧
      (blk.toNat ≤ s.params.maxBlk → s.sreq = none →
        ∃ F, exec (.prepare blk fsIn) s = .next { s with
            flt := F
            pcmd := none
            fs := clampFs fsIn s.params.fsMin
            blk := blk
            sreq := some (.prepare blk (clampFs fsIn s.params.fsMin))
            pstate := .idle
            presp := some 0x00000000#32 } ∧
          ∀ b c, (F.get b).get c =
            { coef := (instanceOf s b c).coef, hist := { x1 := 0#32, x2 := 0#32, y1 := 0#32, y2 := 0#32 } }) ∧
      (blk.toNat ≤ s.params.maxBlk → s.sreq ≠ none →
        exec (.prepare blk fsIn) s = .next s ∧
          (s.pcmd = some (encode (.prepare blk fsIn)) → hasStep .proc s = false))

/-- R143: the clamp of a sample rate, case by case. -/
def Obligations.SampleRateIsClampedToTheNearestValid : Prop :=
  ∀ (p : Params) (v : Word),
    (isNaN v = true → clampFs v p.fsMin = p.fsMin) ∧
      (v = 0xFF800000#32 → clampFs v p.fsMin = p.fsMin) ∧
      (isFinite v = true → units v < units p.fsMin → clampFs v p.fsMin = p.fsMin) ∧
      (v = 0x7F800000#32 → clampFs v p.fsMin = 0x7F7FFFFF#32) ∧
      (isFinite v = true → units p.fsMin ≤ units v → clampFs v p.fsMin = v)

/-- R9, R143: whatever rate is given, the clamped rate is finite, at least `FS_MIN`, and positive. (That the stored rate is
then valid from the first `PREPARE` on is part of `EveryStepKeepsTheInvariants`.) -/
def Obligations.ClampedRateIsAlwaysValid : Prop :=
  ∀ (p : Params) (v : Word),
    isFinite (clampFs v p.fsMin) = true ∧ units p.fsMin ≤ units (clampFs v p.fsMin) ∧ 0 < units (clampFs v p.fsMin)

/-- R145: `RELEASE` answers `DONE` and does nothing in `UNPREPARED`; in `IDLE`, once `sreq` is empty, the source is told
and the stage is unprepared; nothing else changes. While `sreq` is full `PROC` has no step (R15, R161); that the frame then
waits in its slot and `exec` answers the state unchanged is the model's choice (log entries 9 and 11). -/
def Obligations.ReleaseTellsTheSourceAndUnprepares : Prop :=
  ∀ s : State,
    (s.pstate = .unprepared →
        exec .release s = .next { s with pcmd := none, presp := some 0x00000000#32 }) ∧
      (s.pstate = .idle → s.sreq = none →
        exec .release s = .next { s with
          pcmd := none, sreq := some .release, pstate := .unprepared, presp := some 0x00000000#32 }) ∧
      (s.pstate = .idle → s.sreq ≠ none →
        exec .release s = .next s ∧ (s.pcmd = some (encode .release) → hasStep .proc s = false))

/-- R158: `FLUSH` in `UNPREPARED` or `IDLE` clears the 24 FilterState registers, answers `DONE`, and changes nothing
else. -/
def Obligations.FlushClearsAllHistoryAndNothingElse : Prop :=
  ∀ s : State, s.pstate = .unprepared ∨ s.pstate = .idle →
    ∃ F, exec .flush s = .next { s with flt := F, pcmd := none, presp := some 0x00000000#32 } ∧
      ∀ b c, (F.get b).get c =
        { coef := (instanceOf s b c).coef, hist := { x1 := 0#32, x2 := 0#32, y1 := 0#32, y2 := 0#32 } }

/-- R147: the admission step of `PROCESS`: fault 1 in `UNPREPARED` before the operands are looked at, fault 2 for a
block that does not fit, else, once `sreq` is empty, the fill request and `PULL`; nothing else changes. While `sreq` is full
`PROC` has no step (R15, R161); that the frame then waits in its slot and `exec` answers the state unchanged is the
model's choice (log entries 9 and 11), and so is that `cur_k` and `cur_n` keep the values they had (log entry 2). -/
def Obligations.ProcessIsAdmittedOrFaults : Prop :=
  ∀ (nch ns : Word) (s : State),
    (s.pstate = .unprepared →
        exec (.process nch ns) s = .next { s with
          pcmd := none, faultCode := 1#4, faultInfo := 0x00000003#32, pstate := .fault,
          presp := some 0x00000102#32 }) ∧
      (s.pstate = .idle → s.params.maxCh < nch.toNat ∨ s.params.maxBlk < ns.toNat →
        exec (.process nch ns) s = .next { s with
          pcmd := none, faultCode := 2#4, faultInfo := 0x00000003#32, pstate := .fault,
          presp := some 0x00000202#32 }) ∧
      (s.pstate = .idle → nch.toNat ≤ s.params.maxCh → ns.toNat ≤ s.params.maxBlk → s.sreq = none →
        exec (.process nch ns) s = .next { s with
          pcmd := none, curNch := nch, curNs := ns, sreq := some (.fill nch ns), pstate := .pull }) ∧
      (s.pstate = .idle → nch.toNat ≤ s.params.maxCh → ns.toNat ≤ s.params.maxBlk → s.sreq ≠ none →
        exec (.process nch ns) s = .next s ∧
          (s.pcmd = some (encode (.process nch ns)) → hasStep .proc s = false))

/-- R149, R150: the pull answer `k`: fault 4 when the source claims more than was asked; else `+0.0` in every word of
the block from index `k` on, in all rows, every other word of `BUF` as before, and `SNAP_WAIT`. The block of the
premise fits `BUF`, as `BlockFits` says of every state a run reaches. That the loop registers keep their last values in
`FAULT`, and `cur_n` its value in `SNAP_WAIT`, is the model's choice (log entry 2). -/
def Obligations.PullAnswerFillsTheShortfallWithSilence : Prop :=
  ∀ (s : State) (k : Word), s.pstate = .pull → s.sresp = some k →
    (s.curNs.toNat < k.toNat →
        procStep s = .next { s with
          sresp := none, faultCode := 4#4, faultInfo := 0x00000003#32, pstate := .fault,
          presp := some 0x00000402#32 }) ∧
      (k.toNat ≤ s.curNs.toNat → s.curNch.toNat ≤ s.params.maxCh → s.curNs.toNat ≤ s.params.maxBlk →
        ∃ M, procStep s = .next { s with sresp := none, curK := k, buf := M, pstate := .snapWait } ∧
          ∀ c n, n < 2 ^ 32 →
            Memory.read M (Memory.addr c n) =
              if c < s.curNch.toNat ∧ k.toNat ≤ n ∧ n < s.curNs.toNat then some 0x00000000#32
              else Memory.read s.buf (Memory.addr c n))

/-- R162, R163: the source's answer to a fill writes its samples in the first `min(k, ns)` words of the `nch` rows and no
other word, whatever its count and samples; it reports its count and empties the request. A prepare or a release it takes
by emptying `sreq` and nothing else. That a sample its row does not list is `+0.0`, and the list of the requests it has
taken, in order, are the model's (log entry 6). -/
def Obligations.SourceAnswerWritesOnlyTheRequestedRegion : Prop :=
  (∀ (s : State) (r : SrcReq), s.sreq = some r → (r = .release ∨ ∃ blk fs, r = .prepare blk fs) →
    hasStep .src s = true ∧
      srcStep s = .next { s with sreq := none, obs := { s.obs with sreqs := s.obs.sreqs ++ [r] } }) ∧
  ∀ (s : State) (nch ns : Word) (a : SrcAnswer) (rest : List SrcAnswer),
    s.sreq = some (.fill nch ns) → s.source = a :: rest →
      nch.toNat ≤ s.params.maxCh → ns.toNat ≤ s.params.maxBlk →
      ∃ M, srcStep s = .next { s with
          source := rest, sreq := none, sresp := some a.count, buf := M,
          obs := { s.obs with sreqs := s.obs.sreqs ++ [.fill nch ns] } } ∧
        ∀ c n, n < 2 ^ 32 →
          Memory.read M (Memory.addr c n) =
            if c < nch.toNat ∧ n < a.count.toNat ∧ n < ns.toNat then some (a.sample c n)
            else Memory.read s.buf (Memory.addr c n)

/-- R196: `SNAP` copies the whole guarded unit to the active copies of both channels, keeps all FilterState, releases
the lock, zeroes `cur_n` and enters `RUN`, in one step; nothing else changes. -/
def Obligations.SnapshotCopiesTheWholeGuardedUnit : Prop :=
  ∀ s : State, s.pstate = .snapHold →
    ∃ F, procStep s = .next { s with
        flt := F, actGain := s.cfgGain, actBypass := s.cfgBypass,
        lock := .free, curN := 0#32, pstate := .run } ∧
      ∀ b c, (F.get b).get c = { coef := s.cfgCoef.get b, hist := (instanceOf s b c).hist }

/-- R192, R195: each executor waits for the lock and takes it in one step: with the lock free the acquire step, with
the lock held no step. -/
def Obligations.WaitersTakeTheLockOnlyWhenFree : Prop :=
  ∀ s : State,
    (s.cstate = .cWait →
        (s.lock = .free → ctrlxStep s = .next { s with lock := .ctrl, cstate := .cHold }) ∧
          (s.lock ≠ .free → hasStep .ctrlx s = false ∧ ctrlxStep s = .next s)) ∧
      (s.pstate = .snapWait →
        (s.lock = .free → procStep s = .next { s with lock := .proc, pstate := .snapHold }) ∧
          (s.lock ≠ .free → hasStep .proc s = false ∧ procStep s = .next s))

/-- R152, R67: the sample-frame step: each filtered channel's word goes through LOW, MID and HIGH in series, each with
its gain after it, and back to its place; those instances shift their histories; the other channel's instances, the
coefficients and every other word of `BUF` stay, and `cur_n` advances. That operation `i` of a channel uses draw `d + i`, 33 draws a
channel, is the model's choice (log entry 4). -/
def Obligations.SampleFrameRunsTheBandsInSeries : Prop :=
  ∀ (s : State) (word : Chan → Word),
    s.pstate = .run → s.actBypass = false → s.curN.toNat < s.curNs.toNat →
    (∀ c, chanRow c < s.curNch.toNat → bufRead (chanRow c) s.curN.toNat s = .ok (word c)) →
    ∃ F D M, procStep s = .next { s with flt := F, nanDraws := D, buf := M, curN := s.curN + 1#32 } ∧
      (∀ c, ¬ chanRow c < s.curNch.toNat → ∀ b, (F.get b).get c = instanceOf s b c) ∧
      (∀ a, (∀ c, chanRow c < s.curNch.toNat → a ≠ Memory.addr (chanRow c) s.curN.toNat) →
        Memory.read M a = Memory.read s.buf a) ∧
      ∀ c, chanRow c < s.curNch.toNat →
        let d := s.nanDraws + 33 * chanRow c
        let q0 := instanceOf s .low c
        let q1 := instanceOf s .mid c
        let q2 := instanceOf s .high c
        let y0 := biquadOut binary32 d q0.coef q0.hist (word c)
        let g0 := binary32.fmul (d + 10) (s.actGain.get .low) y0
        let y1 := biquadOut binary32 (d + 11) q1.coef q1.hist g0
        let g1 := binary32.fmul (d + 21) (s.actGain.get .mid) y1
        let y2 := biquadOut binary32 (d + 22) q2.coef q2.hist g1
        let g2 := binary32.fmul (d + 32) (s.actGain.get .high) y2
        Memory.read M (Memory.addr (chanRow c) s.curN.toNat) = some g2 ∧
          (F.get .low).get c = { q0 with hist := shiftHist q0.hist (word c) y0 } ∧
          (F.get .mid).get c = { q1 with hist := shiftHist q1.hist g0 y1 } ∧
          (F.get .high).get c = { q2 with hist := shiftHist q2.hist g1 y2 }

/-- R153, R155: in `RUN` a bypassed block, and a block whose samples are all done, goes straight to completion: `IDLE`
and `DONE`, no word of `BUF` and no register of a filter touched. That `cur_n` becomes 0 and the other loop registers keep
their last values in `IDLE` is the model's choice (log entry 2). -/
def Obligations.CompletionTouchesNothingElse : Prop :=
  ∀ s : State, s.pstate = .run → s.actBypass = true ∨ s.curN = s.curNs →
    procStep s = .next { s with pstate := .idle, curN := 0#32, presp := some 0x00000000#32 }

/-- R155, R156, R290: an admissible `PROCESS` of an unbypassed block completes: given its turns, the source's answer and a free
lock, it ends after exactly `5 + ns` steps of `PROC` and one of the source, being busy after every turn before the last, all
its frames done after the last but one, in `IDLE` with `DONE`, the snapshot taken, and no fault signalled. The turns and the answer are given as data (log entries 5 and 6); that `cur_n` is 0 in `IDLE` is
the model's choice (log entry 2). -/
def Obligations.FilteredBlockCompletesInItsSteps : Prop :=
  ∀ (s : State) (nch ns : Word) (a : SrcAnswer) (rest : List SrcAnswer) (later : List Turn),
    s.pstate = .idle → s.pcmd = some (encode (.process nch ns)) → s.sreq = none → s.lock = .free →
    nch.toNat ≤ s.params.maxCh → ns.toNat ≤ s.params.maxBlk →
    s.source = a :: rest → a.count.toNat ≤ ns.toNat → s.cfgBypass = false →
    s.sched = .agent .proc :: .agent .src :: (List.replicate (4 + ns.toNat) (.agent .proc) ++ later) →
    (∀ m, 0 < m → m < 6 + ns.toNat → ∃ u, core.run m s = .next u ∧ u.pstate.busy = true) ∧
    (∃ u, core.run (5 + ns.toNat) s = .next u ∧ u.pstate = .run ∧ u.curN = ns) ∧
    ∃ t, core.run (6 + ns.toNat) s = .next t ∧
      t.pstate = .idle ∧ t.presp = some 0x00000000#32 ∧ t.lock = .free ∧ t.sched = later ∧
      t.curN = 0#32 ∧ t.faultCode = s.faultCode ∧ t.actGain = s.cfgGain ∧ t.actBypass = s.cfgBypass ∧
      (∀ b c, (instanceOf t b c).coef = s.cfgCoef.get b) ∧ SameGuarded s t

/-- R150, R153: a bypassed block passes the source's samples through bit for bit, followed by silence, in 5 steps of
`PROC` and one of the source, none of them a sample frame; every FilterState register keeps its value, whatever the gains
and coefficients, and the snapshot is still taken. The turns and the answer, with its samples `SrcAnswer.sample`, are given
as data (log entries 5 and 6). -/
def Obligations.BypassedBlockPassesTheSourceThrough : Prop :=
  ∀ (s : State) (nch ns : Word) (a : SrcAnswer) (rest : List SrcAnswer) (later : List Turn),
    s.pstate = .idle → s.pcmd = some (encode (.process nch ns)) → s.sreq = none → s.lock = .free →
    nch.toNat ≤ s.params.maxCh → ns.toNat ≤ s.params.maxBlk →
    s.source = a :: rest → a.count.toNat ≤ ns.toNat → s.cfgBypass = true →
    s.sched = [.agent .proc, .agent .src, .agent .proc, .agent .proc, .agent .proc, .agent .proc] ++ later →
    ∃ t, core.run 6 s = .next t ∧
      t.pstate = .idle ∧ t.presp = some 0x00000000#32 ∧ SameHist s t ∧
      t.actGain = s.cfgGain ∧ t.actBypass = true ∧ (∀ b c, (instanceOf t b c).coef = s.cfgCoef.get b) ∧
      ∀ c n, n < 2 ^ 32 →
        Memory.read t.buf (Memory.addr c n) =
          if c < nch.toNat ∧ n < a.count.toNat then some (a.sample c n)
          else if c < nch.toNat ∧ n < ns.toNat then some 0x00000000#32
          else Memory.read s.buf (Memory.addr c n)

/-! ### Control-port commands -/

/-- R182, R183, R184, R192, R193: a valid `WR_COEF` is accepted whoever holds the lock: latched, and `CTRLX` waits; with the
lock free it acquires it; its write step replaces the pending set of its band, all six at once, and nothing else,
releases the lock and answers `OK`. An invalid one is refused. That `clatch` keeps the command afterwards is the model's
choice (log entry 2). -/
def Obligations.WrCoefReplacesThePendingSet : Prop :=
  ∀ (band : Band) (k : Coefs Word) (s : State),
    (s.cstate = .cIdle →
        (isFinite k.b0 && isFinite k.b1 && isFinite k.b2 && isFinite k.a0 && isFinite k.a1 && isFinite k.a2) = true →
        k.a0 ≠ 0x00000000#32 → k.a0 ≠ 0x80000000#32 →
        exec (.wrCoef band k) s = .next { s with ccmd := none, clatch := .wrCoef band k, cstate := .cWait }) ∧
      (s.cstate = .cWait → s.clatch = .wrCoef band k → s.lock = .free →
        ctrlxStep s = .next { s with lock := .ctrl, cstate := .cHold }) ∧
      (s.cstate = .cHold → s.clatch = .wrCoef band k →
        ctrlxStep s = .next { s with
          cfgCoef := s.cfgCoef.set band k, lock := .free, cstate := .cIdle,
          cresp := some { word := 0x00000000#32, data := none } }) ∧
      (s.cstate = .cIdle →
        (isFinite k.b0 && isFinite k.b1 && isFinite k.b2 && isFinite k.a0 && isFinite k.a1 && isFinite k.a2) = false ∨
          k.a0 = 0x00000000#32 ∨ k.a0 = 0x80000000#32 →
        exec (.wrCoef band k) s = .next { s with
          ccmd := none, cfgErr := true, cresp := some { word := 0x00000001#32, data := none } })

/-- R182, R186, R192, R193: a finite `WR_GAIN` is accepted whoever holds the lock; with the lock free `CTRLX` acquires it; its
write step replaces the pending gain of its band and nothing else, releases the lock and answers `OK`. A NaN or an
infinity is refused. That `clatch` keeps the command afterwards is the model's choice (log entry 2). -/
def Obligations.WrGainReplacesThePendingGain : Prop :=
  ∀ (band : Band) (g : Word) (s : State),
    (s.cstate = .cIdle → isFinite g = true →
        exec (.wrGain band g) s = .next { s with ccmd := none, clatch := .wrGain band g, cstate := .cWait }) ∧
      (s.cstate = .cWait → s.clatch = .wrGain band g → s.lock = .free →
        ctrlxStep s = .next { s with lock := .ctrl, cstate := .cHold }) ∧
      (s.cstate = .cHold → s.clatch = .wrGain band g →
        ctrlxStep s = .next { s with
          cfgGain := s.cfgGain.set band g, lock := .free, cstate := .cIdle,
          cresp := some { word := 0x00000000#32, data := none } }) ∧
      (s.cstate = .cIdle → isNaN g = true ∨ isInf g = true →
        exec (.wrGain band g) s = .next { s with
          ccmd := none, cfgErr := true, cresp := some { word := 0x00000001#32, data := none } })

/-- R182, R187, R192, R193: `WR_ENABLE` is always accepted, whoever holds the lock; with the lock free `CTRLX` acquires it; its
write step sets the pending bypass bit to the negation of `en` and nothing else, releases the lock and answers `OK`. That
`clatch` keeps the command afterwards is the model's choice (log entry 2). -/
def Obligations.WrEnableSetsThePendingBypass : Prop :=
  ∀ (en : Bool) (s : State),
    (s.cstate = .cIdle →
        exec (.wrEnable en) s = .next { s with ccmd := none, clatch := .wrEnable en, cstate := .cWait }) ∧
      (s.cstate = .cWait → s.clatch = .wrEnable en → s.lock = .free →
        ctrlxStep s = .next { s with lock := .ctrl, cstate := .cHold }) ∧
      (s.cstate = .cHold → s.clatch = .wrEnable en →
        ctrlxStep s = .next { s with
          cfgBypass := !en, lock := .free, cstate := .cIdle,
          cresp := some { word := 0x00000000#32, data := none } })

/-- R39, R188, R189: `RD_REG` of an index of the register map answers `OK` and the register's word and changes nothing
else, without the lock; of any other index it is refused. -/
def Obligations.RdRegReadsTheRegisterMap : Prop :=
  ∀ (idx : BitVec 8) (s : State), s.cstate = .cIdle →
    let answers (w : Word) : Prop :=
      exec (.rdReg idx) s = .next { s with ccmd := none, cresp := some { word := 0x00000000#32, data := some w } }
    (idx.toNat = 0x00 → answers (statusWord s)) ∧
      (idx.toNat = 0x01 → answers s.fs) ∧
      (idx.toNat = 0x02 → answers s.blk) ∧
      (idx.toNat = 0x03 → answers s.faultInfo) ∧
      (∀ b : Band, idx.toNat = 0x04 + (bandNumber b).toNat → answers (s.cfgGain.get b)) ∧
      (∀ b : Band,
        (idx.toNat = 0x10 + 8 * (bandNumber b).toNat + 0 → answers (s.cfgCoef.get b).b0) ∧
        (idx.toNat = 0x10 + 8 * (bandNumber b).toNat + 1 → answers (s.cfgCoef.get b).b1) ∧
        (idx.toNat = 0x10 + 8 * (bandNumber b).toNat + 2 → answers (s.cfgCoef.get b).b2) ∧
        (idx.toNat = 0x10 + 8 * (bandNumber b).toNat + 3 → answers (s.cfgCoef.get b).a0) ∧
        (idx.toNat = 0x10 + 8 * (bandNumber b).toNat + 4 → answers (s.cfgCoef.get b).a1) ∧
        (idx.toNat = 0x10 + 8 * (bandNumber b).toNat + 5 → answers (s.cfgCoef.get b).a2)) ∧
      (7 ≤ idx.toNat ∧ (idx.toNat < 0x10 ∨ 0x28 ≤ idx.toNat ∨ 6 ≤ idx.toNat % 8) →
        exec (.rdReg idx) s = .next { s with
          ccmd := none, cfgErr := true, cresp := some { word := 0x00000001#32, data := none } })

/-- R38: the layout of `STATUS`, bit by bit, in every state. -/
def Obligations.StatusShowsTheBlock : Prop :=
  ∀ (s : State) (i : Nat), i < 32 →
    (statusWord s).getLsbD i =
      if i = 0 then decide (s.pstate ≠ .unprepared ∧ s.pstate ≠ .fault)
      else if i = 1 then decide (s.pstate = .pull ∨ s.pstate = .snapWait ∨ s.pstate = .snapHold ∨ s.pstate = .run)
      else if i = 2 then decide (s.pstate = .fault)
      else if i = 3 then s.cfgErr
      else if i = 4 then !s.cfgBypass
      else if 8 ≤ i ∧ i ≤ 11 then s.faultCode.getLsbD (i - 8)
      else false

/-! ### Faults -/

/-- R246: in `FAULT` every processing-port frame, legal or not, is answered `FAULT(fault_code)` with no other effect. -/
def Obligations.FaultStateAnswersEveryFrame : Prop :=
  ∀ (s : State) (f : Frame), s.pstate = .fault → s.pcmd = some f →
    procStep s = .next { s with
      pcmd := none, presp := some (0x00000002#32 ||| (s.faultCode.setWidth 32 <<< 8)) }

/-- R247: no step but hardware reset leaves `FAULT` or changes the fault registers, and hardware reset leaves it. -/
def Obligations.OnlyHardwareResetLeavesFault : Prop :=
  ∀ s t : State, s.pstate = .fault → step s = .next t →
    (nextTurn s ≠ .hardwareReset → t.pstate = .fault ∧ SameFault s t) ∧
      (nextTurn s = .hardwareReset → t.pstate = .unprepared ∧ t.faultCode = 0#4 ∧ t.faultInfo = 0#32)

/-- R241, R244, R245: a step of `PROC` that enters `FAULT` does nothing but fault entry and taking the frame or the
answer: its code is 1 to 4, the response carries it, and it is raised in `UNPREPARED`, `IDLE` or `PULL`. That the loop registers keep
their last values in `FAULT` is the model's choice (log entry 2). -/
def Obligations.FaultsArePrecise : Prop :=
  ∀ s t : State, procStep s = .next t → s.pstate ≠ .fault → t.pstate = .fault →
    (s.pstate = .unprepared ∨ s.pstate = .idle ∨ s.pstate = .pull) ∧
      ∃ code info, (code = 1#4 ∨ code = 2#4 ∨ code = 3#4 ∨ code = 4#4) ∧
        t = { s with
          pcmd := (if s.pstate = .pull then s.pcmd else none)
          sresp := (if s.pstate = .pull then none else s.sresp)
          faultCode := code
          faultInfo := info
          pstate := .fault
          presp := some (0x00000002#32 ||| (code.setWidth 32 <<< 8)) }

/-! ### Who may change what -/

/-- R194: no step of `CTRLX` or `HOSTC` changes anything of the processing side. -/
def Obligations.ControlSideNeverTouchesTheProcessingSide : Prop :=
  ∀ s t : State, ctrlxStep s = .next t ∨ hostcStep s = .next t → SameProcessing s t

/-- R260: no step of an outside agent changes a register of the block: not FilterState, not the active copies, not the
guarded unit, not the lock, not the sequencer, not the fault registers, not the control executor. -/
def Obligations.OutsideAgentsChangeNoRegister : Prop :=
  ∀ s t : State, hostpStep s = .next t ∨ hostcStep s = .next t ∨ srcStep s = .next t →
    t.flt = s.flt ∧ t.actGain = s.actGain ∧ t.actBypass = s.actBypass ∧ SameGuarded s t ∧ t.lock = s.lock ∧
      SameStream s t ∧ t.pstate = s.pstate ∧ SameLoop s t ∧ SameFault s t ∧ t.cfgErr = s.cfgErr ∧
      t.cstate = s.cstate ∧ t.clatch = s.clatch

/-- R160, R164, R181: a host sends the next frame of its script, any frame, only while nothing is outstanding on its
port; it takes a response when there is one; and while its command is outstanding and unanswered it has no step, but for
an access `HOSTP` may make to `BUF` (R61, R165). Where `HOSTP` may make an access and a response waits too, its script's
order says which comes first, and the waits of the two scripts, for a `DONE`, an `OK` or a signal (R225), hold back what
follows them: the model's choice (log entries 6 and 10). -/
def Obligations.HostsSendOneCommandAtATime : Prop :=
  ∀ s : State,
    (∀ f rest, s.hostP = .send f :: rest → s.pcmd = none → s.presp = none →
        s.pstate = .unprepared ∨ s.pstate = .idle ∨ s.pstate = .fault →
        hostpStep s = .next { s with
          hostP := rest, pcmd := some f, hostPBlock := isProcessFrame f, hostPAnswer := none }) ∧
      (∀ w, s.presp = some w → hasStep .hostp s = true ∧
        (¬ HostAccessGoes s →
          hostpStep s = .next { s with
            presp := none, hostPBlock := false, hostPAnswer := some w,
            obs := { s.obs with presps := s.obs.presps ++ [w] } })) ∧
      (s.presp = none → s.pcmd ≠ none ∨ s.pstate.busy = true → ¬ HostAccessGoes s →
        hasStep .hostp s = false ∧ hostpStep s = .next s) ∧
      (∀ n rest, s.presp = none →
        s.hostP = .awaitDone :: rest ∧ s.hostPAnswer ≠ some 0x00000000#32 ∨
          s.hostP = .awaitSignals n :: rest ∧ s.hostCSignals < n →
        hasStep .hostp s = false ∧ hostpStep s = .next s) ∧
      (∀ f rest, s.hostC = .send f :: rest → s.ccmd = none → s.cresp = none → s.cstate = .cIdle →
        hostcStep s = .next { s with hostC := rest, ccmd := some f, hostCAnswer := none }) ∧
      (∀ r, s.cresp = some r →
        hostcStep s = .next { s with
          cresp := none, hostCAnswer := some r.word, obs := { s.obs with cresps := s.obs.cresps ++ [r] } }) ∧
      (∀ rest, s.cresp = none → s.hostC = .awaitOk :: rest → s.hostCAnswer ≠ some 0x00000000#32 →
        hasStep .hostc s = false ∧ hostcStep s = .next s) ∧
      (s.cresp = none → s.ccmd ≠ none ∨ s.cstate ≠ .cIdle → hasStep .hostc s = false ∧ hostcStep s = .next s) ∧
      ∀ t, step s = .next t → t.hostCSignals ≠ s.hostCSignals →
        nextTurn s = .agent .hostc ∧ t.hostCSignals = s.hostCSignals + 1 ∧ ∃ rest, s.hostC = .signal :: rest

/-- R14, R61, R64, R76, R165: while `HOSTP` owns `BUF`, also with a command other than `PROCESS` outstanding, its write of a
word changes that word and no other, its read of a written word gives that word, and its read of a word that nothing has
written is a fault of its program (R64). That an access outside `BUF`, to which R60 gives no meaning, is one too, and that
both stop the machine, is the model's choice (log entry 8). -/
def Obligations.HostReadsTheWordOrFaults : Prop :=
  ∀ (s : State) (c n : Nat) (rest : List HostPAction),
    s.hostPBlock = false → s.pstate = .unprepared ∨ s.pstate = .idle ∨ s.pstate = .fault →
    (∀ v, s.hostP = .write c n v :: rest → c < s.params.maxCh → n < s.params.maxBlk →
        ∃ M, hostpStep s = .next { s with hostP := rest, buf := M } ∧
          ∀ c' n', n' < 2 ^ 32 →
            Memory.read M (Memory.addr c' n') =
              if c' = c ∧ n' = n then some v else Memory.read s.buf (Memory.addr c' n')) ∧
      (∀ v, s.hostP = .read c n :: rest → c < s.params.maxCh → n < s.params.maxBlk →
        Memory.read s.buf (Memory.addr c n) = some v →
        hostpStep s = .next { s with
          hostP := rest
          obs := { s.obs with reads := s.obs.reads ++ [{ row := c, index := n, value := v }] } }) ∧
      (s.hostP = .read c n :: rest → c < s.params.maxCh → n < s.params.maxBlk →
        Memory.read s.buf (Memory.addr c n) = none → hostpStep s = .fault .bufNeverWritten) ∧
      (∀ v, s.hostP = .write c n v :: rest ∨ s.hostP = .read c n :: rest →
        s.params.maxCh ≤ c ∨ s.params.maxBlk ≤ n → hostpStep s = .fault .bufOutOfRange)

/-- R61, R76, R165: in a state that meets the invariants the only agent whose step changes `BUF`, or reads it for a host, is
its owner of the phase: `HOSTP` while no block is in progress and it is not between sending a `PROCESS` and taking its
response, `SRC` in `PULL`, `PROC` in its step out of `PULL` and in `RUN`. The field `hostPBlock` says that `HOSTP` is
between the two; once true it stays so over every step but `HOSTP`'s taking of a response and hardware reset. That field,
and that a frame counts as a `PROCESS` if it decodes to one, are the model's choice (log entry 10). -/
def Obligations.OnlyTheOwnerTouchesTheBuffer : Prop :=
  (∀ f, isProcessFrame f = true ↔ ∃ nch ns, decode .processing f = .ok (.process nch ns)) ∧
    (∀ (s t : State) (a : Agent), s.Inv → agentStep a s = .next t → ¬ SameBuf s t ∨ t.obs.reads ≠ s.obs.reads →
      (a = .hostp ∧ (s.pstate = .unprepared ∨ s.pstate = .idle ∨ s.pstate = .fault) ∧ s.hostPBlock = false ∧
          ¬ (∃ f nch ns, s.pcmd = some f ∧ decode .processing f = .ok (.process nch ns))) ∨
        (a = .src ∧ s.pstate = .pull) ∨ (a = .proc ∧ (s.pstate = .pull ∨ s.pstate = .run))) ∧
    ∀ s t : State, s.Inv → step s = .next t → s.hostPBlock = true →
      t.hostPBlock = true ∨ nextTurn s = .hardwareReset ∨
        (nextTurn s = .agent .hostp ∧ s.presp ≠ none ∧ t.presp = none)

/-- R22 to R24, R75: no step changes the active coefficients, gains or bypass flag but `SNAP` (the turn of `PROC` in
`SNAP_HOLD`) and hardware reset. -/
def Obligations.OnlySnapChangesTheActiveCopies : Prop :=
  ∀ s t : State, step s = .next t → nextTurn s ≠ .hardwareReset →
    ¬ (nextTurn s = .agent .proc ∧ s.pstate = .snapHold) → SameActive s t

/-- R26 to R28, R70: no step changes the guarded unit but the write step of `CTRLX` (its turn in `C_HOLD`, hence
holding the lock where `LockOwned` holds) and hardware reset. -/
def Obligations.OnlyTheControlWriteChangesTheGuardedUnit : Prop :=
  ∀ s t : State, s.LockOwned → step s = .next t → nextTurn s ≠ .hardwareReset →
    SameGuarded s t ∨ (nextTurn s = .agent .ctrlx ∧ s.cstate = .cHold ∧ s.lock = .ctrl)

/-- R71, R157: while a block runs its samples, what the control side writes to the guarded unit cannot be seen: the
step of `PROC` is the same whatever the guarded unit holds. -/
def Obligations.RunningBlockCannotSeeTheGuardedUnit : Prop :=
  ∀ (s t : State) (coef : PerBand (Coefs Word)) (gain : PerBand Word) (bypass : Bool),
    s.pstate = .run → procStep s = .next t →
      procStep { s with cfgCoef := coef, cfgGain := gain, cfgBypass := bypass } =
        .next { t with cfgCoef := coef, cfgGain := gain, cfgBypass := bypass }

/-! ### Invariants -/

/-- R30: every step keeps all coefficient sets finite with `a0` not zero, and all gains finite. -/
def Obligations.EveryStepKeepsCoefficientsValid : Prop :=
  ∀ s t : State, s.CoefsValid → step s = .next t → t.CoefsValid

/-- R29, R70: every step keeps the lock with the agent that is in its critical section, so that at most one is. -/
def Obligations.EveryStepKeepsTheLockOwned : Prop :=
  ∀ s t : State, s.LockOwned → step s = .next t → t.LockOwned

/-- R30, R36, R41, R60, R64, R70, R76, R143, R149: every step of every agent keeps all the block's invariants together,
among them that the stored rate is valid from the first `PREPARE` on, and that `HOSTP` keeps off `BUF` while its `PROCESS`
waits and while a block runs. (That it does so until it has taken the response is in `OnlyTheOwnerTouchesTheBuffer`.)
That `cur_n` is 0 outside `RUN` is the model's choice (log entry 2), and `hostPBlock` is the model's field (log entry 10). -/
def Obligations.EveryStepKeepsTheInvariants : Prop :=
  ∀ s t : State, s.Inv → step s = .next t → t.Inv

/-- The reset state meets all the invariants. That `cur_n` is 0 there is the model's choice (log entry 2). -/
def Obligations.ResetMeetsTheInvariants : Prop := State.reset.Inv

/-- R64, R242: in a state that meets the invariants `agentStep` of every agent but `HOSTP` answers a next state: `PROC`
never reads a word of `BUF` that nothing has written, and no access is out of range. What stops there is log entry 8's.
(`step` stops also with `runOver` and `stuck`, when no agent has a step: log entry 9.) -/
def Obligations.OnlyTheHostCanReadAnUnwrittenWord : Prop :=
  ∀ (s : State) (a : Agent), s.Inv → a ≠ .hostp → ∃ t, agentStep a s = .next t

/-- R293: when a run is over no agent has a step. -/
def Obligations.NobodyMovesWhenTheRunIsOver : Prop :=
  ∀ s : State, runOver s = true → ∀ a : Agent, hasStep a s = false

/-- R74, R148, R292: in every weakly fair run whose source answers every fill, a block in progress ends. R74's obligation
on `HOSTC` is met by every state, since its script is finite, so the lock cannot be kept from `PROC` for ever. -/
def Obligations.FairRunsEndEveryBlock : Prop :=
  ∀ run : Nat → State, IsRun run → WeaklyFair run → SourceAnswers run → (run 0).Inv →
    ∀ n, (run n).pstate.busy = true → ∃ m, n ≤ m ∧ (run m).pstate.busy = false

/-! ### The host's designer -/

/-- R213, R223, R225: for a rate, frequency and shape in the designer's domain, whatever Q, `a0` is greater than 1; the
clamped frequency is always in that domain; so `a0` is greater than 1 in every set of the host sequence `prepare`,
whatever rate is asked for, which uses the clamped rate of R143. The sequence sends `PREPARE` and awaits its `DONE`, sends
the three sets in the order LOW, MID, HIGH and awaits the `OK` of each, and only then lets the first `PROCESS` follow; that
the two ports are joined by a signal is the model's choice (log entry 6). Where the clamp range is empty the clamp's value is the
model's choice (log entry 17). -/
def Obligations.DesignKeepsA0AboveOne : Prop :=
  (∀ (roundT : ℝ → Word) (fb : FrequencyBounds ℝ) (nanMax : Bool) (shape : FilterShape) (fs f : ℝ) (q : HostNum ℝ),
      0 < fs → 0 < f → f < fs / 2 → 1 < (design (realMath roundT fb nanMax) shape fs f q).a0) ∧
    (∀ (K : Type) [Field K] [LinearOrder K] (m : HostMath K) (fs f : K), 0 < fs →
      0 < clampFrequency m fs f ∧ clampFrequency m fs f < fs / 2 ∧
        (m.freq.lo ≤ f → f ≤ m.freq.hi fs → clampFrequency m fs f = f)) ∧
    ∀ (roundT : ℝ → Word) (fb : FrequencyBounds ℝ) (nanMax : Bool) (p : Params) (h : HostConfig ℝ) (signals : Nat)
        (blk fs : Word) (b : Band),
      let m := realMath roundT fb nanMax
      let h' := (hostPrepare m p h signals blk fs).1
      h' = { h with sampleRate := wordValue (clampFs fs p.fsMin) } ∧
        (hostPrepare m p h signals blk fs).2.1 =
          [.send (encode (.prepare blk fs)), .awaitDone, .awaitSignals (signals + 1)] ∧
        (hostPrepare m p h signals blk fs).2.2 =
          [.send (coefFrame m h' .low), .awaitOk, .send (coefFrame m h' .mid), .awaitOk,
            .send (coefFrame m h' .high), .awaitOk, .signal] ∧
        1 < (designBand m h' b).a0

/-- R216, R217: the low-pass set has gain 1 at zero frequency and 0 at Nyquist, the high-pass set the reverse. -/
def Obligations.LowPassAndHighPassGains : Prop :=
  ∀ (roundT : ℝ → Word) (fb : FrequencyBounds ℝ) (nanMax : Bool) (fs f : ℝ) (q : HostNum ℝ), 0 < fs → 0 < f → f < fs / 2 →
    dcGain (design (realMath roundT fb nanMax) .lowPass fs f q) = 1 ∧
      nyquistGain (design (realMath roundT fb nanMax) .lowPass fs f q) = 0 ∧
      dcGain (design (realMath roundT fb nanMax) .highPass fs f q) = 0 ∧
      nyquistGain (design (realMath roundT fb nanMax) .highPass fs f q) = 1

/-- R218, R219: the band-pass set has gain 0 at zero frequency and Nyquist and 1 at the target frequency, the band-stop
set the reverse. -/
def Obligations.BandPassAndBandStopGains : Prop :=
  ∀ (roundT : ℝ → Word) (fb : FrequencyBounds ℝ) (nanMax : Bool) (fs f : ℝ) (q : HostNum ℝ), 0 < fs → 0 < f → f < fs / 2 →
    let m := realMath roundT fb nanMax
    let z := Complex.exp (Complex.I * (angularFrequency m fs f : ℝ))
    (dcGain (design m .bandPass fs f q) = 0 ∧ nyquistGain (design m .bandPass fs f q) = 0 ∧
        transferFunction (mapCoefs (fun v : ℝ => (v : ℂ)) (design m .bandPass fs f q)) z = 1) ∧
      (dcGain (design m .bandStop fs f q) = 1 ∧ nyquistGain (design m .bandStop fs f q) = 1 ∧
        transferFunction (mapCoefs (fun v : ℝ => (v : ℂ)) (design m .bandStop fs f q)) z = 0)

/-- R220: the all-pass set has gain magnitude 1 at every frequency. -/
def Obligations.AllPassHasUnitMagnitude : Prop :=
  ∀ (roundT : ℝ → Word) (fb : FrequencyBounds ℝ) (nanMax : Bool) (fs f w : ℝ) (q : HostNum ℝ), 0 < fs → 0 < f → f < fs / 2 →
    ‖transferFunction (mapCoefs (fun v : ℝ => (v : ℂ)) (design (realMath roundT fb nanMax) .allPass fs f q))
        (Complex.exp (Complex.I * (w : ℝ)))‖ = 1

/-- R232: the exact sets at a quarter of the sample rate. -/
def Obligations.QuarterRateSets : Prop :=
  ∀ (roundT : ℝ → Word) (fb : FrequencyBounds ℝ) (nanMax : Bool) (fs : ℝ) (q : HostNum ℝ), 0 < fs →
    let m := realMath roundT fb nanMax
    design m .lowPass fs (fs / 4) q = { b0 := 1 / 2, b1 := 1, b2 := 1 / 2, a0 := 2, a1 := 0, a2 := 0 } ∧
      design m .highPass fs (fs / 4) q = { b0 := 1 / 2, b1 := -1, b2 := 1 / 2, a0 := 2, a1 := 0, a2 := 0 } ∧
      design m .bandPass fs (fs / 4) (.num (1 / 2)) = { b0 := 1, b1 := 0, b2 := -1, a0 := 2, a1 := 0, a2 := 0 } ∧
      design m .bandPass fs (fs / 4) (.num 1) =
        { b0 := 1 / 2, b1 := 0, b2 := -(1 / 2), a0 := 3 / 2, a1 := 0, a2 := 1 / 2 } ∧
      design m .bandStop fs (fs / 4) (.num (1 / 2)) = { b0 := 1, b1 := 0, b2 := 1, a0 := 2, a1 := 0, a2 := 0 } ∧
      design m .allPass fs (fs / 4) (.num (1 / 2)) = { b0 := 0, b1 := 0, b2 := 2, a0 := 2, a1 := 0, a2 := 0 } ∧
      design m .bandPass fs (fs / 4) (.num 0) =
        { b0 := 50000, b1 := 0, b2 := -50000, a0 := 50001, a1 := 0, a2 := -49999 } ∧
      design m .bandPass fs (fs / 4) (.num 5000) =
        { b0 := 1 / 2000, b1 := 0, b2 := -(1 / 2000), a0 := 2001 / 2000, a1 := 0, a2 := 1999 / 2000 }

/-- R226, R227: `setBandGain` sends `WR_GAIN` with the linear factor and then a set equal to the one of the host's
configuration before, since `design` takes no gain; `setBandFrequency` sends its own band's set, designed for the clamped
new frequency with the band's shape and Q, and leaves every other band's set as it was. That the recomputed set is always
sent after a gain is the model's choice, since R226 lets the host omit it (log entry 20). That a gain in decibels is sent
as `10^(dB/20)` is R228's general knowledge and decision D6, with the power of ten a parameter of the host (log entry
12). -/
def Obligations.GainChangesDoNotChangeTheSet : Prop :=
  ∀ (K : Type) [Field K] [LinearOrder K] (m : HostMath K) (h : HostConfig K) (b : Band) (v : K),
    (hostSetBandGain m h b v).2 = [encode (.wrGain b (m.roundT v)), coefFrame m h b] ∧
      (hostSetBandGainDb m h b v).2 = [encode (.wrGain b (m.roundT (m.pow10 (v / 20)))), coefFrame m h b] ∧
      (hostSetBandFrequency m h b v).2 = [encode (.wrCoef b (mapCoefs m.roundT
        (design m (shapeOfBand b) h.sampleRate (clampFrequency m h.sampleRate v) (h.bands.get b).q)))] ∧
      ∀ b', b' ≠ b → coefFrame m (hostSetBandFrequency m h b v).1 b' = coefFrame m h b'
end

