-- ==== Sys2Proof/Laws/Designer.lean ====
section
/-! SUPPORT. The laws of the Q clamp (R214): why it does not matter to a set whether the stored Q was clamped. -/

namespace Sys2Proof.Machine

/-- Clamping a clamped Q changes nothing (R214). -/
theorem clampQ_clampQ {K : Type} [Field K] [LinearOrder K] [IsStrictOrderedRing K] (m : HostMath K) (q : HostNum K) :
    clampQ m (.num (clampQ m q)) = clampQ m q := by
  have h : (qMin : K) ≤ qMax := by norm_num [qMin, qMax]
  cases q with
  | num v => simp only [clampQ]; rw [max_eq_left (le_min (le_max_right v qMin) h), min_eq_left (min_le_right _ _)]
  | nan => cases hm : m.nanQIsMax <;> simp [clampQ, hm, h]

/-- `design` gives the same set for a Q and for that Q clamped before it is stored (log entry 19). -/
theorem designWith_clampQ {K : Type} [Field K] [LinearOrder K] [IsStrictOrderedRing K] (lphpUseQ : Bool) (m : HostMath K)
    (shape : FilterShape) (fs f : K) (q : HostNum K) :
    designWith lphpUseQ m shape fs f (.num (clampQ m q)) = designWith lphpUseQ m shape fs f q := by
  simp only [designWith, designAlpha, clampQ_clampQ]

end Sys2Proof.Machine
end

