-- ==== Sys2Proof/Laws/Encoding.lean ====
section
/-! SUPPORT. The header fields of a header word made of fields (spec rule R82), and that a header is determined by its
fields. -/

namespace Sys2Proof

@[simp] theorem headerOp_headerWord (op : BitVec 8) (band : BitVec 2) (en : BitVec 1) (idx : BitVec 8) :
    headerOp (headerWord op band en idx) = op := by
  unfold headerOp headerWord
  apply BitVec.eq_of_getLsbD_eq
  intro i hi
  interval_cases i <;> simp

@[simp] theorem headerBand_headerWord (op : BitVec 8) (band : BitVec 2) (en : BitVec 1) (idx : BitVec 8) :
    headerBand (headerWord op band en idx) = band := by
  unfold headerBand headerWord
  apply BitVec.eq_of_getLsbD_eq
  intro i hi
  interval_cases i <;> simp

@[simp] theorem headerEn_headerWord (op : BitVec 8) (band : BitVec 2) (en : BitVec 1) (idx : BitVec 8) :
    headerEn (headerWord op band en idx) = en := by
  unfold headerEn headerWord
  apply BitVec.eq_of_getLsbD_eq
  intro i hi
  interval_cases i
  simp

@[simp] theorem headerReservedLow_headerWord (op : BitVec 8) (band : BitVec 2) (en : BitVec 1) (idx : BitVec 8) :
    headerReservedLow (headerWord op band en idx) = 0#5 := by
  unfold headerReservedLow headerWord
  apply BitVec.eq_of_getLsbD_eq
  intro i hi
  interval_cases i <;> simp

@[simp] theorem headerIdx_headerWord (op : BitVec 8) (band : BitVec 2) (en : BitVec 1) (idx : BitVec 8) :
    headerIdx (headerWord op band en idx) = idx := by
  unfold headerIdx headerWord
  apply BitVec.eq_of_getLsbD_eq
  intro i hi
  interval_cases i <;> simp

@[simp] theorem headerReservedHigh_headerWord (op : BitVec 8) (band : BitVec 2) (en : BitVec 1) (idx : BitVec 8) :
    headerReservedHigh (headerWord op band en idx) = 0#8 := by
  unfold headerReservedHigh headerWord
  apply BitVec.eq_of_getLsbD_eq
  intro i hi
  interval_cases i <;> simp

/-- A header whose reserved bits are 0 is the header word of its fields. -/
theorem headerWord_of_fields {h : Word} (hl : headerReservedLow h = 0#5) (hh : headerReservedHigh h = 0#8) :
    headerWord (headerOp h) (headerBand h) (headerEn h) (headerIdx h) = h := by
  have hlow : ∀ i, i < 5 → h.getLsbD (11 + i) = false := fun i hi => by
    have := congrArg (fun v => v.getLsbD i) hl
    simpa [headerReservedLow, hi] using this
  have hhigh : ∀ i, i < 8 → h.getLsbD (24 + i) = false := fun i hi => by
    have := congrArg (fun v => v.getLsbD i) hh
    simpa [headerReservedHigh, hi] using this
  unfold headerWord headerOp headerBand headerEn headerIdx
  apply BitVec.eq_of_getLsbD_eq
  intro i hi
  by_cases h1 : 11 ≤ i ∧ i < 16
  · have := hlow (i - 11) (by omega)
    rw [show 11 + (i - 11) = i by omega] at this
    rw [this]
    obtain ⟨ha, hb⟩ := h1
    interval_cases i <;> simp
  · by_cases h2 : 24 ≤ i
    · have := hhigh (i - 24) (by omega)
      rw [show 24 + (i - 24) = i by omega] at this
      rw [this]
      interval_cases i <;> simp
    · interval_cases i <;> first | omega | simp

@[simp] theorem opOfNumber_opNumber (o : Op) : opOfNumber (opNumber o) = some o := by cases o <;> decide

@[simp] theorem bandOfNumber_bandNumber (b : Band) : bandOfNumber (bandNumber b) = some b := by cases b <;> decide

/-- A number that stands for an opcode is that opcode's. -/
theorem opNumber_of_opOfNumber {n : BitVec 8} {o : Op} (h : opOfNumber n = some o) : n = opNumber o := by
  unfold opOfNumber at h
  repeat' split at h
  all_goals first | (cases h; done) | (injection h with h; subst h; assumption)

/-- A number that names a band is that band's. -/
theorem bandNumber_of_bandOfNumber {n : BitVec 2} {b : Band} (h : bandOfNumber n = some b) : n = bandNumber b := by
  unfold bandOfNumber at h
  repeat' split at h
  all_goals first | (cases h; done) | (injection h with h; subst h; assumption)

end Sys2Proof
end

