-- ==== Sys2Proof/Laws/Memory.lean ====
section
/-! SUPPORT. The laws of the sample buffer: a read after a write, that every operation keeps the canonical form, and
what a fill leaves at each word. -/

namespace Sys2Proof.Machine

/-- A read after a write: the value at the written address, the old word everywhere else. -/
theorem Memory.read_write (m : Memory) (a a' : Nat) (v : Word) :
    Memory.read (Memory.write m a v) a' = if a' = a then some v else Memory.read m a' := by
  induction m with
  | nil => simp [Memory.write, Memory.read]
  | cons x rest ih =>
    obtain ⟨b, w⟩ := x
    unfold Memory.write
    split
    · simp [Memory.read]
    · split
      · subst_vars; simp only [Memory.read]; split <;> rfl
      · simp only [Memory.read, ih]
        split
        · subst_vars; split
          · omega
          · rfl
        · rfl

@[simp] theorem Memory.read_write_same (m : Memory) (a : Nat) (v : Word) :
    Memory.read (Memory.write m a v) a = some v := by
  simp [Memory.read_write]

theorem Memory.read_write_of_ne (m : Memory) {a a' : Nat} (v : Word) (h : a' ≠ a) :
    Memory.read (Memory.write m a v) a' = Memory.read m a' := by
  simp [Memory.read_write, h]

/-- Every address of a written memory is the written one or an old one. -/
theorem Memory.mem_write {m : Memory} {a : Nat} {v : Word} {x : Cell} (h : x ∈ Memory.write m a v) :
    x.1 = a ∨ x ∈ m := by
  induction m with
  | nil => simp [Memory.write] at h; simp [h]
  | cons y rest ih =>
    obtain ⟨b, w⟩ := y
    unfold Memory.write at h
    split at h
    · rcases List.mem_cons.1 h with h | h
      · simp [h]
      · exact .inr h
    · split at h
      · rcases List.mem_cons.1 h with h | h
        · simp [h]
        · exact .inr (List.mem_cons_of_mem _ h)
      · rcases List.mem_cons.1 h with h | h
        · exact .inr (h ▸ List.mem_cons_self)
        · exact (ih h).imp id (List.mem_cons_of_mem _)

/-- A write keeps the canonical form. -/
theorem Memory.wf_write {m : Memory} (h : Memory.wf m) (a : Nat) (v : Word) : Memory.wf (Memory.write m a v) := by
  induction m with
  | nil => simp [Memory.write]
  | cons y rest ih =>
    obtain ⟨b, w⟩ := y
    obtain ⟨hb, hrest⟩ := List.pairwise_cons.1 h
    unfold Memory.write
    split
    · refine List.pairwise_cons.2 ⟨fun x hx => ?_, h⟩
      rcases List.mem_cons.1 hx with rfl | hx
      · assumption
      · exact lt_trans (by assumption) (hb x hx)
    · split
      · subst_vars; exact List.pairwise_cons.2 ⟨hb, hrest⟩
      · refine List.pairwise_cons.2 ⟨fun x hx => ?_, ih hrest⟩
        rcases Memory.mem_write hx with hx | hx
        · simp only [hx]; omega
        · exact hb x hx

theorem Memory.wf_fillRow {m : Memory} (h : Memory.wf m) (value : Nat → Word) (c lo count : Nat) :
    Memory.wf (Memory.fillRow m value c lo count) := by
  induction count with
  | zero => exact h
  | succ k ih => exact Memory.wf_write ih _ _

/-- A fill keeps the canonical form. -/
theorem Memory.wf_fillRows {m : Memory} (h : Memory.wf m) (value : Nat → Nat → Word) (lo count rows : Nat) :
    Memory.wf (Memory.fillRows m value lo count rows) := by
  induction rows with
  | zero => exact h
  | succ r ih => exact Memory.wf_fillRow ih _ _ _ _

/-- Two words of `BUF` have the same address only if they are the same word: an index is below `2^32` (R9). -/
theorem Memory.addr_inj {c c' n n' : Nat} (hn : n < 2 ^ 32) (hn' : n' < 2 ^ 32)
    (h : Memory.addr c n = Memory.addr c' n') : c = c' ∧ n = n' := by
  unfold Memory.addr at h; omega

theorem Memory.read_fillRow (m : Memory) (value : Nat → Word) (c lo count c' n' : Nat)
    (hlo : lo + count ≤ 2 ^ 32) (hn' : n' < 2 ^ 32) :
    Memory.read (Memory.fillRow m value c lo count) (Memory.addr c' n') =
      if c' = c ∧ lo ≤ n' ∧ n' < lo + count then some (value n') else Memory.read m (Memory.addr c' n') := by
  induction count with
  | zero =>
    simp only [Memory.fillRow]
    rw [if_neg (by omega)]
  | succ k ih =>
    simp only [Memory.fillRow, Memory.read_write]
    by_cases h : Memory.addr c' n' = Memory.addr c (lo + k)
    · obtain ⟨rfl, rfl⟩ := Memory.addr_inj hn' (by omega) h
      simp
    · rw [if_neg h, ih (by omega)]
      have hne : ¬ (c' = c ∧ n' = lo + k) := fun ⟨h1, h2⟩ => h (by rw [h1, h2])
      by_cases hc : c' = c ∧ lo ≤ n' ∧ n' < lo + k
      · rw [if_pos hc, if_pos (by omega)]
      · rw [if_neg hc, if_neg (by omega)]

/-- What a fill leaves at each word (R150, R162): its value inside the region, the old word outside. -/
theorem Memory.read_fillRows (m : Memory) (value : Nat → Nat → Word) (lo count rows c' n' : Nat)
    (hlo : lo + count ≤ 2 ^ 32) (hn' : n' < 2 ^ 32) :
    Memory.read (Memory.fillRows m value lo count rows) (Memory.addr c' n') =
      if c' < rows ∧ lo ≤ n' ∧ n' < lo + count then some (value c' n')
      else Memory.read m (Memory.addr c' n') := by
  induction rows with
  | zero => simp [Memory.fillRows]
  | succ r ih =>
    simp only [Memory.fillRows]
    rw [Memory.read_fillRow _ _ _ _ _ _ _ hlo hn', ih]
    by_cases h : c' = r
    · subst h
      by_cases h2 : lo ≤ n' ∧ n' < lo + count
      · simp [h2]
      · have : ¬ (c' = c' ∧ lo ≤ n' ∧ n' < lo + count) := fun h => h2 h.2
        rw [if_neg this, if_neg (by omega), if_neg (by omega)]
    · rw [if_neg (by omega)]
      by_cases h2 : c' < r ∧ lo ≤ n' ∧ n' < lo + count
      · rw [if_pos h2, if_pos (by omega)]
      · rw [if_neg h2, if_neg (by omega)]

/-- Every address is the address of one word `(c, n)` with `n < 2^32`. -/
theorem Memory.exists_addr (a : Nat) : ∃ c n, n < 2 ^ 32 ∧ a = Memory.addr c n :=
  ⟨a / 2 ^ 32, a % 2 ^ 32, Nat.mod_lt _ (by decide), (by unfold Memory.addr; omega)⟩

/-- A write never makes a word unwritten. -/
theorem Memory.isSome_write {m : Memory} {a' : Nat} (h : (Memory.read m a').isSome = true) (a : Nat) (v : Word) :
    (Memory.read (Memory.write m a v) a').isSome = true := by
  rw [Memory.read_write]; split <;> simp [h]

theorem Memory.isSome_fillRow {m : Memory} {a' : Nat} (h : (Memory.read m a').isSome = true)
    (value : Nat → Word) (c lo count : Nat) :
    (Memory.read (Memory.fillRow m value c lo count) a').isSome = true := by
  induction count with
  | zero => exact h
  | succ k ih => exact Memory.isSome_write ih _ _

/-- A fill never makes a word unwritten. -/
theorem Memory.isSome_fillRows {m : Memory} {a' : Nat} (h : (Memory.read m a').isSome = true)
    (value : Nat → Nat → Word) (lo count rows : Nat) :
    (Memory.read (Memory.fillRows m value lo count rows) a').isSome = true := by
  induction rows with
  | zero => exact h
  | succ r ih => exact Memory.isSome_fillRow ih _ _ _ _

/-- `BufRead` of a written word that exists gives it. -/
theorem bufRead_eq_ok {c n : Nat} {s : State} {w : Word} (hin : inBuf s c n = true)
    (h : Memory.read s.buf (Memory.addr c n) = some w) : bufRead c n s = .ok w := by
  simp [bufRead, hin, h]

/-- `BufRead` answers a word only of a written word that exists. -/
theorem bufRead_ok {c n : Nat} {s : State} {w : Word} (h : bufRead c n s = .ok w) :
    inBuf s c n = true ∧ Memory.read s.buf (Memory.addr c n) = some w := by
  unfold bufRead at h
  split at h
  · split at h
    · exact ⟨by assumption, by simp_all⟩
    · cases h
  · cases h

end Sys2Proof.Machine
end

