-- ==== Sys2Proof/Laws/Num.lean ====
section
/-! SUPPORT. The laws of the rounding: what value a bit pattern stands for, that an exactly representable value is
returned as it is, and that the rounded value is a nearest one with ties to even. -/

namespace Sys2Proof.Machine

/-- The magnitude, in units of 2^-149, that bits 30 to 0 stand for when they are below the infinity's pattern. -/
def patternUnits (p : Nat) : Nat :=
  if p / 2 ^ 23 = 0 then p % 2 ^ 23 else (2 ^ 23 + p % 2 ^ 23) * 2 ^ (p / 2 ^ 23 - 1)

/-- A significand `m` in the binade of excess `e`: its pattern stands for `m * 2^e`, the carry `m = 2^24` included. -/
theorem patternUnits_binade {e m : Nat} (h1 : e = 0 ∨ 2 ^ 23 ≤ m) (h2 : m ≤ 2 ^ 24) :
    patternUnits (e * 2 ^ 23 + m) = m * 2 ^ e := by
  unfold patternUnits
  by_cases hm : m < 2 ^ 23
  · obtain rfl : e = 0 := by omega
    rw [if_pos (by omega)]; simp; omega
  · by_cases hc : m = 2 ^ 24
    · subst hc
      have hd : (e * 2 ^ 23 + 2 ^ 24) / 2 ^ 23 = e + 2 := by omega
      have hr : (e * 2 ^ 23 + 2 ^ 24) % 2 ^ 23 = 0 := by omega
      rw [hd, hr, if_neg (by omega), show e + 2 - 1 = e + 1 from rfl, Nat.pow_succ]
      ring
    · have hd : (e * 2 ^ 23 + m) / 2 ^ 23 = e + 1 := by omega
      have hr : (e * 2 ^ 23 + m) % 2 ^ 23 = m - 2 ^ 23 := by omega
      rw [hd, hr, if_neg (by omega), show e + 1 - 1 = e from rfl, show 2 ^ 23 + (m - 2 ^ 23) = m by omega]

/-- Every pattern below the infinity's is a significand in a binade. -/
theorem exists_binade (p : Nat) : ∃ e m, (e = 0 ∨ 2 ^ 23 ≤ m) ∧ m < 2 ^ 24 ∧ p = e * 2 ^ 23 + m := by
  by_cases h : p < 2 ^ 24
  · exact ⟨0, p, .inl rfl, h, by omega⟩
  · exact ⟨p / 2 ^ 23 - 1, 2 ^ 23 + p % 2 ^ 23, .inr (by omega), by omega, by omega⟩

/-- Rounding a whole number to a whole number leaves it. -/
theorem roundHalfEven_exact {num den m : Nat} (hd : 0 < den) (h : num = den * m) : roundHalfEven num den = m := by
  subst h
  simp [roundHalfEven, Nat.mul_div_cancel_left m hd, hd]

/-- The rounded whole number is within half a unit, and a tie goes to the even one. -/
theorem roundHalfEven_half (num : Nat) {den : Nat} (hd : 0 < den) :
    2 * num ≤ den * (2 * roundHalfEven num den + 1) ∧ den * (2 * roundHalfEven num den) ≤ 2 * num + den ∧
      ((2 * num = den * (2 * roundHalfEven num den + 1) ∨ den * (2 * roundHalfEven num den) = 2 * num + den) →
        roundHalfEven num den % 2 = 0) := by
  have hnum : den * (num / den) + num % den = num := Nat.div_add_mod num den
  have hr : num % den < den := Nat.mod_lt _ hd
  unfold roundHalfEven
  generalize num / den = q at *
  generalize num % den = r at *
  simp only
  split
  · refine ⟨by nlinarith, by nlinarith, fun h => ?_⟩
    rcases h with h | h <;> exfalso <;> nlinarith
  · split
    · refine ⟨by nlinarith, by nlinarith, fun h => ?_⟩
      rcases h with h | h <;> exfalso <;> nlinarith
    · have h2 : 2 * r = den := by omega
      rcases Nat.mod_two_eq_zero_or_one q with hq | hq <;> rw [hq]
      · exact ⟨by nlinarith, by nlinarith, fun _ => by omega⟩
      · exact ⟨by nlinarith, by nlinarith, fun _ => by omega⟩

/-- Where a quotient lies in its binade: below 2^24 there is no excess, else the quotient has 24 bits above it. -/
theorem log2_excess (q : Nat) :
    (Nat.log2 q - 23 = 0 ∧ q < 2 ^ 24) ∨
      (2 ^ (Nat.log2 q - 23 + 23) ≤ q ∧ q < 2 ^ (Nat.log2 q - 23 + 24)) := by
  by_cases h : q < 2 ^ 24
  · refine .inl ⟨?_, h⟩
    by_cases h0 : q = 0
    · subst h0; simp
    · have := (Nat.log2_lt h0).2 h; omega
  · have h0 : q ≠ 0 := by omega
    have hlo := Nat.log2_self_le h0
    have hge : 24 ≤ Nat.log2 q := (Nat.le_log2 h0).2 (by omega)
    have hhi : q < 2 ^ (Nat.log2 q + 1) := Nat.lt_log2_self
    refine .inr ⟨?_, ?_⟩
    · rwa [show Nat.log2 q - 23 + 23 = Nat.log2 q by omega]
    · rwa [show Nat.log2 q - 23 + 24 = Nat.log2 q + 1 by omega]

/-- The rounded significand lies in its binade, the carry included. -/
theorem roundHalfEven_binade (num : Nat) {den : Nat} (hd : 0 < den) :
    let e := Nat.log2 (num / den) - 23
    let m := roundHalfEven num (den * 2 ^ e)
    (e = 0 ∨ (2 ^ 23 ≤ m ∧ den * 2 ^ e * 2 ^ 23 ≤ num)) ∧ m ≤ 2 ^ 24 := by
  intro e m
  have hpe : 0 < 2 ^ e := Nat.two_pow_pos e
  have hde : 0 < den * 2 ^ e := Nat.mul_pos hd hpe
  have hq : num / (den * 2 ^ e) = num / den / 2 ^ e := (Nat.div_div_eq_div_mul num den (2 ^ e)).symm
  have hlow : num / (den * 2 ^ e) ≤ m := by
    show _ ≤ roundHalfEven num (den * 2 ^ e)
    unfold roundHalfEven; simp only; split <;> (try split) <;> omega
  have hup : m ≤ num / (den * 2 ^ e) + 1 := by
    show roundHalfEven num (den * 2 ^ e) ≤ _
    unfold roundHalfEven; simp only; split <;> (try split) <;> omega
  rcases log2_excess (num / den) with ⟨h0, hlt⟩ | ⟨hlo, hhi⟩
  · have he : e = 0 := h0
    refine ⟨.inl he, ?_⟩
    have hle : num / den / 2 ^ e ≤ num / den := Nat.div_le_self _ _
    rw [← hq] at hle
    omega
  · have h1 : 2 ^ 23 ≤ num / den / 2 ^ e := by
      rw [Nat.le_div_iff_mul_le hpe]
      calc 2 ^ 23 * 2 ^ e = 2 ^ (e + 23) := by rw [Nat.pow_add]; ring
        _ ≤ _ := hlo
    have h2 : num / den / 2 ^ e < 2 ^ 24 := by
      rw [Nat.div_lt_iff_lt_mul hpe]
      calc num / den < 2 ^ (e + 24) := hhi
        _ = 2 ^ 24 * 2 ^ e := by rw [Nat.pow_add]; ring
    rw [← hq] at h1 h2
    refine ⟨.inr ⟨by omega, ?_⟩, by omega⟩
    have := (Nat.le_div_iff_mul_le hde).1 h1
    nlinarith

/-- An exactly representable value is returned as it is. -/
theorem roundMagnitude_exact {num den p : Nat} (hd : 0 < den) (hp : p < 0x7F800000)
    (h : num = den * patternUnits p) : roundMagnitude num den = p := by
  obtain ⟨e, m, h1, h2, rfl⟩ := exists_binade p
  rw [patternUnits_binade h1 (by omega)] at h
  have hq : num / den = m * 2 ^ e := by rw [h]; exact Nat.mul_div_cancel_left _ hd
  have he : Nat.log2 (num / den) - 23 = e := by
    rw [hq]
    rcases h1 with rfl | h1
    · rcases log2_excess (m * 2 ^ 0) with ⟨h0, _⟩ | ⟨hlo, _⟩
      · exact h0
      · by_contra hne
        have : 2 ^ 24 ≤ 2 ^ (Nat.log2 (m * 2 ^ 0) - 23 + 23) := Nat.pow_le_pow_right (by decide) (by omega)
        omega
    · have hne : m * 2 ^ e ≠ 0 := Nat.mul_ne_zero (by omega) (Nat.two_pow_pos e).ne'
      have hl : Nat.log2 (m * 2 ^ e) = e + 23 := by
        refine le_antisymm (Nat.lt_succ_iff.1 ((Nat.log2_lt hne).2 ?_)) ((Nat.le_log2 hne).2 ?_)
        · calc m * 2 ^ e < 2 ^ 24 * 2 ^ e := Nat.mul_lt_mul_of_pos_right h2 (Nat.two_pow_pos e)
            _ = 2 ^ (e + 23 + 1) := by rw [← Nat.pow_add]; congr 1; omega
        · calc 2 ^ (e + 23) = 2 ^ 23 * 2 ^ e := by rw [← Nat.pow_add]; congr 1; omega
            _ ≤ m * 2 ^ e := Nat.mul_le_mul_right _ h1
      omega
  have hm : roundHalfEven num (den * 2 ^ e) = m :=
    roundHalfEven_exact (Nat.mul_pos hd (Nat.two_pow_pos e)) (by rw [h]; ring)
  unfold roundMagnitude
  simp only [he, hm]
  omega

/-- A whole number `m` of steps `D` within half a step of `x`, even on a tie, is a nearest whole number of steps. -/
theorem nearest_multiple {x D m j : Int} (hD : 0 < D) (h1 : 2 * x ≤ D * (2 * m + 1))
    (h2 : D * (2 * m) ≤ 2 * x + D) (htie : 2 * x = D * (2 * m + 1) ∨ D * (2 * m) = 2 * x + D → m % 2 = 0) :
    |x - D * m| ≤ |x - D * j| ∧ (|x - D * m| = |x - D * j| → j = m ∨ m % 2 = 0) := by
  rcases lt_trichotomy j m with hlt | heq | hgt
  · have hb : D * j + D ≤ D * m := by nlinarith
    have hpos : 0 ≤ x - D * j := by linarith
    rw [abs_of_nonneg hpos]
    refine ⟨abs_le.2 ⟨by linarith, by linarith⟩, fun h => .inr (htie ?_)⟩
    rcases abs_choice (x - D * m) with h' | h' <;> rw [h'] at h
    · exfalso; linarith
    · right; linarith
  · subst heq; exact ⟨le_refl _, fun _ => .inl rfl⟩
  · have hb : D * m + D ≤ D * j := by nlinarith
    have hneg : x - D * j ≤ 0 := by linarith
    rw [abs_of_nonpos hneg]
    refine ⟨abs_le.2 ⟨by linarith, by linarith⟩, fun h => .inr (htie ?_)⟩
    rcases abs_choice (x - D * m) with h' | h' <;> rw [h'] at h
    · left; linarith
    · exfalso; linarith

/-- A competitor of a value in the binade of excess `e` is a multiple of `2^e`, or lies below the binade's start. -/
theorem competitor_binade {e g f : Nat} (hf : f < 2 ^ 24) :
    (∃ j : Nat, f * 2 ^ g = j * 2 ^ e) ∨ (0 < e ∧ f * 2 ^ g < 2 ^ 23 * 2 ^ e) := by
  by_cases hge : e ≤ g
  · refine .inl ⟨f * 2 ^ (g - e), ?_⟩
    rw [Nat.mul_assoc, ← Nat.pow_add]; congr 2; omega
  · refine .inr ⟨by omega, ?_⟩
    calc f * 2 ^ g < 2 ^ 24 * 2 ^ g := Nat.mul_lt_mul_of_pos_right hf (Nat.two_pow_pos g)
      _ = 2 ^ 23 * 2 ^ (g + 1) := by rw [Nat.pow_succ]; ring
      _ ≤ 2 ^ 23 * 2 ^ e := Nat.mul_le_mul_left _ (Nat.pow_le_pow_right (by decide) (by omega))

/-- The rounded value is a nearest one, and on a tie with another value its pattern is even (R111). -/
theorem roundMagnitude_nearest {num den : Nat} (hd : 0 < den) (hfin : roundMagnitude num den < 0x7F800000)
    {p : Nat} (hp : p < 0x7F800000) :
    |(num : Int) - den * patternUnits (roundMagnitude num den)| ≤ |(num : Int) - den * patternUnits p| ∧
      (|(num : Int) - den * patternUnits (roundMagnitude num den)| = |(num : Int) - den * patternUnits p| →
        patternUnits p = patternUnits (roundMagnitude num den) ∨ roundMagnitude num den % 2 = 0) := by
  obtain ⟨hb, hm⟩ := roundHalfEven_binade num hd
  unfold roundMagnitude at hfin ⊢
  simp only at hb hm hfin ⊢
  generalize Nat.log2 (num / den) - 23 = e at *
  have hde : 0 < den * 2 ^ e := Nat.mul_pos hd (Nat.two_pow_pos e)
  obtain ⟨hh1, hh2, hh3⟩ := roundHalfEven_half num hde
  generalize roundHalfEven num (den * 2 ^ e) = m at *
  have hmin : min (e * 2 ^ 23 + m) 0x7F800000 = e * 2 ^ 23 + m := by omega
  rw [hmin, patternUnits_binade (hb.imp id And.left) hm, show (e * 2 ^ 23 + m) % 2 = m % 2 by omega]
  obtain ⟨g, f, hg, hf, rfl⟩ := exists_binade p
  rw [patternUnits_binade hg (by omega)]
  have near : ∀ j : Nat, |(num : Int) - den * ((m * 2 ^ e : Nat) : Int)| ≤ |(num : Int) - den * ((j * 2 ^ e : Nat) : Int)| ∧
      (|(num : Int) - den * ((m * 2 ^ e : Nat) : Int)| = |(num : Int) - den * ((j * 2 ^ e : Nat) : Int)| →
        j = m ∨ m % 2 = 0) := by
    intro j
    have h := nearest_multiple (x := num) (D := ((den * 2 ^ e : Nat) : Int)) (m := m) (j := j)
      (by exact_mod_cast hde) (by exact_mod_cast hh1) (by exact_mod_cast hh2) (by exact_mod_cast hh3)
    have e1 : ∀ i : Nat, (den : Int) * ((i * 2 ^ e : Nat) : Int) = ((den * 2 ^ e : Nat) : Int) * i := by
      intro i; push_cast; ring
    rw [e1, e1]
    exact_mod_cast h
  rcases competitor_binade (e := e) (g := g) hf with ⟨j, hj⟩ | ⟨he, hlt⟩
  · rw [hj]
    exact ⟨(near j).1, fun h => ((near j).2 h).imp (fun h => by rw [h]) id⟩
  · have hd' : (0 : Int) < den := by exact_mod_cast hd
    have hlt' : ((f * 2 ^ g : Nat) : Int) < ((2 ^ 23 * 2 ^ e : Nat) : Int) := by exact_mod_cast hlt
    have hle : den * (2 ^ 23 * 2 ^ e) ≤ num := by
      rcases hb with h0 | ⟨_, h0⟩
      · omega
      · exact le_trans (le_of_eq (by ring)) h0
    have hle' : (den : Int) * ((2 ^ 23 * 2 ^ e : Nat) : Int) ≤ num := by exact_mod_cast hle
    have h1 := mul_lt_mul_of_pos_left hlt' hd'
    have hfar : |(num : Int) - den * ((2 ^ 23 * 2 ^ e : Nat) : Int)| < |(num : Int) - den * ((f * 2 ^ g : Nat) : Int)| := by
      rw [abs_of_nonneg (by linarith), abs_of_nonneg (by linarith)]
      linarith
    have hlt2 := lt_of_le_of_lt (near (2 ^ 23)).1 hfar
    exact ⟨le_of_lt hlt2, fun h => absurd h (ne_of_lt hlt2)⟩

/-- Below the last binade a rounded value stays below the overflow threshold. -/
theorem below_overflow {num D X m N : Nat} (h1 : 2 * num ≤ D * (2 * m + 1)) (hm : m ≤ N) (hX : D * 2 ≤ X)
    (hD : 0 < D) (hN : 2 ≤ N) : ¬ X * (2 * N) ≤ 2 * num + X := by
  intro h
  have h3 : D * (2 * m + 1) ≤ D * (2 * N + 1) := Nat.mul_le_mul (le_refl D) (by omega)
  nlinarith

/-- In the last binade the rounded significand carries exactly from the overflow threshold on. -/
theorem at_overflow {num D m N : Nat} (h1 : 2 * num ≤ D * (2 * m + 1)) (h2 : D * (2 * m) ≤ 2 * num + D)
    (htie : 2 * num = D * (2 * m + 1) ∨ D * (2 * m) = 2 * num + D → m % 2 = 0) (hm : m ≤ N) (hD : 0 < D)
    (hN : N % 2 = 0) : m = N ↔ D * (2 * N) ≤ 2 * num + D := by
  constructor
  · rintro rfl; exact h2
  · intro h
    by_contra hne
    have h3 : D * (2 * m + 2) ≤ D * (2 * N) := Nat.mul_le_mul (le_refl D) (by omega)
    have h4 : D * (2 * m + 2) = D * (2 * m + 1) + D := by ring
    have hev := htie (.inl (by linarith))
    have h5 : D * (2 * m + 2) = D * (2 * N) := by linarith
    have h6 := Nat.eq_of_mul_eq_mul_left hD h5
    omega

/-- The result is the infinity from half a unit above the largest finite value on (R111): in units of the last
binade's step `2^253`, from `2^24 - 1/2` on. -/
theorem roundMagnitude_overflow {num den : Nat} (hd : 0 < den) :
    roundMagnitude num den = 0x7F800000 ↔ den * 2 ^ 253 * (2 * 2 ^ 24) ≤ 2 * num + den * 2 ^ 253 := by
  obtain ⟨hb, hm⟩ := roundHalfEven_binade num hd
  unfold roundMagnitude
  simp only at hb hm ⊢
  generalize Nat.log2 (num / den) - 23 = e at *
  have hde : 0 < den * 2 ^ e := Nat.mul_pos hd (Nat.two_pow_pos e)
  obtain ⟨hh1, hh2, hh3⟩ := roundHalfEven_half num hde
  generalize roundHalfEven num (den * 2 ^ e) = m at *
  have hmin : min (e * 2 ^ 23 + m) 0x7F800000 = 0x7F800000 ↔ 253 * 2 ^ 23 + 2 ^ 24 ≤ e * 2 ^ 23 + m := by omega
  rw [hmin]
  obtain ⟨P, hP⟩ : ∃ P, P = 2 ^ 23 := ⟨_, rfl⟩
  obtain ⟨K, hK⟩ : ∃ K, K = 253 := ⟨_, rfl⟩
  have hP0 : 0 < P := by rw [hP]; exact Nat.two_pow_pos 23
  have h24 : 2 ^ 24 = 2 * P := by rw [hP]; rfl
  rw [h24] at hm
  rw [h24, ← hP, ← hK]
  rw [← hP] at hb
  clear hmin h24
  rcases Nat.lt_trichotomy e K with he | he | he
  · obtain ⟨d, rfl⟩ : ∃ d, K = e + 1 + d := ⟨K - 1 - e, by omega⟩
    refine iff_of_false ?_ (below_overflow hh1 hm ?_ hde (by omega))
    · clear hK hP hb hh1 hh2 hh3; nlinarith
    · rw [Nat.pow_add 2 (e + 1), Nat.pow_succ 2 e, ← Nat.mul_assoc, ← Nat.mul_assoc]
      exact Nat.le_mul_of_pos_right _ (Nat.two_pow_pos d)
  · subst he
    refine Iff.trans ?_ (at_overflow hh1 hh2 hh3 hm hde (by omega))
    clear hK hP hb hh1 hh2 hh3
    constructor <;> intro h <;> linarith
  · obtain ⟨hm23, hnum⟩ : P ≤ m ∧ den * 2 ^ e * P ≤ num := by
      rcases hb with h | h
      · omega
      · exact h
    obtain ⟨d, rfl⟩ : ∃ d, e = K + 1 + d := ⟨e - 1 - K, by omega⟩
    refine iff_of_true (by clear hK hP hb hh1 hh2 hh3 hnum; nlinarith) ?_
    have h2 : den * 2 ^ K * 2 ≤ den * 2 ^ (K + 1 + d) := by
      rw [Nat.pow_add 2 (K + 1), Nat.pow_succ 2 K, ← Nat.mul_assoc, ← Nat.mul_assoc]
      exact Nat.le_mul_of_pos_right _ (Nat.two_pow_pos d)
    clear hb hh1 hh2 hh3 hK hP
    generalize den * 2 ^ K = D at *
    generalize den * 2 ^ (K + 1 + d) = Y at *
    nlinarith

/-! ### Bit patterns -/

theorem toNat_pack {neg : Bool} {bits : Nat} (h : bits < 2 ^ 31) :
    (pack neg bits).toNat = (if neg then 2 ^ 31 else 0) + bits := by
  unfold pack; rw [BitVec.toNat_ofNat]; exact Nat.mod_eq_of_lt (by split <;> omega)

theorem expField_eq (v : Word) : expField v = v.toNat / 2 ^ 23 % 2 ^ 8 := by
  simp [expField, Nat.shiftRight_eq_div_pow]

theorem fracField_eq (v : Word) : fracField v = v.toNat % 2 ^ 23 := by
  simp [fracField]

theorem signBit_eq (v : Word) : signBit v = decide (2 ^ 31 ≤ v.toNat) := by
  have := v.isLt
  unfold signBit
  rw [BitVec.getLsbD, Nat.testBit_eq_decide_div_mod_eq]
  congr 1
  apply propext
  omega

theorem expField_pack {neg : Bool} {bits : Nat} (h : bits < 2 ^ 31) : expField (pack neg bits) = bits / 2 ^ 23 := by
  rw [expField_eq, toNat_pack h]; split <;> omega

theorem fracField_pack {neg : Bool} {bits : Nat} (h : bits < 2 ^ 31) : fracField (pack neg bits) = bits % 2 ^ 23 := by
  rw [fracField_eq, toNat_pack h]; split <;> omega

theorem signBit_pack {neg : Bool} {bits : Nat} (h : bits < 2 ^ 31) : signBit (pack neg bits) = neg := by
  rw [signBit_eq, toNat_pack h]
  cases neg
  · simp; omega
  · simp

/-- A packed pattern below the infinity's is finite, and its magnitude is the pattern's. -/
theorem magnitude_pack {neg : Bool} {bits : Nat} (h : bits < 0x7F800000) :
    magnitude (pack neg bits) = patternUnits bits := by
  unfold magnitude patternUnits
  rw [expField_pack (by omega), fracField_pack (by omega)]

theorem isFinite_pack {neg : Bool} {bits : Nat} (h : bits ≤ 0x7F800000) :
    isFinite (pack neg bits) = decide (bits < 0x7F800000) := by
  unfold isFinite
  rw [expField_pack (by omega)]
  by_cases hb : bits < 0x7F800000
  · have : bits / 2 ^ 23 ≠ 255 := by omega
    simp [hb]; omega
  · obtain rfl : bits = 0x7F800000 := by omega
    rfl

theorem isInf_pack {neg : Bool} {bits : Nat} (h : bits ≤ 0x7F800000) :
    isInf (pack neg bits) = decide (bits = 0x7F800000) := by
  unfold isInf
  rw [expField_pack (by omega), fracField_pack (by omega)]
  by_cases hb : bits = 0x7F800000
  · subst hb; rfl
  · simp [hb]; omega

theorem roundMagnitude_le (num den : Nat) : roundMagnitude num den ≤ 0x7F800000 := by
  unfold roundMagnitude; exact Nat.min_le_right _ _

/-- Every word is its sign and its bits 30 to 0. -/
theorem eq_pack (v : Word) : v = pack (signBit v) (v.toNat % 2 ^ 31) := by
  apply BitVec.eq_of_toNat_eq
  rw [toNat_pack (Nat.mod_lt _ (by decide)), signBit_eq]
  have := v.isLt
  by_cases h : 2 ^ 31 ≤ v.toNat
  · rw [if_pos (by simpa using h)]; omega
  · rw [if_neg (by simpa using h)]; omega

/-- A finite word's magnitude is the value of its bits 30 to 0, a pattern below the infinity's. -/
theorem magnitude_eq {v : Word} (h : isFinite v = true) :
    v.toNat % 2 ^ 31 < 0x7F800000 ∧ magnitude v = patternUnits (v.toNat % 2 ^ 31) := by
  have hlt : v.toNat % 2 ^ 31 < 0x7F800000 := by
    unfold isFinite at h; rw [expField_eq] at h; simp at h; omega
  exact ⟨hlt, by conv => lhs; rw [eq_pack v]; exact magnitude_pack hlt⟩

/-- The NaN of a draw is a NaN whatever the draw is (R115). -/
@[simp] theorem isNaN_drawNaN (d : Nat) : isNaN (drawNaN d) = true := by
  have hlt := (Config.freeNaN d).2.isLt
  unfold isNaN drawNaN
  rw [expField_pack (by omega), fracField_pack (by omega)]
  have h1 : (0x7F800000 + ((Config.freeNaN d).2.val + 1)) / 2 ^ 23 = 255 := by omega
  have h2 : (0x7F800000 + ((Config.freeNaN d).2.val + 1)) % 2 ^ 23 ≠ 0 := by omega
  rw [h1]
  simpa using h2

end Sys2Proof.Machine
end

