-- ==== Sys2Proof/Laws/PerInstr.lean ====
section
/-! SUPPORT. A statement about every command as syntax, one lemma per constructor: the frame of a command passes every
check of spec rules R85 to R88 on the command's own port. -/

namespace Sys2Proof

/-- Whether a frame is well formed depends only on its header and on how many operand words it has (R81, R87). -/
theorem Frame.wellFormed_congr {f g : Frame} (p : Port) (hh : f.header = g.header)
    (hl : f.operands.length = g.operands.length) : f.wellFormed p = g.wellFormed p := by
  simp [Frame.wellFormed, Frame.opAssigned, Frame.portLegal, Frame.reservedClear, Frame.unusedFieldsClear,
    Frame.bandNamed, Frame.lengthRight, hh, hl]

end Sys2Proof

/-- The frame of the command is well formed on the command's port. -/
def Sys2Proof.Laws.WellFormedEncoding.Statement (i : Sys2Proof.Instr) : Prop :=
  (Sys2Proof.encode i).wellFormed i.op.port = true

namespace Sys2Proof.Laws.WellFormedEncoding

theorem prepare (blk fs : Word) : Statement (.prepare blk fs) :=
  (Frame.wellFormed_congr .processing (g := encode (.prepare 0#32 0#32)) rfl rfl).trans (by decide)

theorem release : Statement .release := by unfold Statement; decide

theorem process (nch ns : Word) : Statement (.process nch ns) :=
  (Frame.wellFormed_congr .processing (g := encode (.process 0#32 0#32)) rfl rfl).trans (by decide)

theorem flush : Statement .flush := by unfold Statement; decide

theorem wrCoef (band : Band) (k : Coefs Word) : Statement (.wrCoef band k) := by
  refine (Frame.wellFormed_congr .control
    (g := encode (.wrCoef band { b0 := 0#32, b1 := 0#32, b2 := 0#32, a0 := 0#32, a1 := 0#32, a2 := 0#32 }))
    rfl rfl).trans ?_
  cases band <;> decide

theorem wrGain (band : Band) (g : Word) : Statement (.wrGain band g) := by
  refine (Frame.wellFormed_congr .control (g := encode (.wrGain band 0#32)) rfl rfl).trans ?_
  cases band <;> decide

theorem wrEnable (en : Bool) : Statement (.wrEnable en) := by
  unfold Statement
  cases en <;> decide

theorem rdReg (idx : BitVec 8) : Statement (.rdReg idx) := by
  unfold Statement
  revert idx
  decide

end Sys2Proof.Laws.WellFormedEncoding
end

