-- ==== Sys2Proof/Laws/State.lean ====
section
/-! SUPPORT. The small lemmas of the state's records and of the named updates: what each operation of
`Machine/Ops.lean` writes and what it leaves, one lemma per field, so that no later proof unfolds them. -/

namespace Sys2Proof.Machine

/-! ### Per-band and per-channel records -/

section Records
variable {α : Type}

@[simp] theorem PerBand.get_set_same (p : PerBand α) (b : Band) (v : α) : (p.set b v).get b = v := by
  cases b <;> rfl

theorem PerBand.get_set_of_ne (p : PerBand α) {b b' : Band} (v : α) (h : b' ≠ b) :
    (p.set b v).get b' = p.get b' := by
  cases b <;> cases b' <;> first | rfl | exact absurd rfl h

@[simp] theorem PerChan.get_set_same (p : PerChan α) (c : Chan) (v : α) : (p.set c v).get c = v := by
  cases c <;> rfl

theorem PerChan.get_set_of_ne (p : PerChan α) {c c' : Chan} (v : α) (h : c' ≠ c) :
    (p.set c v).get c' = p.get c' := by
  cases c <;> cases c' <;> first | rfl | exact absurd rfl h

theorem PerBand.get_set (p : PerBand α) (b b' : Band) (v : α) :
    (p.set b v).get b' = if b' = b then v else p.get b' := by
  cases b <;> cases b' <;> rfl

theorem PerChan.get_set (p : PerChan α) (c c' : Chan) (v : α) :
    (p.set c v).get c' = if c' = c then v else p.get c' := by
  cases c <;> cases c' <;> rfl

/-- Two per-band records are equal when they agree on every band. -/
theorem PerBand.ext_get {p q : PerBand α} (h : ∀ b, p.get b = q.get b) : p = q := by
  cases p; cases q
  have h0 := h .low; have h1 := h .mid; have h2 := h .high
  simp_all [PerBand.get]

/-- Two per-channel records are equal when they agree on every channel. -/
theorem PerChan.ext_get {p q : PerChan α} (h : ∀ c, p.get c = q.get c) : p = q := by
  cases p; cases q
  have h0 := h .left; have h1 := h .right
  simp_all [PerChan.get]

end Records

@[simp] theorem bothChannels_get (f : Biquad Word → Biquad Word) (p : PerChan (Biquad Word)) (c : Chan) :
    (bothChannels f p).get c = f (p.get c) := by
  cases c <;> rfl

/-! ### The biquad instances -/

/-- A step that keeps `flt` keeps every instance. -/
theorem instanceOf_congr {s t : State} (h : t.flt = s.flt) (b : Band) (c : Chan) :
    instanceOf t b c = instanceOf s b c := by
  simp [instanceOf, h]

theorem instanceOf_setBiquad (s : State) (b b' : Band) (c c' : Chan) (q : Biquad Word) :
    instanceOf (setBiquad b c q s) b' c' = if b' = b ∧ c' = c then q else instanceOf s b' c' := by
  cases b <;> cases b' <;> cases c <;> cases c' <;> rfl

@[simp] theorem instanceOf_clearAll (s : State) (b : Band) (c : Chan) :
    instanceOf (clearAll s) b c = bqClear (instanceOf s b c) := by
  cases b <;> cases c <;> rfl

@[simp] theorem instanceOf_snap (s : State) (b : Band) (c : Chan) :
    instanceOf (snap s) b c = bqRetune (s.cfgCoef.get b) (instanceOf s b c) := by
  cases b <;> cases c <;> rfl

@[simp] theorem bqClear_coef (q : Biquad Word) : (bqClear q).coef = q.coef := rfl
@[simp] theorem bqClear_hist (q : Biquad Word) : (bqClear q).hist = clearedHist := rfl
@[simp] theorem bqRetune_coef (k : Coefs Word) (q : Biquad Word) : (bqRetune k q).coef = k := rfl
@[simp] theorem bqRetune_hist (k : Coefs Word) (q : Biquad Word) : (bqRetune k q).hist = q.hist := rfl

/-- What `clearAll` leaves: everything but `flt`. -/
theorem clearAll_frame (s : State) : clearAll s = { s with flt := (clearAll s).flt } := rfl

/-- What `setBiquad` leaves: everything but `flt`. -/
theorem setBiquad_frame (b : Band) (c : Chan) (q : Biquad Word) (s : State) :
    setBiquad b c q s = { s with flt := (setBiquad b c q s).flt } := rfl

/-- What `bqStep` leaves: everything but `flt` and the draw counter. -/
theorem bqStep_frame (N : NumOps Word) (b : Band) (c : Chan) (x : Word) (s : State) :
    (bqStepWith N b c x s).2 = { s with flt := (bqStepWith N b c x s).2.flt, nanDraws := s.nanDraws + 10 } := rfl

/-- The instances after `bqStep`: the stepped one shifts its history, every other is as before. -/
theorem instanceOf_bqStep (N : NumOps Word) (b b' : Band) (c c' : Chan) (x : Word) (s : State) :
    instanceOf (bqStepWith N b c x s).2 b' c' =
      if b' = b ∧ c' = c then
        { instanceOf s b c with hist := shiftHist (instanceOf s b c).hist x (bqStepWith N b c x s).1 }
      else instanceOf s b' c' := by
  cases b <;> cases b' <;> cases c <;> cases c' <;> rfl

/-- What a band stage leaves: everything but `flt` and the draw counter. -/
theorem bandStage_frame (N : NumOps Word) (b : Band) (c : Chan) (x : Word) (s : State) :
    (bandStage N b c x s).2 = { s with flt := (bqStepWith N b c x s).2.flt, nanDraws := s.nanDraws + 11 } := rfl

/-- What the cascade leaves: everything but `flt` and the draw counter. -/
theorem cascade_frame (N : NumOps Word) (c : Chan) (x : Word) (s : State) :
    (cascade N c x s).2 = { s with flt := (cascade N c x s).2.flt, nanDraws := s.nanDraws + 33 } := rfl

/-- No step of a cascade changes coefficients. -/
theorem cascade_coef (N : NumOps Word) (c c' : Chan) (b : Band) (x : Word) (s : State) :
    (instanceOf (cascade N c x s).2 b c').coef = (instanceOf s b c').coef := by
  cases b <;> cases c <;> cases c' <;> rfl

/-- The cascade of one channel leaves the other channel's instances (R152). -/
theorem cascade_other_channel (N : NumOps Word) {c c' : Chan} (h : c' ≠ c) (b : Band) (x : Word) (s : State) :
    instanceOf (cascade N c x s).2 b c' = instanceOf s b c' := by
  cases b <;> cases c <;> cases c' <;> first | rfl | exact absurd rfl h

/-- The output of `BQ.STEP` (R116). -/
theorem bqStep_out (N : NumOps Word) (b : Band) (c : Chan) (x : Word) (s : State) :
    (bqStepWith N b c x s).1 = biquadOut N s.nanDraws (instanceOf s b c).coef (instanceOf s b c).hist x := rfl

/-- A band stage gives the gained output of the band's filter (R152). -/
theorem bandStage_out (N : NumOps Word) (b : Band) (c : Chan) (x : Word) (s : State) :
    (bandStage N b c x s).1 = N.fmul (s.nanDraws + 10) (s.actGain.get b) (bqStepWith N b c x s).1 := rfl

/-- The instances after a band stage: the band's instance shifts its history, every other is as before. -/
theorem instanceOf_bandStage (N : NumOps Word) (b b' : Band) (c c' : Chan) (x : Word) (s : State) :
    instanceOf (bandStage N b c x s).2 b' c' =
      if b' = b ∧ c' = c then
        { instanceOf s b c with hist := shiftHist (instanceOf s b c).hist x (bqStepWith N b c x s).1 }
      else instanceOf s b' c' := instanceOf_bqStep N b b' c c' x s

/-- A cascade, band by band (R152): the gained output of each band is the next band's input, and each instance of the
channel shifts its history. -/
theorem cascade_eq (N : NumOps Word) (c : Chan) (x : Word) (s : State) {y0 g0 y1 g1 y2 : Word}
    (hy0 : y0 = biquadOut N s.nanDraws (instanceOf s .low c).coef (instanceOf s .low c).hist x)
    (hg0 : g0 = N.fmul (s.nanDraws + 10) (s.actGain.get .low) y0)
    (hy1 : y1 = biquadOut N (s.nanDraws + 11) (instanceOf s .mid c).coef (instanceOf s .mid c).hist g0)
    (hg1 : g1 = N.fmul (s.nanDraws + 21) (s.actGain.get .mid) y1)
    (hy2 : y2 = biquadOut N (s.nanDraws + 22) (instanceOf s .high c).coef (instanceOf s .high c).hist g1) :
    (cascade N c x s).1 = N.fmul (s.nanDraws + 32) (s.actGain.get .high) y2 ∧
      instanceOf (cascade N c x s).2 .low c =
        { instanceOf s .low c with hist := shiftHist (instanceOf s .low c).hist x y0 } ∧
      instanceOf (cascade N c x s).2 .mid c =
        { instanceOf s .mid c with hist := shiftHist (instanceOf s .mid c).hist g0 y1 } ∧
      instanceOf (cascade N c x s).2 .high c =
        { instanceOf s .high c with hist := shiftHist (instanceOf s .high c).hist g1 y2 } := by
  have ha : ∀ b c' x' u, instanceOf (bandStage N b c' x' u).2 = fun b' c'' => if b' = b ∧ c'' = c' then
        { instanceOf u b c' with hist := shiftHist (instanceOf u b c').hist x' (bqStepWith N b c' x' u).1 }
      else instanceOf u b' c'' := fun b c' x' u => by funext b' c''; exact instanceOf_bandStage ..
  have hd : ∀ b c' x' u, (bandStage N b c' x' u).2.nanDraws = u.nanDraws + 11 := fun b c' x' u => rfl
  have hgn : ∀ b c' x' u, (bandStage N b c' x' u).2.actGain = u.actGain := fun b c' x' u => rfl
  simp only [cascade, ha, hd, hgn, bandStage_out, bqStep_out]
  simp [← hy0, ← hg0, ← hy1, ← hg1, ← hy2]

/-! ### Responses, faults, refusals -/

@[simp] theorem raiseFault_pstate (code : BitVec 4) (info : Word) (s : State) :
    (raiseFault code info s).pstate = .fault := rfl
@[simp] theorem raiseFault_faultCode (code : BitVec 4) (info : Word) (s : State) :
    (raiseFault code info s).faultCode = code := rfl
@[simp] theorem raiseFault_faultInfo (code : BitVec 4) (info : Word) (s : State) :
    (raiseFault code info s).faultInfo = info := rfl
@[simp] theorem raiseFault_presp (code : BitVec 4) (info : Word) (s : State) :
    (raiseFault code info s).presp = some (faultWord code) := rfl

/-- What fault entry leaves (R244, R245): everything but its four writes. -/
theorem raiseFault_frame (code : BitVec 4) (info : Word) (s : State) :
    raiseFault code info s =
      { s with faultCode := code, faultInfo := info, pstate := .fault, presp := some (faultWord code) } := rfl

/-- What a refusal leaves (R248): everything but its two writes. -/
theorem refuse_frame (s : State) :
    refuse s = { s with cfgErr := true, cresp := some { word := errWord, data := none } } := rfl

@[simp] theorem respondProcessing_presp (w : Word) (s : State) : (respondProcessing w s).presp = some w := rfl
@[simp] theorem respondControl_cresp (r : CResp) (s : State) : (respondControl r s).cresp = some r := rfl
@[simp] theorem takePcmd_pcmd (s : State) : (takePcmd s).pcmd = none := rfl
@[simp] theorem takeCcmd_ccmd (s : State) : (takeCcmd s).ccmd = none := rfl
@[simp] theorem latchWrite_clatch (l : Latched) (s : State) : (latchWrite l s).clatch = l := rfl
@[simp] theorem latchWrite_cstate (l : Latched) (s : State) : (latchWrite l s).cstate = .cWait := rfl

theorem okWord_eq : okWord = 0x00000000#32 := by decide
theorem errWord_eq : errWord = 0x00000001#32 := by decide

/-- The response word of a fault (R244): `0x00000002 OR (code << 8)`. -/
theorem faultWord_eq (code : BitVec 4) : faultWord code = 0x00000002#32 ||| (code.setWidth 32 <<< 8) := rfl

/-! ### Turns -/

/-- Using up a turn touches the schedule and the agent draws only. -/
theorem useTurn_frame (s : State) :
    useTurn s = { s with sched := (useTurn s).sched, agentDraws := (useTurn s).agentDraws } := by
  unfold useTurn; split <;> rfl

theorem useTurn_flt (s : State) : (useTurn s).flt = s.flt := by rw [useTurn_frame]
theorem useTurn_pstate (s : State) : (useTurn s).pstate = s.pstate := by rw [useTurn_frame]
theorem useTurn_cstate (s : State) : (useTurn s).cstate = s.cstate := by rw [useTurn_frame]
theorem useTurn_buf (s : State) : (useTurn s).buf = s.buf := by rw [useTurn_frame]

end Sys2Proof.Machine
end

