-- ==== Sys2Proof/Laws/Steps.lean ====
section
/-! SUPPORT. What a step can do, said once: an effect relation for each agent, and for `step` itself, with the guards
each effect has; every invariant and frame is then a case analysis over named effects. -/

namespace Sys2Proof.Machine

/-! ### Sample frames -/

/-- What one channel of a sample frame does (R152): the word `(c, n)` rewritten, that channel's instances advanced. -/
theorem channelFrame_next {N : NumOps Word} {c : Chan} {s t : State} (h : channelFrame N c s = .next t) :
    ∃ x, bufRead (chanRow c) s.curN.toNat s = .ok x ∧
      t = { s with
        flt := (cascade N c x s).2.flt
        nanDraws := s.nanDraws + 33
        buf := Memory.write s.buf (Memory.addr (chanRow c) s.curN.toNat) (cascade N c x s).1 } := by
  unfold channelFrame at h
  split at h
  · cases h
  · rename_i x hx
    refine ⟨x, hx, ?_⟩
    injection h with h
    rw [← h, bufWrite, cascade_frame]

/-- A channel of a sample frame goes ahead when its word can be read. -/
theorem channelFrame_of_read (N : NumOps Word) {c : Chan} {s : State} {x : Word} (h : bufRead (chanRow c) s.curN.toNat s = .ok x) :
    channelFrame N c s = .next { s with
      flt := (cascade N c x s).2.flt
      nanDraws := s.nanDraws + 33
      buf := Memory.write s.buf (Memory.addr (chanRow c) s.curN.toNat) (cascade N c x s).1 } := by
  unfold channelFrame
  simp only [h]
  rw [bufWrite, cascade_frame]

/-- Everything a sample frame can change: the instances' histories, the draws, the written words of `BUF` and `cur_n`.
Coefficients are kept, written words stay written, the canonical form is kept, and only words of the frame change. -/
structure FrameEffect (s t : State) : Prop where
  frame : t = { s with flt := t.flt, nanDraws := t.nanDraws, buf := t.buf, curN := s.curN + 1#32 }
  coef : ∀ b c, (instanceOf t b c).coef = (instanceOf s b c).coef
  right : s.curNch.toNat ≤ 1 → ∀ b, instanceOf t b .right = instanceOf s b .right
  left : s.curNch.toNat = 0 → ∀ b, instanceOf t b .left = instanceOf s b .left
  memory : Memory.wf s.buf → Memory.wf t.buf
  written : ∀ a, (Memory.read s.buf a).isSome = true → (Memory.read t.buf a).isSome = true
  outside : ∀ a, (∀ c, c < 2 → c < s.curNch.toNat → a ≠ Memory.addr c s.curN.toNat) →
    Memory.read t.buf a = Memory.read s.buf a

/-- Everything the sample-frame step can do (R152). -/
theorem sampleFrame_next {N : NumOps Word} {s t : State} (h : sampleFrame N s = .next t) : FrameEffect s t := by
  unfold sampleFrame channelFrames at h
  split at h
  · rename_i h0
    simp only [andThen, Host.Outcome.next.injEq] at h
    subst h
    exact { frame := rfl, coef := fun _ _ => rfl, right := fun _ _ => rfl, left := fun _ _ => rfl,
            memory := id, written := fun _ => id, outside := fun _ _ => rfl }
  · rename_i h1
    cases hl : channelFrame N .left s with
    | fault r => simp [hl, andThen] at h
    | refused r => simp [hl, andThen] at h
    | next u =>
      simp only [hl, andThen, Host.Outcome.next.injEq] at h
      obtain ⟨x, _, rfl⟩ := channelFrame_next hl
      subst h
      refine { frame := rfl, coef := fun b c => cascade_coef N .left c b x s, right := fun _ b => ?_,
               left := fun h0 => absurd h0 (by omega), memory := fun hm => Memory.wf_write hm _ _,
               written := fun a ha => Memory.isSome_write ha _ _, outside := fun a ha => ?_ }
      · exact cascade_other_channel N (c := .left) (c' := .right) (by decide) b x s
      · exact Memory.read_write_of_ne _ _ (ha 0 (by decide) (by omega))
  · rename_i m h2
    cases hl : channelFrame N .left s with
    | fault r => simp [hl, andThen] at h
    | refused r => simp [hl, andThen] at h
    | next u =>
      cases hr : channelFrame N .right u with
      | fault r => simp [hl, hr, andThen] at h
      | refused r => simp [hl, hr, andThen] at h
      | next v =>
        simp only [hl, hr, andThen, Host.Outcome.next.injEq] at h
        obtain ⟨x, _, rfl⟩ := channelFrame_next hl
        obtain ⟨y, _, rfl⟩ := channelFrame_next hr
        subst h
        refine { frame := rfl, coef := fun b c => ?_, right := fun h0 => absurd h0 (by omega),
                 left := fun h0 => absurd h0 (by omega),
                 memory := fun hm => Memory.wf_write (Memory.wf_write hm _ _) _ _,
                 written := fun a ha => Memory.isSome_write (Memory.isSome_write ha _ _) _ _,
                 outside := fun a ha => ?_ }
        · exact (cascade_coef N .right c b y _).trans (cascade_coef N .left c b x s)
        · refine (Memory.read_write_of_ne _ _ ?_).trans (Memory.read_write_of_ne _ _ ?_)
          · exact ha 1 (by decide) (by omega)
          · exact ha 0 (by decide) (by omega)

/-! ### `PROC` -/

/-- Everything a step of `PROC` can do (R159, R260). -/
inductive ProcEffect (s : State) : State → Prop
  /-- no step, or waiting -/
  | wait : ProcEffect s s
  /-- any frame in `FAULT` (R246) -/
  | answerFault (hf : s.pcmd.isSome = true) (hp : s.pstate = .fault) :
      ProcEffect s (respondProcessing (faultWord s.faultCode) (takePcmd s))
  /-- fault entry with code 1, 2 or 3 on accepting a frame (R241, R244) -/
  | raiseOnAccept (hf : s.pcmd.isSome = true) (hp : s.pstate = .unprepared ∨ s.pstate = .idle) (code : BitVec 4) (info : Word)
      (hc : code = 1#4 ∨ code = 2#4 ∨ code = 3#4) : ProcEffect s (raiseFault code info (takePcmd s))
  /-- `PREPARE` (R141) -/
  | prepare (hf : s.pcmd.isSome = true) (hp : s.pstate = .unprepared ∨ s.pstate = .idle) (hr : s.sreq = none) (blk fsIn : Word)
      (hb : blk.toNat ≤ s.params.maxBlk) :
      ProcEffect s (respondProcessing okWord
        { clearAll (takePcmd s) with
          fs := clampFs fsIn s.params.fsMin
          blk := blk
          sreq := some (.prepare blk (clampFs fsIn s.params.fsMin))
          pstate := .idle })
  /-- `RELEASE` in `UNPREPARED` (R145) -/
  | releaseNothing (hf : s.pcmd.isSome = true) (hp : s.pstate = .unprepared) :
      ProcEffect s (respondProcessing okWord (takePcmd s))
  /-- `RELEASE` in `IDLE` (R145) -/
  | release (hf : s.pcmd.isSome = true) (hp : s.pstate = .idle) (hr : s.sreq = none) :
      ProcEffect s (respondProcessing okWord { takePcmd s with sreq := some .release, pstate := .unprepared })
  /-- `FLUSH` (R158) -/
  | flush (hf : s.pcmd.isSome = true) (hp : s.pstate = .unprepared ∨ s.pstate = .idle) :
      ProcEffect s (respondProcessing okWord (clearAll (takePcmd s)))
  /-- `PROCESS` admitted (R147) -/
  | admitted (hf : s.pcmd.isSome = true) (hd : ∃ f, s.pcmd = some f ∧ isProcessFrame f = true) (hp : s.pstate = .idle) (hr : s.sreq = none)
      (nch ns : Word) (hc : nch.toNat ≤ s.params.maxCh)
      (hn : ns.toNat ≤ s.params.maxBlk) :
      ProcEffect s
        { takePcmd s with curNch := nch, curNs := ns, sreq := some (.fill nch ns), pstate := .pull }
  /-- the source claimed more than was asked (R149) -/
  | raiseOnPull (hp : s.pstate = .pull) (k : Word) (hk : s.sresp = some k) (hn : s.curNs.toNat < k.toNat) :
      ProcEffect s (raiseFault 4#4 0x00000003#32 { s with sresp := none })
  /-- the pull answer with its silence fill (R149, R150) -/
  | pull (hp : s.pstate = .pull) (k : Word) (hk : s.sresp = some k) (hn : k.toNat ≤ s.curNs.toNat)
      (hf : regionFits s s.curNch.toNat s.curNs.toNat = true) :
      ProcEffect s
        { s with
          sresp := none
          curK := k
          buf := Memory.fillRows s.buf (fun _ _ => 0#32) k.toNat (s.curNs.toNat - k.toNat) s.curNch.toNat
          pstate := .snapWait }
  /-- the lock acquired (R195) -/
  | acquire (hp : s.pstate = .snapWait) (hl : s.lock = .free) : ProcEffect s (procAcquire s)
  /-- `SNAP` (R196) -/
  | snapshot (hp : s.pstate = .snapHold) : ProcEffect s (snap s)
  /-- a sample frame (R152) -/
  | frame (hp : s.pstate = .run) (hb : s.actBypass = false) (hn : s.curN.toNat < s.curNs.toNat) (t : State)
      (h : FrameEffect s t) : ProcEffect s t
  /-- completion (R155) -/
  | complete (hp : s.pstate = .run) (hb : s.actBypass = true ∨ s.curN = s.curNs) : ProcEffect s (completeBlock s)

theorem execPrepare_effect {blk fsIn : Word} {s t : State} (hf : s.pcmd.isSome = true)
    (h : execPrepare blk fsIn s = .next t) : ProcEffect s t := by
  unfold execPrepare serveProcessing awaitSreq at h
  cases hp : s.pstate <;> simp only [hp] at h
  all_goals first
    | (injection h with h; subst h; first | exact .wait | exact .answerFault hf hp)
    | (split at h
       · injection h with h; subst h; exact .raiseOnAccept hf (by simp [hp]) _ _ (by simp)
       · split at h
         · injection h with h; subst h
           exact .prepare hf (by simp [hp]) (by assumption) blk fsIn (by omega)
         · injection h with h; subst h; exact .wait)

theorem execRelease_effect {s t : State} (hf : s.pcmd.isSome = true)
    (h : execRelease s = .next t) : ProcEffect s t := by
  unfold execRelease serveProcessing awaitSreq at h
  cases hp : s.pstate <;> simp only [hp] at h
  all_goals first
    | (injection h with h; subst h; first | exact .wait | exact .answerFault hf hp | exact .releaseNothing hf hp)
    | (split at h
       · injection h with h; subst h; exact .release hf hp (by assumption)
       · injection h with h; subst h; exact .wait)

theorem execFlush_effect {s t : State} (hf : s.pcmd.isSome = true)
    (h : execFlush s = .next t) : ProcEffect s t := by
  unfold execFlush serveProcessing at h
  cases hp : s.pstate <;> simp only [hp] at h <;> injection h with h <;> subst h
  all_goals first | exact .wait | exact .answerFault hf hp | exact .flush hf (by simp [hp])

theorem execProcess_effect {nch ns : Word} {s t : State} (hd : ∃ f, s.pcmd = some f ∧ isProcessFrame f = true)
    (h : execProcess nch ns s = .next t) : ProcEffect s t := by
  have hf : s.pcmd.isSome = true := by obtain ⟨f, hf, _⟩ := hd; simp [hf]
  unfold execProcess serveProcessing awaitSreq at h
  cases hp : s.pstate <;> simp only [hp] at h
  all_goals first
    | (injection h with h; subst h
       first | exact .wait | exact .answerFault hf hp | exact .raiseOnAccept hf (by simp [hp]) _ _ (by simp))
    | (split at h
       · injection h with h; subst h; exact .raiseOnAccept hf (by simp [hp]) _ _ (by simp)
       · split at h
         · injection h with h; subst h
           exact .admitted hf hd hp (by assumption) nch ns (by omega) (by omega)
         · injection h with h; subst h; exact .wait)

theorem illegalProcessing_effect {w : Word} {s t : State} (hf : s.pcmd.isSome = true)
    (h : illegalProcessing w s = .next t) : ProcEffect s t := by
  unfold illegalProcessing serveProcessing at h
  cases hp : s.pstate <;> simp only [hp] at h <;> injection h with h <;> subst h
  all_goals first | exact .wait | exact .answerFault hf hp | exact .raiseOnAccept hf (by simp [hp]) _ _ (by simp)

theorem pullAnswer_effect {k : Word} {s t : State} (hp : s.pstate = .pull) (hk : s.sresp = some k)
    (h : pullAnswer k s = .next t) : ProcEffect s t := by
  unfold pullAnswer at h
  split at h
  · injection h with h; subst h; exact .raiseOnPull hp k hk (by assumption)
  · split at h
    · injection h with h; subst h; exact .pull hp k hk (by omega) (by assumption)
    · cases h

/-! ### `CTRLX` -/

/-- Everything a step of `CTRLX` can do (R182, R192, R193, R260). -/
inductive CtrlEffect (s : State) : State → Prop
  /-- no step, or waiting -/
  | wait : CtrlEffect s s
  /-- a frame refused (R248) -/
  | refused (hf : s.ccmd.isSome = true) (hc : s.cstate = .cIdle) : CtrlEffect s (refuse (takeCcmd s))
  /-- a validated write latched (R182) -/
  | latched (hf : s.ccmd.isSome = true) (hc : s.cstate = .cIdle) (l : Latched) (hl : l.valid = true) :
      CtrlEffect s (latchWrite l (takeCcmd s))
  /-- `RD_REG` of a register (R188) -/
  | read (hf : s.ccmd.isSome = true) (hc : s.cstate = .cIdle) (w : Word) :
      CtrlEffect s (respondControl { word := okWord, data := some w } (takeCcmd s))
  /-- the lock acquired (R192) -/
  | acquire (hc : s.cstate = .cWait) (hl : s.lock = .free) : CtrlEffect s (ctrlAcquire s)
  /-- the write, the release and the response (R193) -/
  | write (hc : s.cstate = .cHold) : CtrlEffect s (ctrlWrite s)

theorem execWrCoef_effect {b : Band} {k : Coefs Word} {s t : State} (hf : s.ccmd.isSome = true)
    (h : execWrCoef b k s = .next t) :
    CtrlEffect s t := by
  unfold execWrCoef serveControl at h
  split at h
  · split at h <;> injection h with h <;> subst h
    · exact .latched hf (by assumption) _ (by assumption)
    · exact .refused hf (by assumption)
  · injection h with h; subst h; exact .wait
  · injection h with h; subst h; exact .wait

theorem execWrGain_effect {b : Band} {g : Word} {s t : State} (hf : s.ccmd.isSome = true)
    (h : execWrGain b g s = .next t) :
    CtrlEffect s t := by
  unfold execWrGain serveControl at h
  split at h
  · split at h <;> injection h with h <;> subst h
    · exact .latched hf (by assumption) _ (by assumption)
    · exact .refused hf (by assumption)
  · injection h with h; subst h; exact .wait
  · injection h with h; subst h; exact .wait

theorem execWrEnable_effect {en : Bool} {s t : State} (hf : s.ccmd.isSome = true)
    (h : execWrEnable en s = .next t) : CtrlEffect s t := by
  unfold execWrEnable serveControl at h
  split at h <;> injection h with h <;> subst h
  · exact .latched hf (by assumption) _ rfl
  · exact .wait
  · exact .wait

theorem execRdReg_effect {idx : BitVec 8} {s t : State} (hf : s.ccmd.isSome = true)
    (h : execRdReg idx s = .next t) : CtrlEffect s t := by
  unfold execRdReg serveControl at h
  split at h
  · split at h <;> injection h with h <;> subst h
    · exact .read hf (by assumption) _
    · exact .refused hf (by assumption)
  · injection h with h; subst h; exact .wait
  · injection h with h; subst h; exact .wait

theorem illegalControl_effect {s t : State} (hf : s.ccmd.isSome = true)
    (h : illegalControl s = .next t) : CtrlEffect s t := by
  unfold illegalControl serveControl at h
  split at h <;> injection h with h <;> subst h
  · exact .refused hf (by assumption)
  · exact .wait
  · exact .wait

/-! ### A decoded command belongs to its port -/

/-- A frame decodes only to commands of the port it arrived on (R86). -/
theorem decode_port {p : Port} {f : Frame} {i : Instr} (h : decode p f = .ok i) : i.op.port = p := by
  unfold decode at h
  split at h
  · split at h
    · cases h
    · rename_i o _
      split at h
      · rename_i hport
        split at h
        · have : i.op = o := by
            unfold assemble at h
            split at h <;> (repeat' split at h) <;> first | (cases h; done) | (injection h with h; rw [← h]; rfl)
          rw [this, hport]
        · cases h
      · cases h
  · cases h

/-- Everything accepting a processing-port frame can do (R159). -/
theorem acceptProcessing_effect {f : Frame} {s t : State} (hs : s.pcmd = some f)
    (h : acceptProcessing f s = .next t) : ProcEffect s t := by
  have hf : s.pcmd.isSome = true := by simp [hs]
  unfold acceptProcessing at h
  split at h
  · rename_i i hi
    have hport := decode_port hi
    cases i with
    | prepare blk fs => exact execPrepare_effect hf h
    | release => exact execRelease_effect hf h
    | process nch ns => exact execProcess_effect ⟨f, hs, by simp [isProcessFrame, hi, startsBlock]⟩ h
    | flush => exact execFlush_effect hf h
    | wrCoef b k => cases hport
    | wrGain b g => cases hport
    | wrEnable en => cases hport
    | rdReg idx => cases hport
  · exact illegalProcessing_effect hf h

/-- Everything accepting a control-port frame can do (R182). -/
theorem acceptControl_effect {f : Frame} {s t : State} (hf : s.ccmd.isSome = true)
    (h : acceptControl f s = .next t) : CtrlEffect s t := by
  unfold acceptControl at h
  split at h
  · rename_i i hi
    have hport := decode_port hi
    cases i with
    | prepare blk fs => cases hport
    | release => cases hport
    | process nch ns => cases hport
    | flush => cases hport
    | wrCoef b k => exact execWrCoef_effect hf h
    | wrGain b g => exact execWrGain_effect hf h
    | wrEnable en => exact execWrEnable_effect hf h
    | rdReg idx => exact execRdReg_effect hf h
  · exact illegalControl_effect hf h

theorem procAccept_effect {s t : State} (h : procAccept s = .next t) : ProcEffect s t := by
  unfold procAccept at h
  split at h
  · exact acceptProcessing_effect (by assumption) h
  · injection h with h; subst h; exact .wait

/-- Everything a step of `PROC` can do. -/
theorem procStep_effect {N : NumOps Word} {s t : State} (h : procStepWith N s = .next t) : ProcEffect s t := by
  unfold procStepWith at h
  split at h
  · exact procAccept_effect h
  · exact procAccept_effect h
  · exact procAccept_effect h
  · split at h
    · exact pullAnswer_effect (by assumption) (by assumption) h
    · injection h with h; subst h; exact .wait
  · split at h <;> injection h with h <;> subst h
    · exact .acquire (by assumption) (by assumption)
    · exact .wait
    · exact .wait
  · injection h with h; subst h; exact .snapshot (by assumption)
  · split at h
    · injection h with h; subst h; exact .complete (by assumption) (by assumption)
    · split at h
      · exact .frame (by assumption) (by simp_all) (by assumption) t (sampleFrame_next h)
      · injection h with h; subst h; exact .wait

/-- Everything a step of `CTRLX` can do. -/
theorem ctrlxStep_effect {s t : State} (h : ctrlxStep s = .next t) : CtrlEffect s t := by
  unfold ctrlxStep at h
  split at h
  · split at h
    · exact acceptControl_effect (by simp [*]) h
    · injection h with h; subst h; exact .wait
  · split at h <;> injection h with h <;> subst h
    · exact .acquire (by assumption) (by assumption)
    · exact .wait
    · exact .wait
  · injection h with h; subst h; exact .write (by assumption)

/-! ### The outside agents -/

/-- Everything a step of an outside agent can do (R160 to R164, R181). -/
inductive OutsideEffect (s : State) : State → Prop
  /-- no step -/
  | wait : OutsideEffect s s
  /-- `HOSTP` takes a response (R164) -/
  | takePresp (w : Word) (h : s.presp = some w) :
      OutsideEffect s
        { s with
          presp := none, hostPBlock := false, hostPAnswer := some w, obs := { s.obs with presps := s.obs.presps ++ [w] } }
  /-- `HOSTP` sends a frame (R160) -/
  | sendP (h : hostpFree s = true) (f : Frame) (rest : List HostPAction) :
      OutsideEffect s { s with hostP := rest, pcmd := some f, hostPBlock := isProcessFrame f, hostPAnswer := none }
  /-- `HOSTP` has waited for what its script names -/
  | waited (h : hostpFree s = true) (rest : List HostPAction) : OutsideEffect s { s with hostP := rest }
  /-- `HOSTP` writes a word of `BUF` it owns (R165) -/
  | writeBuf (h : hostpOwnsBuf s = true) (c n : Nat) (v : Word) (rest : List HostPAction) (hin : inBuf s c n = true) :
      OutsideEffect s { s with hostP := rest, buf := Memory.write s.buf (Memory.addr c n) v }
  /-- `HOSTP` reads a word of `BUF` it owns (R165) -/
  | readBuf (h : hostpOwnsBuf s = true) (c n : Nat) (v : Word) (rest : List HostPAction) :
      OutsideEffect s { s with
        hostP := rest
        obs := { s.obs with reads := s.obs.reads ++ [{ row := c, index := n, value := v }] } }
  /-- `HOSTC` takes a response (R181) -/
  | takeCresp (r : CResp) (h : s.cresp = some r) :
      OutsideEffect s
        { s with cresp := none, hostCAnswer := some r.word, obs := { s.obs with cresps := s.obs.cresps ++ [r] } }
  /-- `HOSTC` sends a frame (R181) -/
  | sendC (h : hostcFree s = true) (f : Frame) (rest : List HostCAction) (hs : s.hostC = .send f :: rest) :
      OutsideEffect s { s with hostC := rest, ccmd := some f, hostCAnswer := none }
  /-- `HOSTC` has waited for an `OK` (R225) -/
  | okWaited (h : hostcFree s = true) (ha : s.hostCAnswer = some okWord) (rest : List HostCAction)
      (hs : s.hostC = .awaitOk :: rest) : OutsideEffect s { s with hostC := rest }
  /-- `HOSTC` signals to `HOSTP` (R225) -/
  | signalled (h : hostcFree s = true) (rest : List HostCAction) (hs : s.hostC = .signal :: rest) :
      OutsideEffect s { s with hostC := rest, hostCSignals := s.hostCSignals + 1 }
  /-- the source takes a prepare or release (R163) -/
  | takeReq (r : SrcReq) (h : s.sreq = some r) (hr : ∀ nch ns, r ≠ .fill nch ns) : OutsideEffect s (takeSreq r s)
  /-- the source answers a fill (R162) -/
  | answer (nch ns : Word) (h : s.sreq = some (.fill nch ns)) (a : SrcAnswer) (rest : List SrcAnswer)
      (hf : regionFits s nch.toNat ns.toNat = true) :
      OutsideEffect s
        { takeSreq (.fill nch ns) s with
          source := rest
          buf := Memory.fillRows s.buf a.sample 0 (min a.count.toNat ns.toNat) nch.toNat
          sresp := some a.count }

theorem hostpTake_effect {s t : State} (h : hostpTake s = .next t) : OutsideEffect s t := by
  unfold hostpTake at h
  split at h <;> injection h with h <;> subst h
  · exact .takePresp _ (by assumption)
  · exact .wait

theorem hostpStep_effect {s t : State} (h : hostpStep s = .next t) : OutsideEffect s t := by
  unfold hostpStep at h
  split at h
  · exact hostpTake_effect h
  · rename_i a rest hs
    split at h
    · rename_i hmay
      cases a with
      | send f => injection h with h; subst h; exact .sendP hmay f rest
      | write c n v =>
        simp only [hostpAct] at h
        split at h
        · rename_i hin
          injection h with h; subst h
          exact .writeBuf hmay c n v rest hin
        · cases h
      | read c n =>
        simp only [hostpAct] at h
        split at h
        · injection h with h; subst h; exact .readBuf hmay c n _ rest
        · cases h
      | awaitResponse => injection h with h; subst h; exact .waited hmay rest
      | awaitDone =>
        injection h with h; subst h
        simp only [hostpMay, Bool.and_eq_true] at hmay
        exact .waited hmay.1 rest
      | awaitSignals n =>
        injection h with h; subst h
        simp only [hostpMay, Bool.and_eq_true] at hmay
        exact .waited hmay.1 rest
    · exact hostpTake_effect h

theorem hostcStep_effect {s t : State} (h : hostcStep s = .next t) : OutsideEffect s t := by
  unfold hostcStep at h
  split at h
  · injection h with h; subst h; exact .takeCresp _ (by assumption)
  · split at h
    · injection h with h; subst h; exact .wait
    · rename_i a rest hs
      split at h <;> injection h with h <;> subst h
      · rename_i hmay
        cases a with
        | send f => exact .sendC hmay f rest hs
        | awaitOk =>
          simp only [hostcMay, Bool.and_eq_true, beq_iff_eq] at hmay
          exact .okWaited hmay.1 hmay.2 rest hs
        | signal => exact .signalled hmay rest hs
      · exact .wait

theorem srcStep_effect {s t : State} (h : srcStep s = .next t) : OutsideEffect s t := by
  unfold srcStep at h
  split at h
  · injection h with h; subst h; exact .wait
  · injection h with h; subst h; exact .takeReq _ (by assumption) (by intros; simp)
  · injection h with h; subst h; exact .takeReq _ (by assumption) (by intros; simp)
  · split at h
    · injection h with h; subst h; exact .wait
    · unfold srcAnswer at h
      split at h
      · rename_i hf
        injection h with h; subst h
        exact .answer _ _ (by assumption) _ _ hf
      · cases h

/-! ### Agents, turns, steps -/

/-- Everything a step of an agent can do. -/
inductive AgentEffect (s t : State) : Prop
  | proc (h : ProcEffect s t)
  | ctrlx (h : CtrlEffect s t)
  | outside (h : OutsideEffect s t)

theorem agentStep_effect {N : NumOps Word} {a : Agent} {s t : State} (h : agentStepWith N a s = .next t) : AgentEffect s t := by
  cases a with
  | hostp => exact .outside (hostpStep_effect h)
  | proc => exact .proc (procStep_effect h)
  | src => exact .outside (srcStep_effect h)
  | hostc => exact .outside (hostcStep_effect h)
  | ctrlx => exact .ctrlx (ctrlxStep_effect h)

/-- Using up a turn changes nobody's having a step. -/
theorem hasStep_useTurn (a : Agent) (s : State) : hasStep a (useTurn s) = hasStep a s := by
  rw [useTurn_frame]; cases a <;> rfl

/-- Using up a turn keeps the invariants. -/
theorem inv_useTurn {s : State} (h : s.Inv) : (useTurn s).Inv := by
  rw [useTurn_frame]
  exact
    { coefs := ⟨h.coefs.1, h.coefs.2, h.coefs.3, h.coefs.4, h.coefs.5⟩
      lock := ⟨h.lock.1, h.lock.2⟩
      fault := ⟨h.fault.1, h.fault.2⟩
      ports := ⟨h.ports.1, h.ports.2, h.ports.3, h.ports.4⟩
      pull := ⟨h.pull.1, h.pull.2, h.pull.3⟩
      fits := ⟨h.fits.1, h.fits.2, h.fits.3⟩
      block := ⟨h.block.1, h.block.2⟩
      memory := h.memory
      owner := ⟨h.owner.1, h.owner.2, h.owner.3⟩
      rate := ⟨h.rate.1, h.rate.2⟩ }

/-- A turn that gives a next state is the agent's step, or passes. -/
theorem takeTurn_next {N : NumOps Word} {a : Agent} {s t : State} (h : takeTurn N a s = .next t) :
    (hasStep a s = true ∧ agentStepWith N a s = .next t) ∨ (hasStep a s = false ∧ t = s) := by
  unfold takeTurn at h
  split at h
  · exact .inl ⟨by assumption, h⟩
  · split at h
    · cases h
    · split at h
      · cases h
      · injection h with h
        exact .inr ⟨by simp_all, h.symm⟩

/-- Everything a step of the machine can do: hardware reset, or what an agent's step does, in its turn. -/
theorem step_effect {s t : State} (h : step s = .next t) :
    (nextTurn s = .hardwareReset ∧ t = hardwareReset (useTurn s)) ∨
      ∃ a, nextTurn s = .agent a ∧
        ((hasStep a (useTurn s) = true ∧ agentStep a (useTurn s) = .next t) ∨ t = useTurn s) := by
  unfold step stepWith at h
  split at h
  · rename_i a ha
    exact .inr ⟨a, ha, (takeTurn_next h).imp id And.right⟩
  · injection h with h
    exact .inl ⟨by assumption, h.symm⟩

/-- A step gives what hardware reset gives, or an effect of an agent on the state with the turn used up. -/
theorem step_agentEffect {s t : State} (h : step s = .next t) :
    t = hardwareReset (useTurn s) ∨ AgentEffect (useTurn s) t := by
  obtain ⟨_, rfl⟩ | ⟨a, _, ⟨_, h⟩ | rfl⟩ := step_effect h
  · exact .inl rfl
  · exact .inr (agentStep_effect h)
  · exact .inr (.outside .wait)

/-- No step of an agent raises the bound on the control side's work, and the write step that follows each acquire
lowers it (R74). -/
theorem controlWork_le {s t : State} (h : AgentEffect s t) : controlWork t ≤ controlWork s := by
  obtain h | h | h := h
  · cases h
    case frame e => rw [e.frame]; exact le_rfl
    all_goals exact le_rfl
  · cases h
    case wait => exact le_rfl
    case refused hf hc => simp [controlWork, refuse_frame, takeCcmd, hc]
    case latched hf hc l hl => simp [controlWork, latchWrite, takeCcmd, hf, hc]
    case read hf hc w => simp [controlWork, respondControl, takeCcmd, hc]
    case acquire hc hl => cases hf : s.ccmd <;> simp [controlWork, ctrlAcquire, hc, hf]
    case write hc => cases hl : s.clatch <;> simp [controlWork, ctrlWrite, respondControl, applyLatched, hc, hl]
  · cases h
    case okWaited hf ha rest hs => simp only [controlWork, hs, List.length_cons]; omega
    case signalled hf rest hs => simp only [controlWork, hs, List.length_cons]; omega
    case sendC hf f rest hs =>
      cases hc : s.ccmd with
      | none => simp [controlWork, hs, hc]; omega
      | some g => simp [controlWork, hs, hc]
    all_goals exact le_rfl

/-- The write step of `CTRLX` lowers the bound. -/
theorem controlWork_ctrlWrite {s : State} (hc : s.cstate = .cHold) : controlWork (ctrlWrite s) < controlWork s := by
  cases hl : s.clatch <;> simp [controlWork, ctrlWrite, respondControl, applyLatched, hc, hl]

/-- No command's meaning stops the machine: `exec` always answers a next state. -/
theorem exec_next (i : Instr) (s : State) : ∃ t, exec i s = .next t := by
  cases i <;> simp only [exec, execPrepare, execRelease, execProcess, execFlush, execWrCoef, execWrGain,
    execWrEnable, execRdReg, serveProcessing, serveControl, awaitSreq] <;> (repeat' split) <;> exact ⟨_, rfl⟩

end Sys2Proof.Machine
end

