-- ==== Sys2Proof/Tests/Slice0.lean ====
section
/-! SUPPORT. The model's own tests: the smoke test of the well-formedness checks, words and values worked out by the
spec (spec/95_test_vectors.md, quoted by their labels), and for every statement that has hypotheses a witness that meets
them, clause by clause. -/

namespace Sys2Proof.Tests

open Sys2Proof Sys2Proof.Machine

/-! ### Helpers -/

/-- Parameters small enough to write tests with: `MAXBLK` 8, `MAXCH` 3, `FS_MIN` the smallest positive value. -/
def testParams : Params := { maxBlkLessOne := 7, maxChLessOne := 2, fsMinLessOne := 0 }

/-- The reset state with those parameters. -/
def base : State := { State.reset with params := testParams }

/-- Prepared, nothing in progress. -/
def idle : State := { base with pstate := .idle }

/-- The next state, if there is one. -/
def nextOf (o : Host.Outcome State Fault Refusal) : Option State :=
  match o with
  | .next s => some s
  | .fault _ => none
  | .refused _ => none

/-- A frame from its words. -/
def frame (header : Word) (operands : List Word) : Frame := { header := header, operands := operands }

theorem next_of_isSome {o : Host.Outcome State Fault Refusal} (h : (nextOf o).isSome = true) : ∃ t, o = .next t := by
  cases o with
  | next s => exact ⟨s, rfl⟩
  | fault r => cases h
  | refused r => cases h

/-- LP4, BP4 and HP4 of spec/95_test_vectors.md. -/
def lp4 : Coefs Word := { b0 := 0x3F000000#32, b1 := 0x3F800000#32, b2 := 0x3F000000#32, a0 := 0x40000000#32, a1 := 0#32, a2 := 0#32 }
def bp4 : Coefs Word := { b0 := 0x3F800000#32, b1 := 0#32, b2 := 0xBF800000#32, a0 := 0x40000000#32, a1 := 0#32, a2 := 0#32 }
def hp4 : Coefs Word := { b0 := 0x3F000000#32, b1 := 0xBF800000#32, b2 := 0x3F000000#32, a0 := 0x40000000#32, a1 := 0#32, a2 := 0#32 }

/-! ### Well-formedness: an ill-formed frame for each check (vectors D-4 to D-21) -/

theorem test_wf_opAssigned : (frame 0x00000014#32 []).opAssigned = false ∧ (frame 0x00000014#32 []).wellFormed .processing = false := by
  decide

theorem test_wf_portLegal : (frame 0x00000003#32 [1#32, 1#32]).portLegal .control = false ∧
    (frame 0x00000003#32 [1#32, 1#32]).wellFormed .control = false ∧
    (frame 0x00000003#32 [1#32, 1#32]).wellFormed .processing = true := by decide

theorem test_wf_reservedClear : (frame 0x00000803#32 [1#32, 1#32]).reservedClear = false ∧
    (frame 0x01000003#32 [1#32, 1#32]).reservedClear = false ∧
    (frame 0x80000003#32 [1#32, 1#32]).wellFormed .processing = false := by decide

theorem test_wf_unusedFieldsClear : (frame 0x00000404#32 []).unusedFieldsClear = false ∧
    (frame 0x00010002#32 []).wellFormed .processing = false ∧ (frame 0x00000512#32 []).wellFormed .control = false := by
  decide

theorem test_wf_bandNamed : (frame 0x00000311#32 [0#32]).bandNamed = false ∧
    (frame 0x00000311#32 [0#32]).wellFormed .control = false ∧ (frame 0x00000211#32 [0#32]).wellFormed .control = true := by
  decide

theorem test_wf_lengthRight : (frame 0x00000003#32 [1#32]).lengthRight = false ∧
    (frame 0x00000011#32 []).wellFormed .control = false ∧ (frame 0x00000013#32 [0#32]).wellFormed .control = false := by
  decide

/-! ### Decoding: words written out from R85 and from vectors L1, L7, F1, L9, K1, K11, K14, K15, D-18 -/

theorem test_decode_prepare : decode .processing (frame 0b00000000000000000000000000000001#32 [0x00000004#32, 0x472C4400#32]) =
    .ok (.prepare 0x00000004#32 0x472C4400#32) := by decide

theorem test_decode_release : decode .processing (frame 0b00000000000000000000000000000010#32 []) = .ok .release := by decide

theorem test_decode_process : decode .processing (frame 0b00000000000000000000000000000011#32 [3#32, 10#32]) =
    .ok (.process 3#32 10#32) := by decide

theorem test_decode_flush : decode .processing (frame 0b00000000000000000000000000000100#32 []) = .ok .flush := by decide

theorem test_decode_wrCoef : decode .control (frame 0b00000000000000000000001000010000#32
      [0x3F000000#32, 0xBF800000#32, 0x3F000000#32, 0x40000000#32, 0#32, 0#32]) = .ok (.wrCoef .high hp4) := by decide

theorem test_decode_wrGain : decode .control (frame 0b00000000000000000000000100010001#32 [0x40400000#32]) =
    .ok (.wrGain .mid 0x40400000#32) := by decide

theorem test_decode_wrEnable : decode .control (frame 0b00000000000000000000010000010010#32 []) = .ok (.wrEnable true) ∧
    decode .control (frame 0b00000000000000000000000000010010#32 []) = .ok (.wrEnable false) := by decide

theorem test_decode_rdReg : decode .control (frame 0b00000000001001010000000000010011#32 []) = .ok (.rdReg 0x25#8) := by
  decide

theorem test_decode_illegal : decode .processing (frame 0x00000103#32 [1#32, 1#32]) = .error .fieldNotZero ∧
    decode .processing (frame 0x00000010#32 [0#32, 0#32, 0#32, 0#32, 0#32, 0#32]) = .error .wrongPort ∧
    decode .control (frame 0x00000310#32 [0#32, 0#32, 0#32, 0#32, 0#32, 0#32]) = .error .noSuchBand ∧
    decode .control (frame 0x00130113#32 []) = .error .fieldNotZero ∧
    decode .processing (frame 0x00000000#32 []) = .error .unassignedOp := by decide

/-! ### Arithmetic: the table of spec/95_test_vectors.md 2.1 -/

theorem test_fadd : binary32.fadd 0 0x80000000#32 0#32 = 0#32 ∧ binary32.fadd 0 0x80000000#32 0x80000000#32 = 0x80000000#32 ∧
    binary32.fadd 0 0x4B800000#32 0x3F800000#32 = 0x4B800000#32 := by decide

theorem test_fsub : binary32.fsub 0 0#32 0x80000000#32 = 0#32 ∧ binary32.fsub 0 0x80000000#32 0#32 = 0x80000000#32 := by decide

theorem test_fmul : binary32.fmul 0 0#32 0xBF000000#32 = 0x80000000#32 ∧
    binary32.fmul 0 0x3DCCCCCD#32 0x3DCCCCCD#32 = 0x3C23D70B#32 ∧ binary32.fmul 0 0x3F000000#32 0x00000001#32 = 0#32 ∧
    binary32.fmul 0 0x3F000000#32 0x00000003#32 = 0x00000002#32 ∧
    binary32.fmul 0 0x40000000#32 0x7F7FFFFF#32 = 0x7F800000#32 := by decide

theorem test_fdiv : binary32.fdiv 0 0x3F800000#32 0x40400000#32 = 0x3EAAAAAB#32 ∧
    binary32.fdiv 0 0x00000003#32 0x40000000#32 = 0x00000002#32 := by decide

/-! ### The biquad instance: vectors S11, S13, S14 and the retune and clear of 2.3 -/

theorem test_biquad_S11 : (biquadRun binary32
      { b0 := 0x3E800000#32, b1 := 0x3F000000#32, b2 := 0xBF400000#32, a0 := 0x3F000000#32, a1 := 0x3E800000#32, a2 := 0xBE000000#32 }
      0 clearedHist [0x40000000#32, 0xC0800000#32, 0x41000000#32]) =
    ([0x3F800000#32, 0xBF000000#32, 0xC0200000#32],
      { x1 := 0x41000000#32, x2 := 0xC0800000#32, y1 := 0xC0200000#32, y2 := 0xBF000000#32 }) := by decide

theorem test_biquad_S13_S14 :
    (biquadRun binary32 { b0 := 0x3F000000#32, b1 := 0#32, b2 := 0xBF000000#32, a0 := 0x3FC00000#32, a1 := 0#32, a2 := 0x3F000000#32 }
      0 clearedHist [0x3F800000#32, 0#32, 0#32]).1 = [0x3EAAAAAB#32, 0#32, 0xBEE38E39#32] ∧
    biquadOut binary32 0 { b0 := 0x3F800000#32, b1 := 0x3F800000#32, b2 := 0xBF800000#32, a0 := 0x3F800000#32, a1 := 0#32, a2 := 0#32 }
      { x1 := 0x3F800000#32, x2 := 0x4B800000#32, y1 := 0#32, y2 := 0#32 } 0x4B800000#32 = 0#32 := by decide

/-- 2.3: retune keeps the history, so the next output is 2.0. -/
theorem test_retune : let q := bqRetune lp4 { coef := identityCoefs, hist := { x1 := 0x40000000#32, x2 := 0x3F800000#32, y1 := 0x40000000#32, y2 := 0x3F800000#32 } }
    biquadOut binary32 0 q.coef q.hist 0x40400000#32 = 0x40000000#32 := by decide

/-! ### Commands, one step each -/

/-- L1. -/
theorem test_prepare_L1 : (nextOf (exec (.prepare 4#32 0x472C4400#32) base)).map
      (fun t => (t.fs, t.blk, t.pstate, t.sreq, t.presp)) =
    some (0x472C4400#32, 4#32, .idle, some (.prepare 4#32 0x472C4400#32), some 0#32) := by decide

/-- L4 and L5, with `MAXBLK` 8. -/
theorem test_prepare_L4_L5 : (nextOf (exec (.prepare 4#32 0x7F800000#32) idle)).map (·.fs) = some 0x7F7FFFFF#32 ∧
    (nextOf (exec (.prepare 9#32 0x472C4400#32) idle)).map (fun t => (t.faultCode, t.faultInfo, t.presp, t.sreq, t.fs)) =
      some (2#4, 1#32, some 0x00000202#32, none, 0#32) := by decide

/-- L7, L8. -/
theorem test_release_L7_L8 : (nextOf (exec .release idle)).map (fun t => (t.pstate, t.sreq, t.presp)) =
      some (.unprepared, some .release, some 0#32) ∧
    (nextOf (exec .release base)).map (fun t => (t.pstate, t.sreq, t.presp)) = some (.unprepared, none, some 0#32) := by
  decide

/-- F1 (fault 1 before the operands are looked at, F2). -/
theorem test_process_F1_F2 : (nextOf (exec (.process 4#32 10#32) base)).map (fun t => (t.faultCode, t.faultInfo, t.presp, t.sreq)) =
    some (1#4, 3#32, some 0x00000102#32, none) := by decide

/-- F3, and the admission of `PROCESS 1, 4` (P1). -/
theorem test_process_F3_P1 : (nextOf (exec (.process 4#32 1#32) idle)).map (fun t => (t.faultCode, t.presp, t.sreq)) =
      some (2#4, some 0x00000202#32, none) ∧
    (nextOf (exec (.process 1#32 4#32) idle)).map (fun t => (t.pstate, t.sreq, t.presp, t.curNs)) =
      some (.pull, some (.fill 1#32 4#32), none, 4#32) := by decide

/-- An instance as 2.3 has it before `BQ.CLEAR`. -/
def dirty : Biquad Word :=
  { coef := lp4, hist := { x1 := 0x3F800000#32, x2 := 0x3F000000#32, y1 := 0x7FC00000#32, y2 := 0xC0400000#32 } }

/-- L9, on the instance of 2.3. -/
theorem test_flush_L9 : (nextOf (exec .flush { idle with flt := idle.flt.set .mid { left := resetBiquad, right := dirty } })).map
      (fun t => (instanceOf t .mid .right, t.presp)) = some ({ dirty with hist := clearedHist }, some 0#32) := by decide

/-- K1, K7: accepted. -/
theorem test_wrCoef_K1_K7 : (nextOf (exec (.wrCoef .low lp4) base)).map (fun t => (t.cstate, t.clatch, t.cresp)) =
      some (.cWait, .wrCoef .low lp4, none) ∧
    (nextOf (exec (.wrCoef .low { lp4 with a0 := 0x00000001#32 }) base)).map (·.cstate) = some .cWait := by decide

/-- K4, K5, K6: refused. -/
theorem test_wrCoef_K4_K6 : (nextOf (exec (.wrCoef .low { identityCoefs with a0 := 0#32 }) base)).map
      (fun t => (t.cresp, t.cfgErr, t.cstate)) = some (some { word := 1#32, data := none }, true, .cIdle) ∧
    (nextOf (exec (.wrCoef .low { identityCoefs with a0 := 0x80000000#32 }) base)).map (·.cfgErr) = some true ∧
    (nextOf (exec (.wrCoef .low { identityCoefs with b1 := 0x7F800000#32 }) base)).map (·.cfgErr) = some true := by decide

/-- K12, K13. -/
theorem test_wrGain_K12_K13 : (nextOf (exec (.wrGain .mid 0x80000000#32) base)).map (·.cstate) = some .cWait ∧
    (nextOf (exec (.wrGain .low 0x7FC00000#32) base)).map (fun t => (t.cfgErr, t.cresp)) =
      some (true, some { word := 1#32, data := none }) := by decide

/-- K14: the write step of `WR_ENABLE 0`. -/
theorem test_wrEnable_K14 : (nextOf (exec (.wrEnable false) base)).map (·.clatch) = some (.wrEnable false) ∧
    (ctrlWrite { base with lock := .ctrl, cstate := .cHold, clatch := .wrEnable false }).cfgBypass = true := by decide

/-- K16 and K17, as the first step after reset with nothing but the frame placed. -/
theorem test_rdReg_K16_K17 : (nextOf (step (State.reset.withFetchWord 32 0x00000013))).map (·.cresp) =
      some (some { word := 0#32, data := some 0x00000010#32 }) ∧
    (nextOf (step (State.reset.withFetchWord 32 0x00130013))).map (·.cresp) =
      some (some { word := 0#32, data := some 0x3F800000#32 }) := by decide

/-- K19. -/
theorem test_rdReg_K19 : [0x07#8, 0x16#8, 0x1E#8, 0x26#8, 0xFF#8].map (fun i => (nextOf (exec (.rdReg i) base)).map (·.cresp)) =
    List.replicate 5 (some (some { word := 1#32, data := none })) := by decide

/-- L10, F7: in `FAULT` an illegal frame too is answered with the first fault. -/
theorem test_fault_F7 : (nextOf (procStep { base with pstate := .fault, faultCode := 1#4, faultInfo := 3#32, pcmd := some (frame 0x000000FF#32 []) })).map
      (fun t => (t.faultCode, t.faultInfo, t.presp)) = some (1#4, 3#32, some 0x00000102#32) := by decide

/-- F5: a short `PROCESS` frame is illegal before it is not prepared. -/
theorem test_fault_F5 : (nextOf (procStep { base with pcmd := some (frame 3#32 [1#32]) })).map
      (fun t => (t.faultCode, t.faultInfo, t.presp)) = some (3#4, 3#32, some 0x00000302#32) := by decide

/-- B8: the silence fill after one sample of three. -/
theorem test_pull_B8 : (nextOf (procStep { idle with
      pstate := .pull, curNch := 2#32, curNs := 3#32, sresp := some 1#32
      buf := [(Memory.addr 0 0, 0x3F800000#32), (Memory.addr 1 0, 0x40000000#32)] })).map (fun t => (t.buf, t.pstate)) =
    some ([(Memory.addr 0 0, 0x3F800000#32), (Memory.addr 0 1, 0#32), (Memory.addr 0 2, 0#32),
        (Memory.addr 1 0, 0x40000000#32), (Memory.addr 1 1, 0#32), (Memory.addr 1 2, 0#32)], .snapWait) := by decide

/-- The example of R152: gains 2.0, 1.0, 0.5, one sample 0.75. -/
theorem test_frame_R152 :
    let gains : PerBand Word := { low := 0x40000000#32, mid := 0x3F800000#32, high := 0x3F000000#32 }
    let s : State := { idle with pstate := .run, curNch := 1#32, curNs := 1#32, actGain := gains, buf := [(0, 0x3F400000#32)] }
    (nextOf (procStep s)).map (fun t => (t.buf, t.curN)) = some ([(0, 0x3F400000#32)], 1#32) ∧
      (nextOf (procStep s)).map (fun t => (instanceOf t .mid .left).hist.x1) = some 0x3FC00000#32 ∧
      (nextOf (procStep s)).map (fun t => (instanceOf t .high .left).hist.y1) = some 0x3FC00000#32 := by
  decide +kernel

/-! ### Witnesses: for each statement with hypotheses, states and operands that meet them -/

theorem test_witness_HardwareResetPutsEveryRegister :
    nextTurn { idle with sched := [.hardwareReset], lock := .proc, pstate := .snapHold } = .hardwareReset := by decide

theorem test_witness_TurnRunsTheDecodedCommand :
    (let s : State := { idle with pcmd := some (frame 2#32 []), sched := [.agent .proc] };
      nextTurn s = .agent .proc ∧ s.pstate.accepting = true ∧ decode .processing (frame 2#32 []) = .ok .release ∧
        s.sreq = none) ∧
    (let s : State := { idle with pcmd := some (frame 2#32 []), sreq := some .release, sched := [.agent .proc] };
      s.pstate.accepting = true ∧ hasStep .src s = true) ∧
    (let s : State := { idle with ccmd := some (frame 0x00FF0013#32 []), sched := [.agent .ctrlx] };
      nextTurn s = .agent .ctrlx ∧ s.cstate = .cIdle ∧ decode .control (frame 0x00FF0013#32 []) = .ok (.rdReg 0xFF#8)) := by
  decide

theorem test_witness_IllegalFramesFaultOrAreRefused :
    (let s : State := { base with pcmd := some (frame 0xFFFFFFFF#32 []), sched := [.agent .proc] };
      nextTurn s = .agent .proc ∧ s.pstate = .unprepared ∧ (frame 0xFFFFFFFF#32 []).wellFormed .processing = false) ∧
    (let s : State := { base with ccmd := some (frame 0x00000310#32 []), sched := [.agent .ctrlx] };
      nextTurn s = .agent .ctrlx ∧ s.cstate = .cIdle ∧ (frame 0x00000310#32 []).wellFormed .control = false) := by decide

theorem test_witness_DecodedHeaderSelectsOnlyItsRow :
    decode .control (frame 0x00000211#32 [0#32]) = .ok (.wrGain .high 0#32) ∧
      ({ op := .wrGain, pattern := 0x00000011#32, mask := 0xFFFFFCFF#32 } : OpcodeRow) ∈ opcodeRows := by decide

theorem test_witness_DecodedFrameIsTheEncoding :
    decode .processing (frame 1#32 [0xFFFFFFFF#32, 0x7FC00000#32]) = .ok (.prepare 0xFFFFFFFF#32 0x7FC00000#32) := by decide

theorem test_witness_FaddRoundsTheExactSum :
    (isNaN 0x7F800001#32 = true ∧ isInf 0x7F800000#32 = true ∧ isInf 0xFF800000#32 = true ∧
        signBit 0x7F800000#32 ≠ signBit 0xFF800000#32) ∧
      isFinite 0x7F7FFFFF#32 = true ∧ isFinite 0x80000001#32 = true ∧
      units 0x00000001#32 + units 0x80000001#32 = 0 ∧ units 0x7F7FFFFF#32 + units 0x7F7FFFFF#32 ≠ 0 := by decide

theorem test_witness_FmulRoundsTheExactProduct :
    (isZero 0x80000000#32 = true ∧ isInf 0xFF800000#32 = true) ∧
      (isNaN 0xFF800000#32 = false ∧ isZero 0xFF800000#32 = false ∧ isInf 0x00000001#32 = false) ∧
      isFinite 0x7F7FFFFF#32 = true ∧ isFinite 0x80000001#32 = true ∧ isNaN 0x7F7FFFFF#32 = false := by decide

theorem test_witness_FdivRoundsTheExactQuotient :
    (isFinite 0x00000001#32 = true ∧ isZero 0x00000001#32 = false ∧ isZero 0x80000000#32 = true) ∧
      (isFinite 0#32 = true ∧ isInf 0xFF800000#32 = true) ∧
      (isFinite 0x7F7FFFFF#32 = true ∧ isFinite 0x80000001#32 = true ∧ isZero 0x80000001#32 = false) := by decide

/-- Both sides of `RoundsTo` are met: a sum that overflows and one that does not. -/
theorem test_witness_RoundsTo :
    (((1 : Nat) : Int) * 2 ^ 253 * (2 * 2 ^ 24) ≤ 2 * |units 0x7F7FFFFF#32 + units 0x7F7FFFFF#32| + ((1 : Nat) : Int) * 2 ^ 253) ∧
      (2 * |units 0x7F7FFFFF#32 + units 0x00000001#32| + ((1 : Nat) : Int) * 2 ^ 253 < ((1 : Nat) : Int) * 2 ^ 253 * (2 * 2 ^ 24)) := by
  have h1 : units 0x7F7FFFFF#32 = 16777215 * 2 ^ 253 := by decide
  have h2 : units 0x00000001#32 = 1 := by decide
  rw [h1, h2]
  norm_num [abs_of_pos]

theorem test_witness_ExactInstanceSatisfiesTheDifferenceEquation :
    let k : Coefs ℚ := { b0 := 1, b1 := 2, b2 := 3, a0 := 4, a1 := -1, a2 := 1 / 2 }
    k.a0 ≠ 0 ∧ 2 < ([1, 1, 1] : List ℚ).length := by
  norm_num

theorem test_witness_IdentitySetPassesFiniteSamplesThrough :
    isFinite 0x7F7FFFFF#32 = true ∧ isFinite 0xFF7FFFFF#32 = true ∧ isFinite 0x80000000#32 = true ∧
      isFinite 0x00000001#32 = true ∧ isZero 0x00000001#32 = false := by decide

theorem test_witness_NaNInputPoisonsEveryLaterOutput :
    isNaN 0xFFFFFFFF#32 = true ∧
      (biquadRun binary32 identityCoefs 0 clearedHist [0xFFFFFFFF#32, 0#32]).1.length = 2 := by
  refine ⟨by decide, rfl⟩

theorem test_witness_PrepareStoresClearsAndTellsTheSource :
    (base.pstate = .unprepared ∧ base.params.maxBlk < (9#32).toNat) ∧
      (idle.pstate = .idle ∧ (8#32).toNat ≤ idle.params.maxBlk ∧ idle.sreq = none) ∧
      (let s : State := { idle with sreq := some .release, pcmd := some (encode (.prepare 8#32 0#32)) };
        s.sreq ≠ none ∧ s.pcmd = some (encode (.prepare 8#32 0#32))) := by decide

theorem test_witness_SampleRateIsClampedToTheNearestValid :
    isNaN 0x7FC00000#32 = true ∧ (isFinite 0x00000000#32 = true ∧ units 0x00000000#32 < units testParams.fsMin) ∧
      (isFinite testParams.fsMin = true ∧ units testParams.fsMin ≤ units testParams.fsMin) := by decide

theorem test_witness_ReleaseTellsTheSourceAndUnprepares :
    base.pstate = .unprepared ∧ (idle.pstate = .idle ∧ idle.sreq = none) ∧
      (let s : State := { idle with sreq := some .release, pcmd := some (encode .release) };
        s.pstate = .idle ∧ s.sreq ≠ none ∧ s.pcmd = some (encode .release)) := by
  decide

theorem test_witness_FlushClearsAllHistoryAndNothingElse : base.pstate = .unprepared ∧ idle.pstate = .idle := by decide

theorem test_witness_ProcessIsAdmittedOrFaults :
    base.pstate = .unprepared ∧ idle.pstate = .idle ∧ idle.params.maxCh < (4#32).toNat ∧ idle.params.maxBlk < (9#32).toNat ∧
      (3#32).toNat ≤ idle.params.maxCh ∧ (8#32).toNat ≤ idle.params.maxBlk ∧ idle.sreq = none ∧
      (let s : State := { idle with sreq := some .release, pcmd := some (encode (.process 3#32 8#32)) };
        s.sreq ≠ none ∧ s.pcmd = some (encode (.process 3#32 8#32))) := by decide

/-- A block of the whole buffer whose answer is there; its registers fit `BUF`. -/
def answered (k : Word) : State := { idle with pstate := .pull, curNch := 3#32, curNs := 8#32, sresp := some k }

theorem test_witness_PullAnswerFillsTheShortfallWithSilence :
    ((answered 9#32).pstate = .pull ∧ (answered 9#32).curNs.toNat < (9#32).toNat) ∧
      ((answered 8#32).pstate = .pull ∧ (8#32).toNat ≤ (answered 8#32).curNs.toNat ∧
        (answered 8#32).curNch.toNat ≤ (answered 8#32).params.maxCh ∧
        (answered 8#32).curNs.toNat ≤ (answered 8#32).params.maxBlk) := by decide

/-- A fill of the whole buffer is outstanding, with an answer of five samples a row. -/
def filling : State :=
  { idle with
    fs := 0x472C4400#32, hostPBlock := true
    pstate := .pull, curNch := 3#32, curNs := 8#32, sreq := some (.fill 3#32 8#32)
    source := [{ count := 5#32, rows := [[0x3F800000#32], [0x7FC00000#32, 0x80000000#32]] }]
    sched := [.agent .src] }

theorem test_witness_SourceAnswerWritesOnlyTheRequestedRegion :
    (({ base with sreq := some .release } : State).sreq = some .release ∧
      ({ idle with sreq := some (.prepare 8#32 1#32) } : State).sreq = some (.prepare 8#32 1#32)) ∧
    filling.sreq = some (.fill 3#32 8#32) ∧
      filling.source = { count := 5#32, rows := [[0x3F800000#32], [0x7FC00000#32, 0x80000000#32]] } :: [] ∧
      (3#32).toNat ≤ filling.params.maxCh ∧ (8#32).toNat ≤ filling.params.maxBlk := by decide

theorem test_witness_SnapshotCopiesTheWholeGuardedUnit :
    ({ idle with pstate := .snapHold, lock := .proc } : State).pstate = .snapHold := by decide

theorem test_witness_WaitersTakeTheLockOnlyWhenFree :
    (let s : State := { idle with cstate := .cWait, pstate := .snapWait };
      s.cstate = .cWait ∧ s.pstate = .snapWait ∧ s.lock = .free) ∧
    (let s : State := { idle with cstate := .cWait, pstate := .snapHold, lock := .proc };
      s.cstate = .cWait ∧ s.lock ≠ .free) ∧
    (let s : State := { idle with cstate := .cHold, pstate := .snapWait, lock := .ctrl };
      s.pstate = .snapWait ∧ s.lock ≠ .free) := by decide

/-- In the loop at the last frame of a block of two filtered rows and one more. -/
def looping : State :=
  { idle with
    pstate := .run, curNch := 3#32, curNs := 8#32, curN := 7#32
    buf := [(Memory.addr 0 7, 0x3F800000#32), (Memory.addr 1 7, 0x7FC00000#32)]
    sched := [.agent .proc] }

theorem test_witness_SampleFrameRunsTheBandsInSeries :
    looping.pstate = .run ∧ looping.actBypass = false ∧ looping.curN.toNat < looping.curNs.toNat ∧
      ∀ c, chanRow c < looping.curNch.toNat → bufRead (chanRow c) looping.curN.toNat looping =
        .ok (match c with | .left => 0x3F800000#32 | .right => 0x7FC00000#32) := by
  refine ⟨by decide, by decide, by decide, fun c _ => ?_⟩
  cases c <;> decide

theorem test_witness_CompletionTouchesNothingElse :
    (let s : State := { looping with actBypass := true }; s.pstate = .run ∧ s.actBypass = true) ∧
      (let s : State := { looping with curN := 8#32 }; s.pstate = .run ∧ s.curN = s.curNs) := by decide

/-- A `PROCESS` of the whole buffer is there, with an answer and its turns. -/
def starting (bypass : Bool) (turns : List Turn) : State :=
  { idle with
    pcmd := some (encode (.process 3#32 8#32)), cfgBypass := bypass
    source := [{ count := 8#32, rows := [[0x3F800000#32]] }], sched := turns }

theorem test_witness_FilteredBlockCompletesInItsSteps :
    let s := starting false (.agent .proc :: .agent .src :: (List.replicate (4 + (8#32).toNat) (.agent .proc) ++ []))
    s.pstate = .idle ∧ s.pcmd = some (encode (.process 3#32 8#32)) ∧ s.sreq = none ∧ s.lock = .free ∧
      (3#32).toNat ≤ s.params.maxCh ∧ (8#32).toNat ≤ s.params.maxBlk ∧
      s.source = { count := 8#32, rows := [[0x3F800000#32]] } :: [] ∧ (8#32).toNat ≤ (8#32).toNat ∧ s.cfgBypass = false := by
  decide

theorem test_witness_BypassedBlockPassesTheSourceThrough :
    let s := starting true [.agent .proc, .agent .src, .agent .proc, .agent .proc, .agent .proc, .agent .proc]
    s.pstate = .idle ∧ s.pcmd = some (encode (.process 3#32 8#32)) ∧ s.sreq = none ∧ s.lock = .free ∧
      (3#32).toNat ≤ s.params.maxCh ∧ (8#32).toNat ≤ s.params.maxBlk ∧
      s.source = { count := 8#32, rows := [[0x3F800000#32]] } :: [] ∧ (8#32).toNat ≤ (8#32).toNat ∧ s.cfgBypass = true := by
  decide

/-- Waiting for the lock, and holding it, with a command latched. -/
def waiting (l : Latched) : State := { idle with cstate := .cWait, clatch := l }
def holding (l : Latched) : State := { idle with cstate := .cHold, lock := .ctrl, clatch := l }

/-- The lock is with the processing side. -/
def lockedOut : State := { idle with pstate := .snapHold, lock := .proc }

theorem test_witness_WrCoefReplacesThePendingSet :
    (base.cstate = .cIdle ∧ lockedOut.cstate = .cIdle ∧ coefsFinite { lp4 with a0 := 0x80000001#32 } = true) ∧
      ((waiting (.wrCoef .high lp4)).cstate = .cWait ∧ (waiting (.wrCoef .high lp4)).lock = .free) ∧
      (holding (.wrCoef .high lp4)).clatch = .wrCoef .high lp4 ∧
      coefsFinite { lp4 with a2 := 0x7F800000#32 } = false ∧ ({ lp4 with a0 := 0x80000000#32 } : Coefs Word).a0 = 0x80000000#32 := by
  decide

theorem test_witness_WrGainReplacesThePendingGain :
    (base.cstate = .cIdle ∧ lockedOut.cstate = .cIdle ∧ isFinite 0x7F7FFFFF#32 = true) ∧
      ((waiting (.wrGain .low 0#32)).clatch = .wrGain .low 0#32 ∧ (waiting (.wrGain .low 0#32)).lock = .free) ∧
      (holding (.wrGain .low 0#32)).cstate = .cHold ∧ isInf 0x7F800000#32 = true ∧ isNaN 0x7F800001#32 = true := by decide

theorem test_witness_WrEnableSetsThePendingBypass :
    base.cstate = .cIdle ∧ lockedOut.cstate = .cIdle ∧ (waiting (.wrEnable true)).lock = .free ∧
      (holding (.wrEnable true)).clatch = .wrEnable true := by decide

theorem test_witness_RdRegReadsTheRegisterMap :
    base.cstate = .cIdle ∧ (0x06#8).toNat = 0x04 + (bandNumber .high).toNat ∧
      (0x10#8).toNat = 0x10 + 8 * (bandNumber .low).toNat + 0 ∧ (0x25#8).toNat = 0x10 + 8 * (bandNumber .high).toNat + 5 ∧
      [0x07#8, 0x0F#8, 0x16#8, 0x1F#8, 0x26#8, 0x28#8, 0xFF#8].all (fun i =>
        7 ≤ i.toNat && (i.toNat < 0x10 || 0x28 ≤ i.toNat || 6 ≤ i.toNat % 8)) = true := by decide

theorem test_witness_FaultStateAnswersEveryFrame :
    ({ base with pstate := .fault, faultCode := 4#4, pcmd := some (frame 0#32 []) } : State).pstate = .fault := by decide

theorem test_witness_OnlyHardwareResetLeavesFault :
    (let s : State := { base with pstate := .fault, faultCode := 1#4, pcmd := some (frame 0#32 []), sched := [.agent .proc] };
      s.pstate = .fault ∧ nextTurn s ≠ .hardwareReset ∧ (nextOf (step s)).isSome = true) ∧
    (let s : State := { base with pstate := .fault, faultCode := 1#4, sched := [.hardwareReset] };
      s.pstate = .fault ∧ nextTurn s = .hardwareReset ∧ (nextOf (step s)).isSome = true) := by decide

theorem test_witness_FaultsArePrecise :
    (let s : State := { base with pcmd := some (frame 0#32 []) };
      s.pstate ≠ .fault ∧ (nextOf (procStep s)).map (·.pstate) = some .fault) ∧
    (answered 9#32).pstate ≠ .fault ∧ (nextOf (procStep (answered 9#32))).map (·.pstate) = some .fault := by decide

theorem test_witness_ControlSideNeverTouchesTheProcessingSide :
    (nextOf (ctrlxStep { looping with cstate := .cHold, lock := .ctrl })).isSome = true ∧
      (nextOf (hostcStep { looping with hostC := [.send (frame 0#32 [])] })).isSome = true := by decide

theorem test_witness_OutsideAgentsChangeNoRegister :
    (nextOf (hostpStep { idle with hostP := [.write 2 7 0#32] })).isSome = true ∧
      (nextOf (hostcStep { idle with hostC := [.send (frame 0#32 [])] })).isSome = true ∧ (nextOf (srcStep filling)).isSome = true := by
  decide

theorem test_witness_HostsSendOneCommandAtATime :
    (let s : State := { base with hostP := [.send (frame 0#32 [])] };
      s.pcmd = none ∧ s.presp = none ∧ s.pstate = .unprepared) ∧
    (let s : State := { looping with hostP := [.send (frame 0#32 [])] };
      s.presp = none ∧ s.pstate.busy = true) ∧
    (let s : State := { base with hostP := [.awaitDone], hostPAnswer := some 0x00000202#32 };
      s.presp = none ∧ s.hostPAnswer ≠ some 0#32) ∧
    (let s : State := { base with hostP := [.awaitSignals 1] }; s.presp = none ∧ s.hostCSignals < 1) ∧
    (let s : State := { base with hostC := [.send (frame 0#32 [])] };
      s.ccmd = none ∧ s.cresp = none ∧ s.cstate = .cIdle) ∧
    (let s : State := { base with hostC := [.awaitOk], hostCAnswer := some 1#32 };
      s.cresp = none ∧ s.hostCAnswer ≠ some 0#32) ∧
    (let s : State := { base with hostC := [.signal], sched := [.agent .hostc] };
      (nextOf (step s)).map (·.hostCSignals) = some 1 ∧ s.hostCSignals = 0) ∧
    (let s : State := { base with cstate := .cWait }; s.cresp = none ∧ s.cstate ≠ .cIdle) ∧
    ({ base with presp := some 0#32 } : State).presp = some 0#32 ∧
    ({ base with cresp := some { word := 0#32, data := none } } : State).cresp = some { word := 0#32, data := none } := by
  decide

theorem test_witness_HostAccessGoes :
    HostAccessGoes { idle with hostP := [.read 0 0], presp := some 0#32 } ∧
      ¬ HostAccessGoes { looping with hostP := [.read 0 0] } ∧ ¬ HostAccessGoes { idle with presp := some 0#32 } := by
  refine ⟨⟨.inr ⟨0, 0, [], rfl⟩, rfl, rfl⟩, fun h => ?_, fun h => ?_⟩
  · exact absurd h.2.1 (by decide)
  · rcases h.1 with ⟨c, n, v, rest, h⟩ | ⟨c, n, rest, h⟩ <;> cases h

theorem test_witness_HostReadsTheWordOrFaults :
    (let s : State := { idle with pcmd := some (encode .flush) }; s.hostPBlock = false ∧ s.pstate = .idle) ∧
      2 < idle.params.maxCh ∧ 7 < idle.params.maxBlk ∧
      (let s : State := { idle with hostP := [.read 2 7], buf := [(Memory.addr 2 7, 1#32)] };
        s.hostP = .read 2 7 :: [] ∧ Memory.read s.buf (Memory.addr 2 7) = some 1#32) ∧
      Memory.read idle.buf (Memory.addr 2 7) = none ∧ idle.params.maxCh ≤ 3 ∧ idle.params.maxBlk ≤ 8 := by decide

/-- R61, R76: with a `FLUSH` outstanding `HOSTP` may write `BUF`; with a `PROCESS` outstanding, or its response not taken,
it may not. -/
theorem test_host_owns_buffer :
    (let s : State := { idle with pcmd := some (encode .flush), hostP := [.write 0 0 1#32] };
      hasStep .hostp s = true ∧ (nextOf (hostpStep s)).map (·.buf) = some [(0, 1#32)]) ∧
    (let s : State := { idle with hostP := [.send (encode (.process 1#32 1#32)), .read 0 0] };
      (nextOf (hostpStep s)).map (hasStep .hostp) = some false) ∧
    (let s : State := { idle with presp := some 0#32, hostPBlock := true, hostP := [.write 0 0 1#32] };
      (nextOf (hostpStep s)).map (fun t => (t.presp, t.hostPBlock, t.buf)) = some (none, false, [])) := by decide

/-- R225: a `PREPARE` answered with a fault, and a signal of `HOSTC` not given, hold `HOSTP` back; and a write answered
`ERR` holds `HOSTC` back. -/
theorem test_host_waits :
    let next : HostPAction := .send (encode (.process 1#32 1#32))
    let p (a : HostPAction) (w : Word) (n : Nat) : State :=
      { idle with hostP := [a, next], hostPAnswer := some w, hostCSignals := n }
    let c (w : Word) : State := { idle with hostC := [.awaitOk, .signal], hostCAnswer := some w }
    hasStep .hostp (p .awaitDone 0x00000202#32 0) = false ∧ hasStep .hostp (p .awaitDone 0#32 0) = true ∧
      hasStep .hostp (p (.awaitSignals 1) 0#32 0) = false ∧
      (nextOf (hostpStep (p (.awaitSignals 1) 0#32 1))).map (·.hostP) = some [next] ∧
      hasStep .hostc (c 1#32) = false ∧ (nextOf (hostcStep (c 0#32))).map (·.hostC) = some [.signal] := by decide

theorem test_witness_OnlySnapChangesTheActiveCopies :
    (nextOf (step looping)).isSome = true ∧ nextTurn looping ≠ .hardwareReset ∧
      ¬ (nextTurn looping = .agent .proc ∧ looping.pstate = .snapHold) := by decide

theorem test_witness_OnlyTheControlWriteChangesTheGuardedUnit :
    let s : State := { idle with cstate := .cHold, lock := .ctrl, clatch := .wrEnable false, sched := [.agent .ctrlx] }
    s.LockOwned ∧ (nextOf (step s)).isSome = true ∧ nextTurn s ≠ .hardwareReset := by
  refine ⟨⟨by decide, by decide⟩, by decide, by decide⟩

theorem test_witness_RunningBlockCannotSeeTheGuardedUnit :
    looping.pstate = .run ∧ (nextOf (procStep looping)).isSome = true := by decide

/-- The invariants hold in a state in the middle of a `PROCESS`, and the machine has a next step there. -/
theorem test_witness_EveryStepKeepsTheInvariants : filling.Inv ∧ (nextOf (step filling)).isSome = true := by
  refine ⟨?_, by decide⟩
  constructor
  · constructor
    · intro b; cases b <;> decide
    · intro b c; cases b <;> cases c <;> decide
    · intro b; cases b <;> decide
    · intro b; cases b <;> decide
    · decide
  · exact ⟨by decide, by decide⟩
  · exact ⟨by decide, by decide⟩
  · exact ⟨by decide, by decide, by decide, by decide⟩
  · refine ⟨fun nch ns h => ?_, by decide, by decide⟩
    injection h with h
    injection h with h1 h2
    exact ⟨rfl, h1.symm, h2.symm⟩
  · exact ⟨by decide, by decide, by decide⟩
  · refine ⟨fun k h => ?_, fun h => ?_⟩
    · cases h
    · exact absurd h (by decide)
  · exact List.Pairwise.nil
  · exact ⟨fun _ _ _ => rfl, fun _ => rfl, fun _ => .inr (.inr rfl)⟩
  · have h : validRate filling.params filling.fs := by unfold validRate; decide
    exact ⟨.inr h, fun _ => h⟩

theorem test_witness_EveryStepKeepsCoefficientsValid : filling.CoefsValid ∧ (nextOf (step filling)).isSome = true :=
  ⟨test_witness_EveryStepKeepsTheInvariants.1.coefs, by decide⟩

theorem test_witness_EveryStepKeepsTheLockOwned : filling.LockOwned ∧ (nextOf (step filling)).isSome = true :=
  ⟨test_witness_EveryStepKeepsTheInvariants.1.lock, by decide⟩

theorem test_witness_OnlyTheHostCanReadAnUnwrittenWord : filling.Inv ∧ Agent.src ≠ Agent.hostp :=
  ⟨test_witness_EveryStepKeepsTheInvariants.1, by decide⟩

theorem test_witness_OnlyTheOwnerTouchesTheBuffer :
    filling.Inv ∧ filling.hostPBlock = true ∧ (nextOf (step filling)).isSome = true ∧ (nextOf (agentStep .src filling)).map (fun t => Memory.read t.buf 0) = some (some 0x3F800000#32) ∧
      Memory.read filling.buf 0 = none :=
  ⟨test_witness_EveryStepKeepsTheInvariants.1, by decide, by decide, by decide, by decide⟩

/-- A run of three states: an empty block in its last step, its completion, its response taken; then it is over. -/
def shortRun (n : Nat) : State :=
  let ending : State :=
    { idle with fs := 0x472C4400#32, pstate := .run, hostPBlock := true, sched := [.agent .proc, .agent .hostp] }
  match n with
  | 0 => ending
  | 1 => { ending with pstate := .idle, presp := some 0#32, sched := [.agent .hostp] }
  | _ => { ending with
      pstate := .idle, hostPBlock := false, hostPAnswer := some 0#32, sched := [], obs := { ending.obs with presps := [0#32] } }

theorem shortRun_over (a : Agent) (n : Nat) : hasStep a (shortRun (n + 2)) = false := by
  cases a <;> rfl

theorem test_witness_FairRunsEndEveryBlock :
    IsRun shortRun ∧ WeaklyFair shortRun ∧ SourceAnswers shortRun ∧ (shortRun 0).Inv ∧ (shortRun 0).pstate.busy = true := by
  refine ⟨fun n => ?_, fun a n h => ?_, fun n nch ns h => ?_, ?_, rfl⟩
  · match n with
    | 0 => exact .inl rfl
    | 1 => exact .inl rfl
    | n + 2 =>
      refine .inr ⟨fun t h => ?_, rfl⟩
      have hs : step (shortRun (n + 2)) = .fault .runOver := by
        show takeTurn binary32 (Config.freeAgent 0) (useTurn (shortRun (n + 2))) = _
        cases Config.freeAgent 0 <;> rfl
      rw [hs] at h
      cases h
  · have := h (n + 2) (by omega)
    rw [shortRun_over a n] at this
    cases this
  · match n with
    | 0 => cases h
    | 1 => cases h
    | n + 2 => cases h
  · constructor
    · constructor
      · intro b; cases b <;> decide
      · intro b c; cases b <;> cases c <;> decide
      · intro b; cases b <;> decide
      · intro b; cases b <;> decide
      · decide
    · exact ⟨by decide, by decide⟩
    · exact ⟨by decide, by decide⟩
    · exact ⟨by decide, by decide, by decide, by decide⟩
    · exact ⟨fun nch ns h => by (cases h), by decide, by decide⟩
    · exact ⟨by decide, by decide, by decide⟩
    · exact ⟨fun k h => by (cases h), fun _ c n h => absurd h (Nat.not_lt_zero _)⟩
    · exact List.Pairwise.nil
    · exact ⟨fun f h => by (cases h), fun _ => rfl, fun _ => .inr (.inr rfl)⟩
    · have h : validRate (shortRun 0).params (shortRun 0).fs := by unfold validRate; decide
      exact ⟨.inr h, fun _ => h⟩

theorem test_witness_NobodyMovesWhenTheRunIsOver : runOver idle = true := by decide

theorem test_witness_design : (0 : ℝ) < 44100 ∧ (0 : ℝ) < 22049 ∧ (22049 : ℝ) < 44100 / 2 := by norm_num

/-- A host over the rationals, with stand-ins for the functions the tests below do not use. -/
def testHost (nanQIsMax : Bool) : HostMath ℚ :=
  { pi := 3, cos := id, sin := id, pow10 := id, roundT := fun _ => 0#32, nanQIsMax := nanQIsMax
    freq :=
      { lo := 20
        hi := fun fs => fs / 4
        lo_pos := by norm_num
        hi_inside := fun fs h => by constructor <;> linarith } }

/-- R214: Q below, inside and above the range, and a NaN. -/
theorem test_clampQ : clampQ (testHost true) (.num 0) = 1 / 100000 ∧ clampQ (testHost true) (.num 2) = 2 ∧
    clampQ (testHost true) (.num 5000) = 1000 ∧ clampQ (testHost true) .nan = 1000 ∧
    clampQ (testHost false) .nan = 1 / 100000 := by
  norm_num [clampQ, qMin, qMax, testHost]

/-- R228: the factor of +6 dB is less than half a unit in the last place (2^-23 in this binade) from 0x3FFF64C1. -/
theorem test_gain_6dB (roundT : ℝ → Word) (fb : FrequencyBounds ℝ) (nanMax : Bool) :
    |dbToFactor (realMath roundT fb nanMax) 6 - wordValue 0x3FFF64C1#32| < 1 / 2 ^ 24 := by
  have hu : units 0x3FFF64C1#32 = 16737473 * 2 ^ 126 := by decide
  have hv : (wordValue 0x3FFF64C1#32 : ℝ) = 16737473 / 2 ^ 23 := by
    unfold wordValue; rw [hu]; push_cast; norm_num
  have hx : (dbToFactor (realMath roundT fb nanMax) 6) ^ 10 = 1000 := by
    show ((10 : ℝ) ^ ((6 : ℝ) / 20)) ^ 10 = 1000
    rw [← Real.rpow_natCast, ← Real.rpow_mul (by norm_num)]
    norm_num
  have h0 : 0 ≤ dbToFactor (realMath roundT fb nanMax) 6 := Real.rpow_nonneg (by norm_num) _
  rw [hv, abs_lt]
  constructor
  · by_contra hc
    have := pow_le_pow_left₀ h0 (show dbToFactor (realMath roundT fb nanMax) 6 ≤ 16737473 / 2 ^ 23 - 1 / 2 ^ 24 by linarith) 10
    rw [hx] at this
    norm_num at this
  · by_contra hc
    have := pow_le_pow_left₀ (show (0 : ℝ) ≤ 16737473 / 2 ^ 23 + 1 / 2 ^ 24 by norm_num)
      (show 16737473 / 2 ^ 23 + 1 / 2 ^ 24 ≤ dbToFactor (realMath roundT fb nanMax) 6 by linarith) 10
    rw [hx] at this
    norm_num at this

theorem test_witness_GainChangesDoNotChangeTheSet : Band.high ≠ Band.low := by decide

end Sys2Proof.Tests
end

section
/-! The header and the operand words of an encoded command pass the decoder's checks one by one (spec rules R82, R84,
R93), so that the decoder reads the command back. -/

namespace Sys2Proof

@[simp] theorem headerOp_encodeHeader (i : Instr) : headerOp (encodeHeader i) = opNumber i.op := by
  cases i <;> exact headerOp_headerWord ..

@[simp] theorem headerReservedLow_encodeHeader (i : Instr) : headerReservedLow (encodeHeader i) = 0#5 := by
  cases i <;> exact headerReservedLow_headerWord ..

@[simp] theorem headerReservedHigh_encodeHeader (i : Instr) : headerReservedHigh (encodeHeader i) = 0#8 := by
  cases i <;> exact headerReservedHigh_headerWord ..

/-- An encoded header has 0 in the fields its opcode does not use (R82). -/
@[simp] theorem unusedFieldsZero_encodeHeader (i : Instr) : unusedFieldsZero i.op (encodeHeader i) = true := by
  cases i <;> simp [Instr.op, unusedFieldsZero, encodeHeader]

/-- The fields and operand words of an encoded command make the command (R93). -/
@[simp] theorem assemble_encode (i : Instr) : assemble i.op (encodeHeader i) (encodeOperands i) = .ok i := by
  cases i with
  | wrEnable en => cases en <;> simp [Instr.op, assemble, encodeHeader, encodeOperands]
  | _ => simp [Instr.op, assemble, encodeHeader, encodeOperands]

/-- The decoder reads back the frame of every command on the command's own port (R90, R93). -/
theorem decode_encode (i : Instr) : decode i.op.port (encode i) = .ok i := by
  simp [decode, encode]

end Sys2Proof
end

section
/-! Accepting a frame: what the entry of a processing command, the wait for `sreq` and a turn of an executor answer,
case by case, and the statements about `PREPARE`, `RELEASE`, `PROCESS` and the executors' turns assembled from them. -/

namespace Sys2Proof.Machine

/-! ### The entry of a processing command and the wait for `sreq` -/

/-- In `UNPREPARED` and `IDLE` a processing command is served (R161). -/
theorem serveProcessing_of_ready {s : State} (hp : s.pstate = .unprepared ∨ s.pstate = .idle)
    (serve : State → Host.Outcome State Fault Refusal) : serveProcessing serve s = serve s := by
  obtain hp | hp := hp <;> simp [serveProcessing, hp]

theorem awaitSreq_of_empty {s : State} (hr : s.sreq = none) (serve : State → Host.Outcome State Fault Refusal) :
    awaitSreq serve s = serve s := by
  simp [awaitSreq, hr]

theorem awaitSreq_of_full {s : State} (hr : s.sreq ≠ none) (serve : State → Host.Outcome State Fault Refusal) :
    awaitSreq serve s = .next s := by
  obtain ⟨r, hr⟩ := Option.ne_none_iff_exists'.1 hr
  simp [awaitSreq, hr]

/-- A command that puts a request to the source leaves the state as it is while `sreq` is full (R15, R161). -/
theorem exec_of_awaiting {i : Instr} {s : State} (hp : s.pstate = .unprepared ∨ s.pstate = .idle)
    (hn : needsSource i s = true) (hr : s.sreq ≠ none) : exec i s = .next s := by
  cases i with
  | prepare blk fs =>
    have hb : ¬ s.params.maxBlk < blk.toNat := by simpa [needsSource] using hn
    simp [exec, execPrepare, serveProcessing_of_ready hp, awaitSreq_of_full hr, hb]
  | release =>
    have hidle : s.pstate = .idle := by simpa [needsSource] using hn
    simp [exec, execRelease, serveProcessing_of_ready hp, awaitSreq_of_full hr, hidle]
  | process nch ns =>
    obtain ⟨⟨hidle, hc⟩, hb⟩ : (s.pstate = .idle ∧ nch.toNat ≤ s.params.maxCh) ∧ ns.toNat ≤ s.params.maxBlk := by
      simpa [needsSource] using hn
    simp [exec, execProcess, serveProcessing_of_ready hp, awaitSreq_of_full hr, hidle, hc.not_gt, hb.not_gt]
  | flush => cases hn
  | wrCoef b k => cases hn
  | wrGain b g => cases hn
  | wrEnable en => cases hn
  | rdReg idx => cases hn

/-! ### When `PROC` has a step on a frame -/

theorem frameNeedsSource_of_decode {f : Frame} {i : Instr} (hd : decode .processing f = .ok i) (s : State) :
    frameNeedsSource f s = needsSource i s := by
  simp [frameNeedsSource, hd]

/-- Only a processing command needs the source. -/
theorem port_of_needsSource {i : Instr} {s : State} (hn : needsSource i s = true) : i.op.port = .processing := by
  cases i with
  | prepare blk fs => rfl
  | release => rfl
  | process nch ns => rfl
  | flush => rfl
  | wrCoef b k => cases hn
  | wrGain b g => cases hn
  | wrEnable en => cases hn
  | rdReg idx => cases hn

/-- In `UNPREPARED` and `IDLE`, `PROC` has a step on a frame unless the frame awaits a full `sreq` (R15, R161). -/
theorem hasStep_proc_of_ready {f : Frame} {s : State} (hp : s.pstate = .unprepared ∨ s.pstate = .idle)
    (hf : s.pcmd = some f) : hasStep .proc s = (s.sreq.isNone || !frameNeedsSource f s) := by
  obtain hp | hp := hp <;> simp [hasStep, procHasStep, procCanAccept, hp, hf]

/-- What a command that awaits a full `sreq` does: `exec` leaves the state, and with its frame in the slot `PROC` has no
step (R15, R161). -/
theorem awaiting_command_waits {i : Instr} {s : State} (hp : s.pstate = .unprepared ∨ s.pstate = .idle)
    (hn : needsSource i s = true) (hr : s.sreq ≠ none) :
    exec i s = .next s ∧ (s.pcmd = some (encode i) → hasStep .proc s = false) := by
  refine ⟨exec_of_awaiting hp hn hr, fun hf => ?_⟩
  have hd : decode .processing (encode i) = .ok i := port_of_needsSource hn ▸ decode_encode i
  simpa [hasStep_proc_of_ready hp hf, frameNeedsSource_of_decode hd, hn, Option.isSome_iff_ne_none] using hr

/-! ### `PREPARE`, `RELEASE`, `PROCESS` -/

/-- A `PREPARE` of more than `MAXBLK` is fault 2 (R142). -/
theorem exec_prepare_too_large {blk : Word} {s : State} (hp : s.pstate = .unprepared ∨ s.pstate = .idle)
    (hb : s.params.maxBlk < blk.toNat) (fsIn : Word) :
    exec (.prepare blk fsIn) s = .next (raiseFault 2#4 0x00000001#32 (takePcmd s)) := by
  simp [exec, execPrepare, serveProcessing_of_ready hp, hb]

/-- A `PREPARE` that fits, with `sreq` empty (R141). -/
theorem exec_prepare_fits {blk : Word} {s : State} (hp : s.pstate = .unprepared ∨ s.pstate = .idle)
    (hb : blk.toNat ≤ s.params.maxBlk) (hr : s.sreq = none) (fsIn : Word) :
    exec (.prepare blk fsIn) s = .next { s with
      flt := (clearAll s).flt
      pcmd := none
      fs := clampFs fsIn s.params.fsMin
      blk := blk
      sreq := some (.prepare blk (clampFs fsIn s.params.fsMin))
      pstate := .idle
      presp := some okWord } := by
  simp only [exec, execPrepare, serveProcessing_of_ready hp, hb.not_gt, if_false, awaitSreq_of_empty hr]
  rfl

/-- Settles O18: each outcome of `PREPARE` by its own equation, the cleared instances by `instanceOf_clearAll`. -/
theorem prepareStoresClearsAndTellsTheSource : Obligations.PrepareStoresClearsAndTellsTheSource := by
  intro blk fsIn s hp
  refine ⟨fun hb => exec_prepare_too_large hp hb fsIn, fun hb hr => ?_, fun hb hr => ?_⟩
  · exact ⟨(clearAll s).flt, okWord_eq ▸ exec_prepare_fits hp hb hr fsIn, fun b c => instanceOf_clearAll s b c⟩
  · exact awaiting_command_waits hp (by simpa [needsSource] using hb) hr

/-- A `RELEASE` in `UNPREPARED` only answers (R145). -/
theorem exec_release_unprepared {s : State} (hp : s.pstate = .unprepared) :
    exec .release s = .next (respondProcessing okWord (takePcmd s)) := by
  simp [exec, execRelease, serveProcessing_of_ready (.inl hp), hp]

/-- A `RELEASE` in `IDLE`, with `sreq` empty (R145). -/
theorem exec_release_idle {s : State} (hp : s.pstate = .idle) (hr : s.sreq = none) :
    exec .release s =
      .next (respondProcessing okWord { takePcmd s with sreq := some .release, pstate := .unprepared }) := by
  simp [exec, execRelease, serveProcessing_of_ready (.inr hp), awaitSreq_of_empty hr, hp]

/-- Settles O21: each outcome of `RELEASE` by its own equation. -/
theorem releaseTellsTheSourceAndUnprepares : Obligations.ReleaseTellsTheSourceAndUnprepares := by
  intro s
  refine ⟨fun hp => ?_, fun hp hr => ?_, fun hp hr => ?_⟩
  · exact okWord_eq ▸ exec_release_unprepared hp
  · exact okWord_eq ▸ exec_release_idle hp hr
  · exact awaiting_command_waits (.inr hp) (by simp [needsSource, hp]) hr

/-- A `PROCESS` in `UNPREPARED` is fault 1, whatever its operands (R147). -/
theorem exec_process_unprepared {s : State} (hp : s.pstate = .unprepared) (nch ns : Word) :
    exec (.process nch ns) s = .next (raiseFault 1#4 0x00000003#32 (takePcmd s)) := by
  simp [exec, execProcess, serveProcessing_of_ready (.inl hp), hp]

/-- A `PROCESS` of a block that does not fit `BUF` is fault 2 (R147). -/
theorem exec_process_too_large {nch ns : Word} {s : State} (hp : s.pstate = .idle)
    (hb : s.params.maxCh < nch.toNat ∨ s.params.maxBlk < ns.toNat) :
    exec (.process nch ns) s = .next (raiseFault 2#4 0x00000003#32 (takePcmd s)) := by
  simp [exec, execProcess, serveProcessing_of_ready (.inr hp), hp, hb]

/-- A `PROCESS` that fits, with `sreq` empty, is admitted (R147). -/
theorem exec_process_admitted {nch ns : Word} {s : State} (hp : s.pstate = .idle)
    (hc : nch.toNat ≤ s.params.maxCh) (hb : ns.toNat ≤ s.params.maxBlk) (hr : s.sreq = none) :
    exec (.process nch ns) s =
      .next { takePcmd s with curNch := nch, curNs := ns, sreq := some (.fill nch ns), pstate := .pull } := by
  simp [exec, execProcess, serveProcessing_of_ready (.inr hp), awaitSreq_of_empty hr, hp, hc.not_gt, hb.not_gt]

/-- Settles O23: each outcome of the admission step by its own equation. -/
theorem processIsAdmittedOrFaults : Obligations.ProcessIsAdmittedOrFaults := by
  intro nch ns s
  refine ⟨fun hp => ?_, fun hp hb => ?_, fun hp hc hb hr => ?_, fun hp hc hb hr => ?_⟩
  · exact exec_process_unprepared hp nch ns
  · exact exec_process_too_large hp hb
  · exact exec_process_admitted hp hc hb hr
  · exact awaiting_command_waits (.inr hp) (by simp [needsSource, hp, hc, hb]) hr

/-! ### Turns of the executors -/

theorem useTurn_pcmd (s : State) : (useTurn s).pcmd = s.pcmd := by rw [useTurn_frame]
theorem useTurn_ccmd (s : State) : (useTurn s).ccmd = s.ccmd := by rw [useTurn_frame]
theorem useTurn_sreq (s : State) : (useTurn s).sreq = s.sreq := by rw [useTurn_frame]

theorem step_of_agent {a : Agent} {s : State} (ht : nextTurn s = .agent a) :
    step s = takeTurn binary32 a (useTurn s) := by
  simp [step, stepWith, ht]

theorem takeTurn_of_hasStep {a : Agent} {s : State} (N : NumOps Word) (h : hasStep a s = true) :
    takeTurn N a s = agentStepWith N a s := by
  simp [takeTurn, h]

/-- `PROC` runs the command its frame decodes to (R161). -/
theorem procStep_of_decode {f : Frame} {i : Instr} {s : State} (N : NumOps Word) (hf : s.pcmd = some f)
    (ha : s.pstate.accepting = true) (hd : decode .processing f = .ok i) : procStepWith N s = exec i s := by
  have hacc : procAccept s = exec i s := by simp [procAccept, acceptProcessing, hf, hd]
  cases hp : s.pstate <;> simp_all [procStepWith, PState.accepting]

/-- `CTRLX` runs the command its frame decodes to (R181). -/
theorem ctrlxStep_of_decode {f : Frame} {i : Instr} {s : State} (hf : s.ccmd = some f) (hc : s.cstate = .cIdle)
    (hd : decode .control f = .ok i) : ctrlxStep s = exec i s := by
  simp [ctrlxStep, acceptControl, hc, hf, hd]

/-- With its frame waiting for a full `sreq` that the source can empty, `PROC`'s turn passes (R15, R161, log entry 9). -/
theorem takeTurn_of_waiting {a : Agent} {s : State} (N : NumOps Word) (h : hasStep a s = false) (hf : s.pcmd ≠ none)
    (hsrc : hasStep .src s = true) : takeTurn N a s = .next s := by
  have hover : runOver s = false := by simp [runOver, hf]
  have hstuck : noStep s = false := by simp [noStep, hsrc]
  simp [takeTurn, h, hover, hstuck]

/-- The turn of `PROC` with a frame it can accept is `exec` of the command, also where the command awaits `sreq`: the
turn then passes and `exec` leaves the state. -/
theorem takeTurn_proc_of_decode {f : Frame} {i : Instr} {s : State} (N : NumOps Word) (hf : s.pcmd = some f)
    (ha : s.pstate.accepting = true) (hd : decode .processing f = .ok i)
    (hsrc : s.sreq = none ∨ hasStep .src s = true) : takeTurn N .proc s = exec i s := by
  by_cases h : hasStep .proc s = true
  · rw [takeTurn_of_hasStep N h]
    exact procStep_of_decode N hf ha hd
  · have hp : s.pstate = .unprepared ∨ s.pstate = .idle := by
      cases hp : s.pstate <;> simp_all [PState.accepting, hasStep, procHasStep]
    obtain ⟨hr, hn⟩ : s.sreq ≠ none ∧ needsSource i s = true := by
      simpa [hasStep_proc_of_ready hp hf, frameNeedsSource_of_decode hd] using h
    rw [exec_of_awaiting hp hn hr]
    exact takeTurn_of_waiting N (by simpa using h) (by simp [hf]) (hsrc.resolve_left hr)

/-- Settles O2: the turn of either executor is its step on the decoded frame, with the turn used up. -/
theorem turnRunsTheDecodedCommand : Obligations.TurnRunsTheDecodedCommand := by
  intro s f i
  refine ⟨fun ht hf ha hd hsrc => ?_, fun ht hf hc hd => ?_⟩
  · rw [step_of_agent ht]
    refine takeTurn_proc_of_decode binary32 ?_ ?_ hd ?_
    · rwa [useTurn_pcmd]
    · rwa [useTurn_pstate]
    · rwa [useTurn_sreq, hasStep_useTurn]
  · have hstep : hasStep .ctrlx (useTurn s) = true := by
      rw [hasStep_useTurn]
      simp [hasStep, ctrlxHasStep, hc, hf]
    rw [step_of_agent ht, takeTurn_of_hasStep binary32 hstep]
    exact ctrlxStep_of_decode (by rwa [useTurn_ccmd]) (by rwa [useTurn_cstate]) hd

end Sys2Proof.Machine
end

section
/-! The clamp of a sample rate (spec rules R9, R143) gives a valid rate. -/

namespace Sys2Proof.Machine

/-- A value that is no NaN and no infinity is finite (R12). -/
theorem isFinite_of_not_nan_of_not_inf {v : Word} (hnan : isNaN v = false) (hinf : isInf v = false) :
    isFinite v = true := by
  cases hf : fracField v == 0 <;> simp_all [isNaN, isInf, isFinite]

theorem toNat_fsMin (p : Params) : p.fsMin.toNat = p.fsMinLessOne.val + 1 := by
  have := p.fsMinLessOne.isLt
  simp only [Params.fsMin, BitVec.toNat_ofNat]
  omega

theorem fsMin_eq_pack (p : Params) : p.fsMin = pack false (p.fsMinLessOne.val + 1) := by
  simp [pack, Params.fsMin]

/-- The pattern of a positive finite value stands for at least one unit. -/
theorem patternUnits_pos {n : Nat} (h : 0 < n) : 0 < patternUnits n := by
  unfold patternUnits
  split
  · omega
  · positivity

/-- No finite pattern stands for more than the largest finite value, `(2^24 - 1) * 2^253` units. -/
theorem patternUnits_le {n : Nat} (h : n < 0x7F800000) : patternUnits n ≤ (2 ^ 24 - 1) * 2 ^ 253 := by
  unfold patternUnits
  split
  · exact le_trans (by omega : _ ≤ (2 ^ 24 - 1) * 1) (Nat.mul_le_mul_left _ (Nat.one_le_two_pow))
  · exact Nat.mul_le_mul (by omega) (Nat.pow_le_pow_right (by decide) (by omega))

/-- A positive pattern below the infinity's, with the sign bit 0, is its number of units. -/
theorem units_pack_false {n : Nat} (h : n < 0x7F800000) : units (pack false n) = patternUnits n := by
  simp [units, signBit_pack (neg := false) (bits := n) (by omega), magnitude_pack h]

/-- `FS_MIN` is a valid rate (R9). -/
theorem validRate_fsMin (p : Params) : validRate p p.fsMin := by
  have hlt := p.fsMinLessOne.isLt
  refine ⟨?_, ?_, le_rfl⟩
  · rw [fsMin_eq_pack, isFinite_pack (by omega)]
    simp; omega
  · rw [fsMin_eq_pack, units_pack_false (by omega)]
    exact_mod_cast patternUnits_pos (Nat.succ_pos _)

/-- The largest finite value is a valid rate whatever `FS_MIN` is (R9, R143). -/
theorem validRate_largestFinite (p : Params) : validRate p 0x7F7FFFFF#32 := by
  have hlt := p.fsMinLessOne.isLt
  have hmax : units 0x7F7FFFFF#32 = ((2 ^ 24 - 1) * 2 ^ 253 : Nat) := by decide
  refine ⟨by decide, by rw [hmax]; positivity, ?_⟩
  rw [hmax, fsMin_eq_pack, units_pack_false (by omega)]
  exact_mod_cast patternUnits_le (by omega)

/-- A finite value not below `FS_MIN` is a valid rate (R143). -/
theorem validRate_of_le {p : Params} {v : Word} (hfin : isFinite v = true) (hle : units p.fsMin ≤ units v) :
    validRate p v :=
  ⟨hfin, (validRate_fsMin p).2.1.trans_le hle, hle⟩

/-- The clamped rate is valid, whichever of the three values the clamp gives (R143). -/
theorem validRate_clampFs (p : Params) (v : Word) : validRate p (clampFs v p.fsMin) := by
  unfold clampFs
  split
  · exact validRate_fsMin p
  · rename_i hlow
    obtain ⟨hnan, hless⟩ : isNaN v = false ∧ lessThanFinite v p.fsMin = false := by simpa using hlow
    split
    · exact validRate_largestFinite p
    · rename_i hinf
      have hinf : isInf v = false := by simpa using hinf
      exact validRate_of_le (isFinite_of_not_nan_of_not_inf hnan hinf) (by simpa [lessThanFinite, hinf] using hless)

/-- Settles O20: a valid rate is finite, positive and not below `FS_MIN`. -/
theorem clampedRateIsAlwaysValid : Obligations.ClampedRateIsAlwaysValid := by
  intro p v
  obtain ⟨hfin, hpos, hmin⟩ := validRate_clampFs p v
  exact ⟨hfin, hmin, hpos⟩

end Sys2Proof.Machine
end

section
/-! Accesses of `HOSTP` to the sample buffer (spec rules R60, R61, R64, R76, R165). -/

namespace Sys2Proof.Machine

/-- A word exists exactly within the bounds of R60. -/
theorem inBuf_iff (s : State) (c n : Nat) : inBuf s c n = true ↔ c < s.params.maxCh ∧ n < s.params.maxBlk := by
  simp [inBuf]

/-- An index of a word that exists is below `2^32` (R9). -/
theorem maxBlk_lt (p : Params) : p.maxBlk < 2 ^ 32 := by
  have := p.maxBlkLessOne.isLt
  unfold Params.maxBlk
  omega

/-- `BufRead` of a word that exists and that nothing has written is a fault (R64). -/
theorem bufRead_unwritten {c n : Nat} {s : State} (hin : inBuf s c n = true)
    (h : Memory.read s.buf (Memory.addr c n) = none) : bufRead c n s = .error .bufNeverWritten := by
  simp [bufRead, hin, h]

/-- `BufRead` outside `BUF` is a fault (R60, log entry 8). -/
theorem bufRead_outside {c n : Nat} {s : State} (hout : inBuf s c n = false) :
    bufRead c n s = .error .bufOutOfRange := by
  simp [bufRead, hout]

/-- A read after `BufWrite`, word by word (R14): the written word has the value, every other word is as before. -/
theorem Memory.read_write_addr (m : Memory) {c n c' n' : Nat} (v : Word) (hn : n < 2 ^ 32) (hn' : n' < 2 ^ 32) :
    Memory.read (Memory.write m (Memory.addr c n) v) (Memory.addr c' n') =
      if c' = c ∧ n' = n then some v else Memory.read m (Memory.addr c' n') := by
  have haddr : Memory.addr c' n' = Memory.addr c n ↔ c' = c ∧ n' = n :=
    ⟨Memory.addr_inj hn' hn, fun ⟨hc, hn⟩ => by rw [hc, hn]⟩
  simp only [Memory.read_write, haddr]

/-- `HOSTP` owns `BUF` outside a block, when it has no `PROCESS` outstanding (R61, R76). -/
theorem hostpOwnsBuf_of_not_busy {s : State} (hb : s.hostPBlock = false)
    (hp : s.pstate = .unprepared ∨ s.pstate = .idle ∨ s.pstate = .fault) : hostpOwnsBuf s = true := by
  obtain hp | hp | hp := hp <;> simp [hostpOwnsBuf, PState.accepting, hb, hp]

/-- `HOSTP` does the next action of its script when it may. -/
theorem hostpStep_of_may {a : HostPAction} {rest : List HostPAction} {s : State} (hs : s.hostP = a :: rest)
    (hmay : hostpMay a s = true) : hostpStep s = hostpAct a { s with hostP := rest } := by
  simp [hostpStep, hs, hmay]

theorem hostpAct_write_inside {c n : Nat} {s : State} (hin : inBuf s c n = true) (v : Word) :
    hostpAct (.write c n v) s = .next { s with buf := Memory.write s.buf (Memory.addr c n) v } := by
  simp [hostpAct, hin, bufWrite]

theorem hostpAct_write_outside {c n : Nat} {s : State} (hout : inBuf s c n = false) (v : Word) :
    hostpAct (.write c n v) s = .fault .bufOutOfRange := by
  simp [hostpAct, hout]

theorem hostpAct_read_ok {c n : Nat} {v : Word} {s : State} (h : bufRead c n s = .ok v) :
    hostpAct (.read c n) s =
      .next { s with obs := { s.obs with reads := s.obs.reads ++ [{ row := c, index := n, value := v }] } } := by
  simp [hostpAct, h]

theorem hostpAct_read_error {c n : Nat} {e : Fault} {s : State} (h : bufRead c n s = .error e) :
    hostpAct (.read c n) s = .fault e := by
  simp [hostpAct, h]

/-- Settles O43: `HOSTP` owns `BUF`, so its next action is the access, which `BufRead` or `BufWrite` answers. -/
theorem hostReadsTheWordOrFaults : Obligations.HostReadsTheWordOrFaults := by
  intro s c n rest hb hp
  have hown : hostpOwnsBuf s = true := hostpOwnsBuf_of_not_busy hb hp
  refine ⟨fun v hs hc hn => ?_, fun v hs hc hn hv => ?_, fun hs hc hn hv => ?_, fun v hs hout => ?_⟩
  · refine ⟨Memory.write s.buf (Memory.addr c n) v, ?_, fun c' n' hn' => ?_⟩
    · rw [hostpStep_of_may hs hown]
      exact hostpAct_write_inside (s := { s with hostP := rest }) ((inBuf_iff s c n).2 ⟨hc, hn⟩) v
    · exact Memory.read_write_addr s.buf v (hn.trans (maxBlk_lt s.params)) hn'
  · rw [hostpStep_of_may hs hown]
    exact hostpAct_read_ok (bufRead_eq_ok ((inBuf_iff s c n).2 ⟨hc, hn⟩) hv)
  · rw [hostpStep_of_may hs hown]
    exact hostpAct_read_error (bufRead_unwritten ((inBuf_iff s c n).2 ⟨hc, hn⟩) hv)
  · have hout : inBuf s c n = false := by
      rw [← Bool.not_eq_true, inBuf_iff]
      omega
    obtain hs | hs := hs <;> rw [hostpStep_of_may hs hown]
    · exact hostpAct_write_outside (s := { s with hostP := rest }) hout v
    · exact hostpAct_read_error (bufRead_outside hout)

end Sys2Proof.Machine
end

section
/-! What the step of each agent leaves (spec rules R22 to R28, R75, R254, R260), said once from the effects of
`Laws/Steps.lean`; the statements on the active copies and the guarded unit are read off it. -/

namespace Sys2Proof.Machine

/-! ### Frames of the agents -/

/-- What a step of `PROC` leaves (R254): the guarded unit, the control executor and its port, and the outside
parties. -/
theorem ProcEffect.frame_eq {s t : State} (e : ProcEffect s t) :
    t = { s with
      flt := t.flt, actGain := t.actGain, actBypass := t.actBypass, lock := t.lock, fs := t.fs, blk := t.blk,
      pstate := t.pstate, curNch := t.curNch, curNs := t.curNs, curK := t.curK, curN := t.curN,
      faultCode := t.faultCode, faultInfo := t.faultInfo, pcmd := t.pcmd, presp := t.presp, sreq := t.sreq,
      sresp := t.sresp, buf := t.buf, nanDraws := t.nanDraws } := by
  cases e with
  | frame hp hb hn t e => rw [e.frame]
  | _ => rfl

/-- What a latched command leaves: everything but the guarded unit (R184, R186, R187). -/
theorem applyLatched_frame (l : Latched) (s : State) :
    applyLatched l s = { s with
      cfgCoef := (applyLatched l s).cfgCoef, cfgGain := (applyLatched l s).cfgGain
      cfgBypass := (applyLatched l s).cfgBypass } := by
  cases l <;> rfl

/-- What the write step of `CTRLX` leaves: everything but the guarded unit and its own three writes (R193). -/
theorem ctrlWrite_frame (s : State) :
    ctrlWrite s = { s with
      cfgCoef := (ctrlWrite s).cfgCoef, cfgGain := (ctrlWrite s).cfgGain, cfgBypass := (ctrlWrite s).cfgBypass
      lock := .free, cstate := .cIdle, cresp := some { word := okWord, data := none } } := by
  unfold ctrlWrite
  rw [applyLatched_frame]
  rfl

/-- What a step of `CTRLX` leaves (R194, R254): everything but the guarded unit, the lock, its own registers and
port. -/
theorem CtrlEffect.frame_eq {s t : State} (e : CtrlEffect s t) :
    t = { s with
      cfgCoef := t.cfgCoef, cfgGain := t.cfgGain, cfgBypass := t.cfgBypass, lock := t.lock, cfgErr := t.cfgErr,
      cstate := t.cstate, clatch := t.clatch, ccmd := t.ccmd, cresp := t.cresp } := by
  cases e with
  | write hc => rw [ctrlWrite_frame]
  | _ => rfl

/-- What a step of an outside agent leaves (R260): every register of the block, the parameters and the draws. -/
theorem OutsideEffect.frame_eq {s t : State} (e : OutsideEffect s t) :
    t = { s with
      pcmd := t.pcmd, presp := t.presp, ccmd := t.ccmd, cresp := t.cresp, sreq := t.sreq, sresp := t.sresp,
      buf := t.buf, hostP := t.hostP, hostPBlock := t.hostPBlock, hostPAnswer := t.hostPAnswer, hostC := t.hostC,
      hostCAnswer := t.hostCAnswer, hostCSignals := t.hostCSignals, source := t.source, obs := t.obs } := by
  cases e <;> rfl

/-! ### The control side's registers -/

/-- No step of `PROC` changes what is the control context's own, or its port (R254). -/
theorem ProcEffect.sameControl {s t : State} (e : ProcEffect s t) : SameControl s t := by
  rw [e.frame_eq]; exact ⟨rfl, rfl, rfl, rfl, rfl⟩

/-! ### The active copies -/

theorem SameActive.of_flt {s t : State} (hf : t.flt = s.flt) (hg : t.actGain = s.actGain)
    (hb : t.actBypass = s.actBypass) : SameActive s t :=
  ⟨fun b c => congrArg Biquad.coef (instanceOf_congr hf b c), hg, hb⟩

/-- Clearing FilterState keeps the active copies (R123). -/
theorem sameActive_clearAll (s : State) : SameActive s (clearAll s) :=
  ⟨fun b c => by simp, rfl, rfl⟩

/-- No step of `PROC` but `SNAP` changes the active copies (R75). -/
theorem ProcEffect.sameActive {s t : State} (e : ProcEffect s t) (hp : s.pstate ≠ .snapHold) : SameActive s t := by
  cases e with
  | prepare =>
    obtain ⟨hc, hg, hb⟩ := sameActive_clearAll s
    exact ⟨hc, hg, hb⟩
  | flush =>
    obtain ⟨hc, hg, hb⟩ := sameActive_clearAll s
    exact ⟨hc, hg, hb⟩
  | snapshot hold => exact absurd hold hp
  | frame hrun hb hn t e => exact ⟨e.coef, by rw [e.frame], by rw [e.frame]⟩
  | _ => exact .of_flt rfl rfl rfl

theorem CtrlEffect.sameActive {s t : State} (e : CtrlEffect s t) : SameActive s t := by
  rw [e.frame_eq]; exact .of_flt rfl rfl rfl

theorem OutsideEffect.sameActive {s t : State} (e : OutsideEffect s t) : SameActive s t := by
  rw [e.frame_eq]; exact .of_flt rfl rfl rfl

/-- The agent whose step changes the active copies is `PROC` in `SNAP_HOLD` (R75). -/
theorem agentStep_sameActive {N : NumOps Word} {a : Agent} {s t : State} (h : agentStepWith N a s = .next t)
    (hsnap : ¬ (a = .proc ∧ s.pstate = .snapHold)) : SameActive s t := by
  cases a with
  | hostp => exact (hostpStep_effect h).sameActive
  | proc => exact (procStep_effect h).sameActive fun hp => hsnap ⟨rfl, hp⟩
  | src => exact (srcStep_effect h).sameActive
  | hostc => exact (hostcStep_effect h).sameActive
  | ctrlx => exact (ctrlxStep_effect h).sameActive

theorem sameActive_useTurn (s : State) : SameActive s (useTurn s) := by
  rw [useTurn_frame]; exact .of_flt rfl rfl rfl

theorem SameActive.trans {s t u : State} (h : SameActive s t) (h' : SameActive t u) : SameActive s u :=
  ⟨fun b c => (h'.coef b c).trans (h.coef b c), h'.gain.trans h.gain, h'.bypass.trans h.bypass⟩

/-- Settles O45: the turn is an agent's, and of the agents only `PROC` in `SNAP_HOLD` changes the active copies. -/
theorem onlySnapChangesTheActiveCopies : Obligations.OnlySnapChangesTheActiveCopies := by
  intro s t h hreset hsnap
  obtain ⟨hr, _⟩ | ⟨a, ha, ⟨_, hstep⟩ | rfl⟩ := step_effect h
  · exact absurd hr hreset
  · refine (sameActive_useTurn s).trans (agentStep_sameActive hstep ?_)
    rintro ⟨rfl, hp⟩
    exact hsnap ⟨ha, by rwa [useTurn_pstate] at hp⟩
  · exact sameActive_useTurn s

/-! ### The guarded unit -/

theorem ProcEffect.sameGuarded {s t : State} (e : ProcEffect s t) : SameGuarded s t := by
  rw [e.frame_eq]; exact ⟨rfl, rfl, rfl⟩

theorem OutsideEffect.sameGuarded {s t : State} (e : OutsideEffect s t) : SameGuarded s t := by
  rw [e.frame_eq]; exact ⟨rfl, rfl, rfl⟩

/-- No step of `CTRLX` but its write step changes the guarded unit (R70, R193). -/
theorem CtrlEffect.sameGuarded {s t : State} (e : CtrlEffect s t) (hc : s.cstate ≠ .cHold) : SameGuarded s t := by
  cases e with
  | write hold => exact absurd hold hc
  | _ => exact ⟨rfl, rfl, rfl⟩

/-- The agent whose step changes the guarded unit is `CTRLX` in `C_HOLD` (R70). -/
theorem agentStep_sameGuarded {N : NumOps Word} {a : Agent} {s t : State} (h : agentStepWith N a s = .next t)
    (hwrite : ¬ (a = .ctrlx ∧ s.cstate = .cHold)) : SameGuarded s t := by
  cases a with
  | hostp => exact (hostpStep_effect h).sameGuarded
  | proc => exact (procStep_effect h).sameGuarded
  | src => exact (srcStep_effect h).sameGuarded
  | hostc => exact (hostcStep_effect h).sameGuarded
  | ctrlx => exact (ctrlxStep_effect h).sameGuarded fun hc => hwrite ⟨rfl, hc⟩

theorem sameGuarded_useTurn (s : State) : SameGuarded s (useTurn s) := by
  rw [useTurn_frame]; exact ⟨rfl, rfl, rfl⟩

theorem SameGuarded.trans {s t u : State} (h : SameGuarded s t) (h' : SameGuarded t u) : SameGuarded s u :=
  ⟨h'.coef.trans h.coef, h'.gain.trans h.gain, h'.bypass.trans h.bypass⟩

/-- Settles O46: of the agents only `CTRLX` in `C_HOLD` changes the guarded unit, and there it holds the lock. -/
theorem onlyTheControlWriteChangesTheGuardedUnit : Obligations.OnlyTheControlWriteChangesTheGuardedUnit := by
  intro s t hlock h hreset
  obtain ⟨hr, _⟩ | ⟨a, ha, ⟨_, hstep⟩ | rfl⟩ := step_effect h
  · exact absurd hr hreset
  · by_cases hwrite : a = .ctrlx ∧ s.cstate = .cHold
    · obtain ⟨rfl, hc⟩ := hwrite
      exact .inr ⟨ha, hc, hlock.ctrl.2 hc⟩
    · rw [← useTurn_cstate] at hwrite
      exact .inl ((sameGuarded_useTurn s).trans (agentStep_sameGuarded hstep hwrite))
  · exact .inl (sameGuarded_useTurn s)

end Sys2Proof.Machine
end

section
/-! Every step keeps the coefficients valid (spec rule R30) and the lock owned (R29, R70); hardware reset and the reset
state give the values of R44. -/

namespace Sys2Proof.Machine

/-! ### One step of the machine -/

/-- A predicate that the schedule cannot see, that hardware reset gives and that every agent's step keeps, every step
keeps (R16, R270). -/
theorem step_keeps {P : State → Prop} (hturn : ∀ s, P s → P (useTurn s)) (hreset : ∀ s, P (hardwareReset s))
    (hproc : ∀ s t, P s → ProcEffect s t → P t) (hctrlx : ∀ s t, P s → CtrlEffect s t → P t)
    (houtside : ∀ s t, P s → OutsideEffect s t → P t) (s t : State) (hs : P s) (h : step s = .next t) : P t := by
  have hs : P (useTurn s) := hturn s hs
  obtain rfl | e | e | e := step_agentEffect h
  · exact hreset _
  · exact hproc _ _ hs e
  · exact hctrlx _ _ hs e
  · exact houtside _ _ hs e

/-! ### Hardware reset -/

/-- The state after reset is what hardware reset makes of it (R270). -/
theorem hardwareReset_reset : hardwareReset State.reset = State.reset := rfl

@[simp] theorem instanceOf_hardwareReset (s : State) (b : Band) (c : Chan) :
    instanceOf (hardwareReset s) b c = resetBiquad := by
  cases b <;> cases c <;> rfl

@[simp] theorem cfgCoef_hardwareReset (s : State) (b : Band) : (hardwareReset s).cfgCoef.get b = identityCoefs := by
  cases b <;> rfl

@[simp] theorem cfgGain_hardwareReset (s : State) (b : Band) : (hardwareReset s).cfgGain.get b = 0x3F800000#32 := by
  cases b <;> rfl

@[simp] theorem actGain_hardwareReset (s : State) (b : Band) : (hardwareReset s).actGain.get b = 0x3F800000#32 := by
  cases b <;> rfl

/-- Hardware reset gives every value of the table of R44, from any state (R270). -/
theorem resetValues_hardwareReset (s : State) : ResetValues (hardwareReset s) where
  hist b c := congrArg Biquad.hist (instanceOf_hardwareReset s b c)
  coef b c := congrArg Biquad.coef (instanceOf_hardwareReset s b c)
  actGain := actGain_hardwareReset s
  actBypass := rfl
  cfgCoef := cfgCoef_hardwareReset s
  cfgGain := cfgGain_hardwareReset s
  cfgBypass := rfl
  lock := rfl
  fs := rfl
  blk := rfl
  pstate := rfl
  faultCode := rfl
  faultInfo := rfl
  cfgErr := rfl
  cstate := rfl
  slots := ⟨rfl, rfl, rfl, rfl, rfl, rfl⟩
  buf _ := rfl

/-- Settles O1: a reset turn is hardware reset, and the reset state is what it makes of itself. -/
theorem hardwareResetPutsEveryRegister : Obligations.HardwareResetPutsEveryRegister := by
  refine ⟨hardwareReset_reset ▸ resetValues_hardwareReset State.reset, fun s hturn => ?_⟩
  have hstep : step s = .next (hardwareReset (useTurn s)) := by simp [step, stepWith, hturn]
  exact ⟨_, hstep, resetValues_hardwareReset _⟩

/-! ### Coefficients and gains -/

/-- What R30 speaks of: the guarded unit, the active copies, and a latched write while it waits. -/
theorem State.CoefsValid.congr {s t : State} (h : s.CoefsValid) (hg : SameGuarded s t) (ha : SameActive s t)
    (hl : t.cstate ≠ .cIdle → t.clatch.valid = true) : t.CoefsValid where
  pendingCoef b := by rw [hg.coef]; exact h.pendingCoef b
  activeCoef b c := by rw [ha.coef]; exact h.activeCoef b c
  pendingGain b := by rw [hg.gain]; exact h.pendingGain b
  activeGain b := by rw [ha.gain]; exact h.activeGain b
  latch := hl

theorem coefsValid_useTurn (s : State) (h : s.CoefsValid) : (useTurn s).CoefsValid :=
  h.congr (sameGuarded_useTurn s) (sameActive_useTurn s) (by rw [useTurn_frame]; exact h.latch)

/-- The identity sets and unit gains of reset are valid (R44). -/
theorem coefsValid_hardwareReset (s : State) : (hardwareReset s).CoefsValid where
  pendingCoef b := by rw [cfgCoef_hardwareReset]; decide
  activeCoef b c := by rw [instanceOf_hardwareReset]; decide
  pendingGain b := by rw [cfgGain_hardwareReset]; decide
  activeGain b := by rw [actGain_hardwareReset]; decide
  latch hc := absurd rfl hc

/-- `SNAP` makes the active copies the pending ones, which are valid (R196). -/
theorem coefsValid_snap {s : State} (h : s.CoefsValid) : (snap s).CoefsValid where
  pendingCoef := h.pendingCoef
  activeCoef b c := by simpa using h.pendingCoef b
  pendingGain := h.pendingGain
  activeGain := h.pendingGain
  latch := h.latch

/-- In `SNAP_HOLD` the only step of `PROC` is `SNAP` (R196). -/
theorem ProcEffect.of_snapHold {s t : State} (e : ProcEffect s t) (hp : s.pstate = .snapHold) :
    t = s ∨ t = snap s := by
  cases e with
  | wait => exact .inl rfl
  | snapshot _ => exact .inr rfl
  | _ => simp_all

theorem coefsValid_proc (s t : State) (h : s.CoefsValid) (e : ProcEffect s t) : t.CoefsValid := by
  by_cases hp : s.pstate = .snapHold
  · obtain rfl | rfl := e.of_snapHold hp
    · exact h
    · exact coefsValid_snap h
  · have hc := e.sameControl
    exact h.congr e.sameGuarded (e.sameActive hp) (by rw [hc.cstate, hc.clatch]; exact h.latch)

/-- A property of one band's new value and of all old ones holds of the record with that value (R184, R186). -/
theorem PerBand.forall_get_set {α : Type} {P : α → Prop} {p : PerBand α} {v : α} (hv : P v)
    (hp : ∀ b, P (p.get b)) (b b' : Band) : P ((p.set b v).get b') := by
  rw [PerBand.get_set]
  split
  · exact hv
  · exact hp b'

/-- A valid latched command leaves valid pending sets and gains (R184, R186, R187). -/
theorem coefsValid_ctrlWrite {s : State} (h : s.CoefsValid) (hl : s.clatch.valid = true) :
    (ctrlWrite s).CoefsValid := by
  unfold ctrlWrite applyLatched
  cases hs : s.clatch with
  | wrCoef b k =>
    rw [hs] at hl
    exact
      { h with
        pendingCoef := PerBand.forall_get_set (P := (validCoef · = true)) hl h.pendingCoef b
        latch := fun hc => absurd rfl hc }
  | wrGain b g =>
    rw [hs] at hl
    exact
      { h with
        pendingGain := PerBand.forall_get_set (P := (isFinite · = true)) hl h.pendingGain b
        latch := fun hc => absurd rfl hc }
  | wrEnable en => exact { h with latch := fun hc => absurd rfl hc }

theorem coefsValid_ctrlx (s t : State) (h : s.CoefsValid) (e : CtrlEffect s t) : t.CoefsValid := by
  cases e with
  | wait => exact h
  | refused hf hc => exact { h with latch := h.latch }
  | read hf hc w => exact { h with latch := h.latch }
  | latched hf hc l hl => exact { h with latch := fun _ => hl }
  | acquire hc hfree => exact { h with latch := fun _ => h.latch (by simp [hc]) }
  | write hc => exact coefsValid_ctrlWrite h (h.latch (by simp [hc]))

theorem coefsValid_outside (s t : State) (h : s.CoefsValid) (e : OutsideEffect s t) : t.CoefsValid :=
  h.congr e.sameGuarded e.sameActive (by rw [e.frame_eq]; exact h.latch)

/-- Settles O48: `SNAP` copies valid sets, and the write step applies a latched write that was validated. -/
theorem everyStepKeepsCoefficientsValid : Obligations.EveryStepKeepsCoefficientsValid :=
  step_keeps coefsValid_useTurn coefsValid_hardwareReset coefsValid_proc coefsValid_ctrlx coefsValid_outside

/-! ### The lock -/

/-- What R29 speaks of: the lock, and whether each of the two is in its critical section. -/
theorem State.LockOwned.congr {s t : State} (h : s.LockOwned) (hl : t.lock = s.lock)
    (hc : t.cstate = .cHold ↔ s.cstate = .cHold) (hp : t.pstate = .snapHold ↔ s.pstate = .snapHold) :
    t.LockOwned where
  ctrl := by rw [hl, hc]; exact h.ctrl
  proc := by rw [hl, hp]; exact h.proc

theorem lockOwned_useTurn (s : State) (h : s.LockOwned) : (useTurn s).LockOwned := by
  rw [useTurn_frame]; exact h.congr rfl .rfl .rfl

theorem lockOwned_hardwareReset (s : State) : (hardwareReset s).LockOwned :=
  ⟨by simp [hardwareReset, State.reset], by simp [hardwareReset, State.reset]⟩

/-- While `PROC` holds the lock, or nobody does, `CTRLX` is outside its critical section (R29). -/
theorem State.LockOwned.not_cHold {s : State} (h : s.LockOwned) (hl : s.lock ≠ .ctrl) : s.cstate ≠ .cHold :=
  fun hc => hl (h.ctrl.2 hc)

/-- While `CTRLX` holds the lock, or nobody does, `PROC` is outside its critical section (R29). -/
theorem State.LockOwned.not_snapHold {s : State} (h : s.LockOwned) (hl : s.lock ≠ .proc) : s.pstate ≠ .snapHold :=
  fun hp => hl (h.proc.2 hp)

theorem lockOwned_proc (s t : State) (h : s.LockOwned) (e : ProcEffect s t) : t.LockOwned := by
  cases e with
  | wait => exact h
  | acquire hp hl =>
    have hc : s.cstate ≠ .cHold := h.not_cHold (by simp [hl])
    exact ⟨by simpa [procAcquire] using hc, by simp [procAcquire]⟩
  | snapshot hp =>
    have hc : s.cstate ≠ .cHold := h.not_cHold (by simp [h.proc.2 hp])
    exact ⟨by simpa [snap] using hc, by simp [snap]⟩
  | frame hp hb hn t e => rw [e.frame]; exact h.congr rfl .rfl .rfl
  | answerFault | releaseNothing | flush => exact h.congr rfl .rfl .rfl
  | raiseOnAccept hf hp => exact h.congr rfl .rfl (by obtain hp | hp := hp <;> simp [hp])
  | prepare hf hp => exact h.congr rfl .rfl (by obtain hp | hp := hp <;> simp [respondProcessing, hp])
  | release hf hp | admitted hf hd hp => exact h.congr rfl .rfl (by simp [respondProcessing, hp])
  | raiseOnPull hp | pull hp => exact h.congr rfl .rfl (by simp [hp])
  | complete hp => exact h.congr rfl .rfl (by simp [completeBlock, respondProcessing, hp])

theorem lockOwned_ctrlx (s t : State) (h : s.LockOwned) (e : CtrlEffect s t) : t.LockOwned := by
  cases e with
  | wait => exact h
  | refused | read => exact h.congr rfl .rfl .rfl
  | latched hf hc => exact h.congr rfl (by simp [hc]) .rfl
  | acquire hc hl =>
    have hp : s.pstate ≠ .snapHold := h.not_snapHold (by simp [hl])
    exact ⟨by simp [ctrlAcquire], by simpa [ctrlAcquire] using hp⟩
  | write hc =>
    have hp : s.pstate ≠ .snapHold := h.not_snapHold (by simp [h.ctrl.2 hc])
    rw [ctrlWrite_frame]
    exact ⟨by simp, by simpa using hp⟩

theorem lockOwned_outside (s t : State) (h : s.LockOwned) (e : OutsideEffect s t) : t.LockOwned := by
  rw [e.frame_eq]; exact h.congr rfl .rfl .rfl

/-- Settles O49: a free lock is taken on entry to a critical section, and leaving it frees the lock. -/
theorem everyStepKeepsTheLockOwned : Obligations.EveryStepKeepsTheLockOwned :=
  step_keeps lockOwned_useTurn lockOwned_hardwareReset lockOwned_proc lockOwned_ctrlx lockOwned_outside

end Sys2Proof.Machine
end

section
/-! Every step keeps all the invariants together (spec rules R30, R36, R41, R60, R64, R70, R76, R143, R149). Each
invariant is kept by each agent's step; where an agent leaves all that an invariant speaks of, the congruence lemma of
the invariant and the frame of the agent say so. -/

namespace Sys2Proof.Machine

/-! ### The sequencer's states -/

/-- In `UNPREPARED` and `IDLE` no block is in progress (R34). -/
theorem PState.busy_of_ready {p : PState} (h : p = .unprepared ∨ p = .idle) : p.busy = false := by
  obtain rfl | rfl := h <;> rfl

/-- A state outside a block is not one within it. -/
theorem PState.ne_of_busy {p q : PState} (hp : p.busy = false) (hq : q.busy = true) : p ≠ q := by
  rintro rfl
  simp [hp] at hq

theorem PState.busy_of_accepting {p : PState} (h : p.accepting = true) : p.busy = false := by
  cases p <;> simp_all [PState.accepting, PState.busy]

/-- What `HOSTP` needs to send (R160). -/
theorem hostpFree_iff (s : State) :
    hostpFree s = true ↔ s.pcmd = none ∧ s.presp = none ∧ s.pstate.accepting = true := by
  simp [hostpFree, and_assoc]

/-- What `HOSTC` needs to send (R181). -/
theorem hostcFree_iff (s : State) : hostcFree s = true ↔ s.ccmd = none ∧ s.cresp = none ∧ s.cstate = .cIdle := by
  simp [hostcFree, and_assoc]

/-! ### The fault code -/

/-- What R36 speaks of: whether `pstate` is `FAULT`, and the fault code. -/
theorem State.FaultRecorded.congr {s t : State} (h : s.FaultRecorded) (hp : t.pstate = .fault ↔ s.pstate = .fault)
    (hc : t.faultCode = s.faultCode) : t.FaultRecorded where
  code := by rw [hp, hc]; exact h.code
  range := by rw [hc]; exact h.range

/-- Fault entry records its code (R244). -/
theorem faultRecorded_raiseFault {code : BitVec 4} (h0 : code ≠ 0#4) (h4 : code.toNat ≤ 4) (info : Word)
    (s : State) : (raiseFault code info s).FaultRecorded where
  code := by simpa using h0
  range := h4

theorem ProcEffect.faultRecorded {s t : State} (e : ProcEffect s t) (h : s.FaultRecorded) : t.FaultRecorded := by
  cases e with
  | wait => exact h
  | raiseOnAccept hf hp code info hc =>
    obtain ⟨h0, h4⟩ : code ≠ 0#4 ∧ code.toNat ≤ 4 := by obtain rfl | rfl | rfl := hc <;> decide
    exact faultRecorded_raiseFault h0 h4 info _
  | raiseOnPull => exact faultRecorded_raiseFault (by decide) (by decide) _ _
  | answerFault | releaseNothing | flush => exact h.congr .rfl rfl
  | prepare hf hp => exact h.congr (by obtain hp | hp := hp <;> simp [respondProcessing, hp]) rfl
  | release hf hp => exact h.congr (by simp [respondProcessing, hp]) rfl
  | admitted hf hd hp => exact h.congr (by simp [hp]) rfl
  | pull hp => exact h.congr (by simp [hp]) rfl
  | acquire hp => exact h.congr (by simp [procAcquire, hp]) rfl
  | snapshot hp => exact h.congr (by simp [snap, hp]) rfl
  | frame hp hb hn t e => rw [e.frame]; exact h.congr .rfl rfl
  | complete hp => exact h.congr (by simp [completeBlock, respondProcessing, hp]) rfl

/-! ### The ports -/

/-- While a block is in progress no command waits on the processing port (R160). -/
theorem State.OneOutstanding.pcmd_of_busy {s : State} (h : s.OneOutstanding) (hb : s.pstate.busy = true) :
    s.pcmd = none := by
  by_contra hc
  have := (h.pcmd (Option.isSome_iff_ne_none.2 hc)).2
  simp [this] at hb

/-- While a response waits on the processing port, neither a command nor a block does (R160, R161). -/
theorem State.OneOutstanding.of_presp {s : State} {w : Word} (h : s.OneOutstanding) (hw : s.presp = some w) :
    s.pcmd = none ∧ s.pstate.busy = false := by
  refine ⟨?_, ?_⟩
  · by_contra hc
    simp [(h.pcmd (Option.isSome_iff_ne_none.2 hc)).1] at hw
  · by_contra hb
    simp [h.pbusy (by simpa using hb)] at hw

/-- A processing port without a waiting command, over the same control port. -/
theorem State.OneOutstanding.of_pcmd_none {s t : State} (h : s.OneOutstanding) (hc : SameControl s t)
    (hp : t.pcmd = none) (hb : t.pstate.busy = false ∨ t.presp = none) : t.OneOutstanding where
  pcmd hs := by simp [hp] at hs
  pbusy ht := hb.resolve_left (by simp [ht])
  ccmd := by rw [hc.ccmd, hc.cresp, hc.cstate]; exact h.ccmd
  cbusy := by rw [hc.cresp, hc.cstate]; exact h.cbusy

theorem ProcEffect.oneOutstanding {s t : State} (e : ProcEffect s t) (h : s.OneOutstanding) : t.OneOutstanding := by
  have keep := h.of_pcmd_none e.sameControl
  cases e with
  | wait => exact h
  | answerFault hf hp | releaseNothing hf hp => exact keep rfl (.inl (congrArg PState.busy hp))
  | flush hf hp => exact keep rfl (.inl (PState.busy_of_ready hp))
  | raiseOnAccept | prepare | release => exact keep rfl (.inl rfl)
  | admitted hf => exact keep rfl (.inr (h.pcmd hf).1)
  | raiseOnPull hp | complete hp => exact keep (h.pcmd_of_busy (congrArg PState.busy hp)) (.inl rfl)
  | pull hp | acquire hp | snapshot hp =>
    have hb : s.pstate.busy = true := congrArg PState.busy hp
    exact keep (h.pcmd_of_busy hb) (.inr (h.pbusy hb))
  | frame hp hb hn t e =>
    rw [e.frame]
    exact { h with pcmd := h.pcmd }

theorem CtrlEffect.oneOutstanding {s t : State} (e : CtrlEffect s t) (h : s.OneOutstanding) : t.OneOutstanding := by
  cases e with
  | wait => exact h
  | refused hf hc | read hf hc => exact { h with ccmd := nofun, cbusy := fun hn => absurd hc hn }
  | latched hf hc => exact { h with ccmd := nofun, cbusy := fun _ => (h.ccmd hf).1 }
  | acquire hc hl =>
    have hr : s.cresp = none := h.cbusy (by simp [hc])
    exact { h with ccmd := fun hs => absurd (h.ccmd hs).2 (by simp [hc]), cbusy := fun _ => hr }
  | write hc =>
    rw [ctrlWrite_frame]
    exact { h with ccmd := fun hs => absurd (h.ccmd hs).2 (by simp [hc]), cbusy := fun hn => absurd rfl hn }

theorem OutsideEffect.oneOutstanding {s t : State} (e : OutsideEffect s t) (h : s.OneOutstanding) :
    t.OneOutstanding := by
  cases e with
  | wait => exact h
  | takePresp w hw => exact { h with pcmd := fun hs => ⟨rfl, (h.pcmd hs).2⟩, pbusy := fun _ => rfl }
  | sendP hfree f rest =>
    obtain ⟨_, hr, ha⟩ := (hostpFree_iff s).1 hfree
    exact { h with pcmd := fun _ => ⟨hr, PState.busy_of_accepting ha⟩ }
  | takeCresp r hr => exact { h with ccmd := fun hs => ⟨rfl, (h.ccmd hs).2⟩, cbusy := fun _ => rfl }
  | sendC hfree f rest hs =>
    obtain ⟨_, hr, hc⟩ := (hostcFree_iff s).1 hfree
    exact { h with ccmd := fun _ => ⟨hr, hc⟩ }
  | _ => exact { h with pcmd := h.pcmd }

/-! ### The source port -/

/-- Outside `PULL` the source has no answer waiting (R149). -/
theorem State.PullTracked.sresp_of_not_pull {s : State} (h : s.PullTracked) (hp : s.pstate ≠ .pull) :
    s.sresp = none := by
  by_contra hr
  exact hp (h.answer (Option.isSome_iff_ne_none.2 hr)).1

/-- What R148 speaks of: whether `pstate` is `PULL`, the source port, and the size of the block. -/
theorem State.PullTracked.congr {s t : State} (h : s.PullTracked) (hp : t.pstate = .pull ↔ s.pstate = .pull)
    (hq : t.sreq = s.sreq) (hr : t.sresp = s.sresp) (hc : t.curNch = s.curNch) (hn : t.curNs = s.curNs) :
    t.PullTracked where
  request := by rw [hp, hq, hc, hn]; exact h.request
  answer := by rw [hp, hq, hr]; exact h.answer
  pull := by rw [hp, hq, hr, hc, hn]; exact h.pull

/-- Outside `PULL` neither a fill nor an answer is there. -/
theorem State.PullTracked.of_not_pull {t : State} (hp : t.pstate ≠ .pull)
    (hq : ∀ nch ns, t.sreq ≠ some (.fill nch ns)) (hr : t.sresp = none) : t.PullTracked where
  request nch ns h := absurd h (hq nch ns)
  answer h := by simp [hr] at h
  pull h := absurd h hp

/-- When its answer is there the fill is not outstanding (R162). -/
theorem State.PullTracked.sreq_of_answer {s : State} {k : Word} (h : s.PullTracked) (hk : s.sresp = some k) :
    s.sreq = none :=
  (h.answer (by simp [hk])).2

theorem ProcEffect.pullTracked {s t : State} (e : ProcEffect s t) (h : s.PullTracked) : t.PullTracked := by
  cases e with
  | wait => exact h
  | answerFault | releaseNothing | flush => exact h.congr .rfl rfl rfl rfl rfl
  | raiseOnAccept hf hp => exact h.congr (by obtain hp | hp := hp <;> simp [hp]) rfl rfl rfl rfl
  | prepare hf hp =>
    exact .of_not_pull nofun nofun (h.sresp_of_not_pull (PState.ne_of_busy (PState.busy_of_ready hp) rfl))
  | release hf hp => exact .of_not_pull nofun nofun (h.sresp_of_not_pull (by simp [hp]))
  | admitted hf hd hp hr nch ns =>
    have hnone : s.sresp = none := h.sresp_of_not_pull (by simp [hp])
    exact
      { request := fun _ _ heq => by cases heq; exact ⟨rfl, rfl, rfl⟩
        answer := fun hs => by simp [takePcmd, hnone] at hs
        pull := fun _ => .inl rfl }
  | raiseOnPull hp k hk => exact .of_not_pull nofun (by simp [raiseFault, h.sreq_of_answer hk]) rfl
  | pull hp k hk => exact .of_not_pull nofun (by simp [h.sreq_of_answer hk]) rfl
  | acquire hp => exact h.congr (by simp [procAcquire, hp]) rfl rfl rfl rfl
  | snapshot hp => exact h.congr (by simp [snap, hp]) rfl rfl rfl rfl
  | frame hp hb hn t e => rw [e.frame]; exact h.congr .rfl rfl rfl rfl rfl
  | complete hp => exact h.congr (by simp [completeBlock, respondProcessing, hp]) rfl rfl rfl rfl

theorem OutsideEffect.pullTracked {s t : State} (e : OutsideEffect s t) (h : s.PullTracked) : t.PullTracked := by
  cases e with
  | wait => exact h
  | takeReq r hr hfill =>
    have hq : ∀ nch ns, s.sreq ≠ some (.fill nch ns) := fun nch ns heq => hfill nch ns (by simpa [hr] using heq)
    exact
      { request := nofun
        answer := fun hs => ⟨(h.answer hs).1, rfl⟩
        pull := fun hp => .inr ((h.pull hp).resolve_left (hq _ _)) }
  | answer nch ns hr a rest hf =>
    exact
      { request := nofun
        answer := fun _ => ⟨(h.request nch ns hr).1, rfl⟩
        pull := fun _ => .inr rfl }
  | _ => exact h.congr .rfl rfl rfl rfl rfl

/-! ### The size of the block -/

/-- What R35 speaks of: `pstate`, the size of the block, the loop index and the parameters. -/
theorem State.BlockFits.congr {s t : State} (h : s.BlockFits) (hp : t.pstate = s.pstate) (hc : t.curNch = s.curNch)
    (hs : t.curNs = s.curNs) (hn : t.curN = s.curN) (hpar : t.params = s.params) : t.BlockFits where
  fits := by rw [hp, hc, hs, hpar]; exact h.fits
  loop := by rw [hp, hs, hn]; exact h.loop
  start := by rw [hp, hn]; exact h.start

/-- Outside a block the size is free, and the loop index 0 (R35, log entry 2). -/
theorem State.BlockFits.of_not_busy {t : State} (hb : t.pstate.busy = false) (hn : t.curN = 0#32) : t.BlockFits where
  fits h := by simp [hb] at h
  loop h := by simp [hb] at h
  start _ := hn

/-- A block of the same size, at index 0. -/
theorem State.BlockFits.of_start {s t : State} (h : s.BlockFits) (hb : s.pstate.busy = true) (hc : t.curNch = s.curNch)
    (hs : t.curNs = s.curNs) (hn : t.curN = 0#32) (hpar : t.params = s.params) : t.BlockFits where
  fits _ := by rw [hc, hs, hpar]; exact h.fits hb
  loop _ := by simp [hn]
  start _ := hn

theorem ProcEffect.blockFits {s t : State} (e : ProcEffect s t) (h : s.BlockFits) : t.BlockFits := by
  cases e with
  | wait => exact h
  | answerFault | releaseNothing | flush => exact h.congr rfl rfl rfl rfl rfl
  | raiseOnAccept hf hp | prepare hf hp =>
    exact .of_not_busy rfl (h.start (PState.ne_of_busy (PState.busy_of_ready hp) rfl))
  | release hf hp | raiseOnPull hp => exact .of_not_busy rfl (h.start (by simp [hp]))
  | admitted hf hd hp hr nch ns hc hn =>
    have h0 : s.curN = 0#32 := h.start (by simp [hp])
    exact { fits := fun _ => ⟨hc, hn⟩, loop := fun _ => by simp [takePcmd, h0], start := fun _ => h0 }
  | pull hp | acquire hp => exact h.of_start (congrArg PState.busy hp) rfl rfl (h.start (by simp [hp])) rfl
  | snapshot hp => exact h.of_start (congrArg PState.busy hp) rfl rfl rfl rfl
  | frame hp hb hn t e =>
    rw [e.frame]
    exact
      { fits := h.fits
        loop := fun _ => by simp only [BitVec.toNat_add, BitVec.toNat_ofNat]; omega
        start := fun hne => absurd hp hne }
  | complete => exact .of_not_busy rfl rfl

/-! ### The written words of the block -/

/-- A word that is written stays so where no word becomes unwritten. -/
theorem State.BlockWritten.mono {s t : State} (h : s.BlockWritten)
    (hbuf : ∀ a, (Memory.read s.buf a).isSome = true → (Memory.read t.buf a).isSome = true)
    (hp : t.pstate = .snapWait ∨ t.pstate = .snapHold ∨ t.pstate = .run →
      s.pstate = .snapWait ∨ s.pstate = .snapHold ∨ s.pstate = .run)
    (hr : t.sresp = s.sresp) (hc : t.curNch = s.curNch) (hs : t.curNs = s.curNs) : t.BlockWritten where
  produced k hk c n hcn hnk hn := by
    rw [hr] at hk
    rw [hc] at hcn
    rw [hs] at hn
    exact hbuf _ (h.produced k hk c n hcn hnk hn)
  filled ht c n hcn hn := by
    rw [hc] at hcn
    rw [hs] at hn
    exact hbuf _ (h.filled (hp ht) c n hcn hn)

/-- Outside a block nothing needs to be written. -/
theorem State.BlockWritten.of_not_busy {t : State} (ht : t.PullTracked) (hb : t.pstate.busy = false) :
    t.BlockWritten where
  produced k hk := by
    have hp := (ht.answer (by simp [hk])).1
    simp [hp, PState.busy] at hb
  filled hp := by obtain hp | hp | hp := hp <;> simp [hp, PState.busy] at hb

/-- A fill writes every word of its region (R150, R162). -/
theorem Memory.isSome_fillRows_of_mem (m : Memory) (value : Nat → Nat → Word) {lo count rows c n : Nat}
    (hbound : lo + count ≤ 2 ^ 32) (hc : c < rows) (hlo : lo ≤ n) (hn : n < lo + count) :
    (Memory.read (Memory.fillRows m value lo count rows) (Memory.addr c n)).isSome = true := by
  rw [Memory.read_fillRows m value lo count rows c n hbound (by omega), if_pos ⟨hc, hlo, hn⟩]
  rfl

theorem ProcEffect.blockWritten {s t : State} (e : ProcEffect s t) (hs : s.PullTracked) (h : s.BlockWritten) :
    t.BlockWritten := by
  have ht := e.pullTracked hs
  cases e with
  | wait => exact h
  | answerFault hf hp | releaseNothing hf hp => exact .of_not_busy ht (congrArg PState.busy hp)
  | flush hf hp => exact .of_not_busy ht (PState.busy_of_ready hp)
  | raiseOnAccept | prepare | release | raiseOnPull | complete => exact .of_not_busy ht rfl
  | admitted hf hd hp =>
    have hnone : s.sresp = none := hs.sresp_of_not_pull (by simp [hp])
    exact { produced := fun k hk => by simp [takePcmd, hnone] at hk, filled := by simp }
  | pull hp k hk hn hf =>
    refine { produced := nofun, filled := fun _ c n hc hns => ?_ }
    by_cases hnk : n < k.toNat
    · exact Memory.isSome_fillRows (h.produced k hk c n hc hnk hns) _ _ _ _
    · exact Memory.isSome_fillRows_of_mem _ _ (by omega) hc (by omega) (by change n < s.curNs.toNat at hns; omega)
  | acquire hp => exact h.mono (fun _ => id) (fun _ => .inl hp) rfl rfl rfl
  | snapshot hp => exact h.mono (fun _ => id) (fun _ => .inr (.inl hp)) rfl rfl rfl
  | frame hp hb hn t e => rw [e.frame]; exact h.mono e.written id rfl rfl rfl

theorem OutsideEffect.blockWritten {s t : State} (e : OutsideEffect s t) (hs : s.PullTracked) (h : s.BlockWritten) :
    t.BlockWritten := by
  cases e with
  | wait => exact h
  | writeBuf _ c n v rest hin => exact h.mono (fun _ ha => Memory.isSome_write ha _ _) id rfl rfl rfl
  | answer nch ns hr a rest hf =>
    obtain ⟨hpull, rfl, rfl⟩ := hs.request nch ns hr
    refine { produced := fun k hk c n hc hnk hn => ?_, filled := by simp [takeSreq, hpull] }
    cases hk
    exact Memory.isSome_fillRows_of_mem _ _ (by omega) hc (by omega) (by rw [Nat.zero_add]; exact lt_min hnk hn)
  | _ => exact h.mono (fun _ => id) id rfl rfl rfl

/-! ### The canonical form of `BUF` -/

theorem ProcEffect.memory_wf {s t : State} (e : ProcEffect s t) (h : Memory.wf s.buf) : Memory.wf t.buf := by
  cases e with
  | pull => exact Memory.wf_fillRows h _ _ _ _
  | frame hp hb hn t e => exact e.memory h
  | _ => exact h

theorem OutsideEffect.memory_wf {s t : State} (e : OutsideEffect s t) (h : Memory.wf s.buf) : Memory.wf t.buf := by
  cases e with
  | writeBuf => exact Memory.wf_write h _ _
  | answer => exact Memory.wf_fillRows h _ _ _ _
  | _ => exact h

/-! ### `HOSTP` keeps off `BUF` -/

/-- What R76 speaks of: the processing port, whether a block is in progress, and `hostPBlock`. -/
theorem State.HostKeepsOff.congr {s t : State} (h : s.HostKeepsOff) (hc : t.pcmd = s.pcmd) (hr : t.presp = s.presp)
    (hp : t.pstate.busy = s.pstate.busy) (hb : t.hostPBlock = s.hostPBlock) : t.HostKeepsOff where
  sent := by rw [hc, hb]; exact h.sent
  running := by rw [hp, hb]; exact h.running
  outstanding := by rw [hc, hr, hp, hb]; exact h.outstanding

/-- A command answered: the block it may have run is over, and its response waits (R161). -/
theorem State.HostKeepsOff.of_answered {s t : State} (h : s.HostKeepsOff) (hc : t.pcmd = none ∨ t.pcmd = s.pcmd)
    (hr : t.presp ≠ none) (hp : t.pstate.busy = false) (hb : t.hostPBlock = s.hostPBlock) : t.HostKeepsOff where
  sent f hf hd := by
    obtain hc | hc := hc
    · simp [hc] at hf
    · exact hb ▸ h.sent f (hc ▸ hf) hd
  running hbusy := by simp [hp] at hbusy
  outstanding _ := .inr (.inl hr)

theorem ProcEffect.hostKeepsOff {s t : State} (e : ProcEffect s t) (h : s.HostKeepsOff) : t.HostKeepsOff := by
  cases e with
  | wait => exact h
  | answerFault hf hp | releaseNothing hf hp =>
    exact h.of_answered (.inl rfl) nofun (congrArg PState.busy hp) rfl
  | flush hf hp => exact h.of_answered (.inl rfl) nofun (PState.busy_of_ready hp) rfl
  | raiseOnAccept | prepare | release => exact h.of_answered (.inl rfl) nofun rfl rfl
  | raiseOnPull | complete => exact h.of_answered (.inr rfl) nofun rfl rfl
  | admitted hf hd =>
    obtain ⟨f, hf, hd⟩ := hd
    exact { sent := nofun, running := fun _ => h.sent f hf hd, outstanding := fun _ => .inr (.inr rfl) }
  | pull hp | acquire hp | snapshot hp => exact h.congr rfl rfl (congrArg PState.busy hp).symm rfl
  | frame hp hb hn t e => rw [e.frame]; exact h.congr rfl rfl rfl rfl

theorem OutsideEffect.hostKeepsOff {s t : State} (e : OutsideEffect s t) (hs : s.OneOutstanding) (h : s.HostKeepsOff) :
    t.HostKeepsOff := by
  cases e with
  | wait => exact h
  | takePresp w hw =>
    obtain ⟨hc, hb⟩ := hs.of_presp hw
    exact { sent := by simp [hc], running := by simp [hb], outstanding := nofun }
  | sendP hfree f rest =>
    obtain ⟨_, _, ha⟩ := (hostpFree_iff s).1 hfree
    exact
      { sent := fun g hg hd => by cases hg; exact hd
        running := by simp [PState.busy_of_accepting ha]
        outstanding := fun _ => .inl nofun }
  | _ => exact h.congr rfl rfl rfl rfl

/-! ### The stored rate -/

/-- What R143 speaks of: the rate, whether the stage is prepared, and the parameters. -/
theorem State.RateValid.congr {s t : State} (h : s.RateValid) (hf : t.fs = s.fs) (hpar : t.params = s.params)
    (hp : t.pstate.prepared = true → s.pstate.prepared = true) : t.RateValid where
  stored := by rw [hf, hpar]; exact h.stored
  prepared ht := by rw [hf, hpar]; exact h.prepared (hp ht)

theorem ProcEffect.rateValid {s t : State} (e : ProcEffect s t) (h : s.RateValid) : t.RateValid := by
  cases e with
  | wait => exact h
  | answerFault | releaseNothing | flush => exact h.congr rfl rfl id
  | raiseOnAccept | raiseOnPull | release => exact h.congr rfl rfl nofun
  | prepare hf hp hr blk fsIn =>
    have hv := validRate_clampFs s.params fsIn
    exact { stored := .inr hv, prepared := fun _ => hv }
  | admitted hf hd hp => exact h.congr rfl rfl fun _ => congrArg PState.prepared hp
  | pull hp | acquire hp | snapshot hp | complete hp => exact h.congr rfl rfl fun _ => congrArg PState.prepared hp
  | frame hp hb hn t e => rw [e.frame]; exact h.congr rfl rfl id

/-! ### All of them -/

theorem inv_proc (s t : State) (h : s.Inv) (e : ProcEffect s t) : t.Inv where
  coefs := coefsValid_proc s t h.coefs e
  lock := lockOwned_proc s t h.lock e
  fault := e.faultRecorded h.fault
  ports := e.oneOutstanding h.ports
  pull := e.pullTracked h.pull
  fits := e.blockFits h.fits
  block := e.blockWritten h.pull h.block
  memory := e.memory_wf h.memory
  owner := e.hostKeepsOff h.owner
  rate := e.rateValid h.rate

theorem inv_ctrlx (s t : State) (h : s.Inv) (e : CtrlEffect s t) : t.Inv where
  coefs := coefsValid_ctrlx s t h.coefs e
  lock := lockOwned_ctrlx s t h.lock e
  fault := by rw [e.frame_eq]; exact h.fault.congr .rfl rfl
  ports := e.oneOutstanding h.ports
  pull := by rw [e.frame_eq]; exact h.pull.congr .rfl rfl rfl rfl rfl
  fits := by rw [e.frame_eq]; exact h.fits.congr rfl rfl rfl rfl rfl
  block := by rw [e.frame_eq]; exact h.block.mono (fun _ => id) id rfl rfl rfl
  memory := by rw [e.frame_eq]; exact h.memory
  owner := by rw [e.frame_eq]; exact h.owner.congr rfl rfl rfl rfl
  rate := by rw [e.frame_eq]; exact h.rate.congr rfl rfl id

theorem inv_outside (s t : State) (h : s.Inv) (e : OutsideEffect s t) : t.Inv where
  coefs := coefsValid_outside s t h.coefs e
  lock := lockOwned_outside s t h.lock e
  fault := by rw [e.frame_eq]; exact h.fault.congr .rfl rfl
  ports := e.oneOutstanding h.ports
  pull := e.pullTracked h.pull
  fits := by rw [e.frame_eq]; exact h.fits.congr rfl rfl rfl rfl rfl
  block := e.blockWritten h.pull h.block
  memory := e.memory_wf h.memory
  owner := e.hostKeepsOff h.ports h.owner
  rate := by rw [e.frame_eq]; exact h.rate.congr rfl rfl id

/-- Hardware reset gives every invariant, from any state (R44, R270). -/
theorem inv_hardwareReset (s : State) : (hardwareReset s).Inv where
  coefs := coefsValid_hardwareReset s
  lock := lockOwned_hardwareReset s
  fault := ⟨by simp [hardwareReset, State.reset], by simp [hardwareReset, State.reset]⟩
  ports := ⟨nofun, nofun, nofun, fun hc => absurd rfl hc⟩
  pull := .of_not_pull nofun nofun rfl
  fits := .of_not_busy rfl rfl
  block := .of_not_busy (.of_not_pull nofun nofun rfl) rfl
  memory := List.Pairwise.nil
  owner := ⟨nofun, nofun, nofun⟩
  rate := ⟨.inl rfl, nofun⟩

/-- Settles O50: using up a turn, hardware reset and the step of each agent keep the invariants. -/
theorem everyStepKeepsTheInvariants : Obligations.EveryStepKeepsTheInvariants :=
  step_keeps (fun _ => inv_useTurn) inv_hardwareReset inv_proc inv_ctrlx inv_outside

/-- Settles O51: the reset state is what hardware reset makes of it. -/
theorem resetMeetsTheInvariants : Obligations.ResetMeetsTheInvariants := by
  unfold Obligations.ResetMeetsTheInvariants
  rw [← hardwareReset_reset]
  exact inv_hardwareReset State.reset

end Sys2Proof.Machine
end

section
/-! `STATUS`, bit by bit (spec rule R38). -/

namespace Sys2Proof.Machine

/-- `STATUS.PREPARED` (R38). -/
theorem PState.prepared_eq (p : PState) : p.prepared = decide (p ≠ .unprepared ∧ p ≠ .fault) := by cases p <;> rfl

/-- `STATUS.BUSY` (R38). -/
theorem PState.busy_eq (p : PState) :
    p.busy = decide (p = .pull ∨ p = .snapWait ∨ p = .snapHold ∨ p = .run) := by cases p <;> rfl

/-- A flag shifted to bit `k` of a word. -/
theorem getLsbD_flag (b : Bool) (k : Nat) {i : Nat} (hi : i < 32) :
    ((BitVec.ofBool b).setWidth 32 <<< k).getLsbD i = (decide (i = k) && b) := by
  obtain hlt | rfl | hgt := lt_trichotomy i k
  · simp [hlt, hlt.ne]
  · simp [hi]
  · have hpos : i - k ≠ 0 := by omega
    simp [hgt.ne', hpos, BitVec.getLsbD_ofBool]

/-- The fault code in bits 11:8 of a word. -/
theorem getLsbD_code (c : BitVec 4) {i : Nat} (hi : i < 32) :
    (c.setWidth 32 <<< 8).getLsbD i = (decide (8 ≤ i ∧ i ≤ 11) && c.getLsbD (i - 8)) := by
  by_cases h8 : i < 8
  · simp [h8, h8.not_ge]
  · by_cases h11 : i ≤ 11
    · simp [hi, h8, h11, not_lt.1 h8]
    · have hge : c.getLsbD (i - 8) = false := BitVec.getLsbD_of_ge c _ (by omega)
      simp [h11, hge]

/-- `STATUS` is the disjunction of its fields (R38). -/
theorem getLsbD_statusWord (s : State) {i : Nat} (hi : i < 32) :
    (statusWord s).getLsbD i =
      (decide (i = 0) && s.pstate.prepared || decide (i = 1) && s.pstate.busy ||
        decide (i = 2) && s.pstate == .fault || decide (i = 3) && s.cfgErr || decide (i = 4) && !s.cfgBypass ||
        decide (8 ≤ i ∧ i ≤ 11) && s.faultCode.getLsbD (i - 8)) := by
  have h0 := getLsbD_flag s.pstate.prepared 0 hi
  rw [BitVec.shiftLeft_zero] at h0
  simp only [statusWord, BitVec.getLsbD_or, h0, getLsbD_flag _ _ hi, getLsbD_code _ hi]

/-- Settles O36: each bit is one of the five flags, a bit of the fault code, or 0. -/
theorem statusShowsTheBlock : Obligations.StatusShowsTheBlock := by
  intro s i hi
  rw [getLsbD_statusWord s hi, PState.prepared_eq, PState.busy_eq]
  split_ifs with h0 h1 h2 h3 h4 h8
  · simp [h0]
  · simp [h1]
  · simp [h2, beq_eq_decide]
  · simp [h3]
  · simp [h4]
  · simp [h0, h1, h2, h3, h4, h8]
  · simp [h0, h1, h2, h3, h4, h8]

end Sys2Proof.Machine
end

section
/-! The sample-frame step (spec rules R67, R152): what each channel of a frame does, and the two channels in turn. -/

namespace Sys2Proof.Machine

/-! ### One channel -/

/-- What R152 asks of one filtered channel: with the word `x`, the gains `gain` and the instances `q` before the frame,
its word is `out` and its instances are `q'` after it. Operation `i` of the channel uses draw `d + i`. -/
def ChannelFiltered (gain : PerBand Word) (q : Band → Biquad Word) (d : Nat) (x : Word) (out : Option Word)
    (q' : Band → Biquad Word) : Prop :=
  let y0 := biquadOut binary32 d (q .low).coef (q .low).hist x
  let g0 := binary32.fmul (d + 10) (gain.get .low) y0
  let y1 := biquadOut binary32 (d + 11) (q .mid).coef (q .mid).hist g0
  let g1 := binary32.fmul (d + 21) (gain.get .mid) y1
  let y2 := biquadOut binary32 (d + 22) (q .high).coef (q .high).hist g1
  let g2 := binary32.fmul (d + 32) (gain.get .high) y2
  out = some g2 ∧
    q' .low = { q .low with hist := shiftHist (q .low).hist x y0 } ∧
    q' .mid = { q .mid with hist := shiftHist (q .mid).hist g0 y1 } ∧
    q' .high = { q .high with hist := shiftHist (q .high).hist g1 y2 }

/-- Everything one channel `c` of a sample frame does with its word `x`. -/
structure ChannelEffect (c : Chan) (x : Word) (s t : State) : Prop where
  frame : t = { s with flt := t.flt, nanDraws := s.nanDraws + 33, buf := t.buf }
  filtered : ChannelFiltered s.actGain (fun b => instanceOf s b c) s.nanDraws x
    (Memory.read t.buf (Memory.addr (chanRow c) s.curN.toNat)) (fun b => instanceOf t b c)
  others : ∀ c', c' ≠ c → ∀ b, instanceOf t b c' = instanceOf s b c'
  outside : ∀ a, a ≠ Memory.addr (chanRow c) s.curN.toNat → Memory.read t.buf a = Memory.read s.buf a

/-- A channel whose word can be read is filtered (R152). -/
theorem channelFrame_filters {c : Chan} {s : State} {x : Word} (h : bufRead (chanRow c) s.curN.toNat s = .ok x) :
    ∃ t, channelFrame binary32 c s = .next t ∧ ChannelEffect c x s t := by
  obtain ⟨hout, hlow, hmid, hhigh⟩ := cascade_eq binary32 c x s rfl rfl rfl rfl rfl
  refine ⟨_, channelFrame_of_read binary32 h, ?_⟩
  exact
    { frame := rfl
      filtered := ⟨by rw [Memory.read_write_same, hout], hlow, hmid, hhigh⟩
      others := fun c' hc b => cascade_other_channel binary32 hc b x s
      outside := fun a ha => Memory.read_write_of_ne _ _ ha }

/-! ### The channels of a frame -/

/-- The two rows have different words. -/
theorem Memory.addr_chanRow_ne {c c' : Chan} (h : c' ≠ c) (n : Nat) :
    Memory.addr (chanRow c') n ≠ Memory.addr (chanRow c) n := by
  cases c <;> cases c' <;> simp_all [Memory.addr, chanRow]

/-- `BufRead` looks at the parameters and the word only (R60, R64). -/
theorem bufRead_congr {s t : State} {c n : Nat} (hp : t.params = s.params)
    (hr : Memory.read t.buf (Memory.addr c n) = Memory.read s.buf (Memory.addr c n)) : bufRead c n t = bufRead c n s := by
  simp [bufRead, inBuf, hp, hr]

/-- Everything the filtered channels of a frame do with their words, `rows` of them. -/
structure ChannelsEffect (rows : Nat) (word : Chan → Word) (s t : State) : Prop where
  frame : t = { s with flt := t.flt, nanDraws := t.nanDraws, buf := t.buf }
  filtered : ∀ c, chanRow c < rows → ChannelFiltered s.actGain (fun b => instanceOf s b c) (s.nanDraws + 33 * chanRow c)
    (word c) (Memory.read t.buf (Memory.addr (chanRow c) s.curN.toNat)) (fun b => instanceOf t b c)
  others : ∀ c, ¬ chanRow c < rows → ∀ b, instanceOf t b c = instanceOf s b c
  outside : ∀ a, (∀ c, chanRow c < rows → a ≠ Memory.addr (chanRow c) s.curN.toNat) →
    Memory.read t.buf a = Memory.read s.buf a

/-- A frame of no rows filters nothing. -/
theorem channelsEffect_zero (word : Chan → Word) (s : State) : ChannelsEffect 0 word s s where
  frame := rfl
  filtered _ h := absurd h (Nat.not_lt_zero _)
  others _ _ _ := rfl
  outside _ _ := rfl

/-- A frame of one row filters L. -/
theorem ChannelEffect.one {word : Chan → Word} {s t : State} (e : ChannelEffect .left (word .left) s t) :
    ChannelsEffect 1 word s t where
  frame := by rw [e.frame]
  filtered
    | .left, _ => e.filtered
    | .right, h => absurd h (by decide)
  others
    | .left, h => absurd (by decide) h
    | .right, _ => e.others .right (by decide)
  outside a ha := e.outside a (ha .left (by decide))

/-- A frame of two rows or more filters L, then R. -/
theorem ChannelEffect.two {word : Chan → Word} {s u t : State} (l : ChannelEffect .left (word .left) s u)
    (r : ChannelEffect .right (word .right) u t) (m : Nat) : ChannelsEffect (m + 2) word s t := by
  have hn : u.curN = s.curN := by rw [l.frame]
  have hg : u.actGain = s.actGain := by rw [l.frame]
  have hd : u.nanDraws = s.nanDraws + 33 := by rw [l.frame]
  refine { frame := by rw [r.frame, l.frame], filtered := ?_, others := ?_, outside := fun a ha => ?_ }
  · rintro (_ | _) -
    · have hq : ∀ b, instanceOf t b .left = instanceOf u b .left := r.others .left (by decide)
      have hw := r.outside (Memory.addr (chanRow .left) s.curN.toNat)
        (hn ▸ Memory.addr_chanRow_ne (c := .right) (c' := .left) (by decide) s.curN.toNat)
      simp only [hq, hw]
      exact l.filtered
    · have hq : ∀ b, instanceOf u b .right = instanceOf s b .right := l.others .right (by decide)
      have hright := r.filtered
      simp only [hq, hn, hg, hd] at hright
      exact hright
  · rintro (_ | _) hc <;> exact absurd (by simp [chanRow]) hc
  · rw [r.outside a (hn ▸ ha .right (by simp [chanRow])), l.outside a (ha .left (by simp [chanRow]))]

/-- The channels of a frame whose words can be read are filtered (R152). -/
theorem channelFrames_filter (rows : Nat) {word : Chan → Word} {s : State}
    (h : ∀ c, chanRow c < rows → bufRead (chanRow c) s.curN.toNat s = .ok (word c)) :
    ∃ t, channelFrames binary32 rows s = .next t ∧ ChannelsEffect rows word s t := by
  match rows, h with
  | 0, _ => exact ⟨s, rfl, channelsEffect_zero word s⟩
  | 1, h =>
    obtain ⟨t, ht, e⟩ := channelFrame_filters (h .left (by decide))
    exact ⟨t, ht, e.one⟩
  | m + 2, h =>
    obtain ⟨u, hu, l⟩ := channelFrame_filters (h .left (by simp [chanRow]))
    have hr : bufRead (chanRow .right) u.curN.toNat u = .ok (word .right) := by
      have hn : u.curN = s.curN := by rw [l.frame]
      rw [← h .right (by simp [chanRow]), hn]
      exact bufRead_congr (by rw [l.frame]) (l.outside _ (Memory.addr_chanRow_ne (by decide) _))
    obtain ⟨t, ht, r⟩ := channelFrame_filters hr
    exact ⟨t, by simp [channelFrames, hu, andThen, ht], l.two r m⟩

/-! ### The step of `PROC` in `RUN` -/

/-- A step of `PROC` in `RUN` (R152, R153, R155). -/
theorem procStep_of_run {N : NumOps Word} {s : State} (hp : s.pstate = .run) :
    procStepWith N s =
      if s.actBypass ∨ s.curN = s.curNs then .next (completeBlock s)
      else if s.curN.toNat < s.curNs.toNat then sampleFrame N s
      else .next s := by
  simp [procStepWith, hp]

/-- In `RUN`, a block that is not bypassed and has samples left does a sample frame (R152). -/
theorem procStep_of_samples_left {N : NumOps Word} {s : State} (hp : s.pstate = .run) (hb : s.actBypass = false)
    (hn : s.curN.toNat < s.curNs.toNat) : procStepWith N s = sampleFrame N s := by
  have hne : s.curN ≠ s.curNs := fun h => by simp [h] at hn
  simp [procStep_of_run hp, hb, hne, hn]

/-- The sample-frame step, its words read (R152): the channels, then `cur_n` advanced. -/
theorem sampleFrame_filters {word : Chan → Word} {s : State}
    (h : ∀ c, chanRow c < s.curNch.toNat → bufRead (chanRow c) s.curN.toNat s = .ok (word c)) :
    ∃ t, sampleFrame binary32 s =
        .next { s with flt := t.flt, nanDraws := t.nanDraws, buf := t.buf, curN := s.curN + 1#32 } ∧
      ChannelsEffect s.curNch.toNat word s t := by
  obtain ⟨t, ht, e⟩ := channelFrames_filter s.curNch.toNat h
  refine ⟨t, ?_, e⟩
  simp only [sampleFrame, ht, andThen]
  rw [e.frame]

/-- Settles O28: the step is the sample frame, whose channels are filtered one after the other. -/
theorem sampleFrameRunsTheBandsInSeries : Obligations.SampleFrameRunsTheBandsInSeries := by
  intro s word hp hb hn hread
  obtain ⟨t, ht, e⟩ := sampleFrame_filters hread
  exact ⟨t.flt, t.nanDraws, t.buf, (procStep_of_samples_left hp hb hn).trans ht, fun c hc b => e.others c hc b,
    e.outside, e.filtered⟩

end Sys2Proof.Machine
end

section
/-! While a block runs its samples, the step of `PROC` does not read the guarded unit (spec rules R71, R157). -/

namespace Sys2Proof.Machine

/-- The state with another guarded unit (R28). -/
def State.withGuarded (coef : PerBand (Coefs Word)) (gain : PerBand Word) (bypass : Bool) (s : State) : State :=
  { s with cfgCoef := coef, cfgGain := gain, cfgBypass := bypass }

theorem andThen_eq_next {o : Host.Outcome State Fault Refusal} {f : State → Host.Outcome State Fault Refusal}
    {t : State} : andThen o f = .next t ↔ ∃ u, o = .next u ∧ f u = .next t := by
  cases o <;> simp [andThen]

section
variable {N : NumOps Word} (coef : PerBand (Coefs Word)) (gain : PerBand Word) (bypass : Bool) {s t : State}

/-- A band stage does not read the guarded unit. -/
theorem bandStage_withGuarded (b : Band) (c : Chan) (x : Word) (s : State) :
    bandStage N b c x (s.withGuarded coef gain bypass) =
      ((bandStage N b c x s).1, (bandStage N b c x s).2.withGuarded coef gain bypass) := rfl

theorem cascade_withGuarded (c : Chan) (x : Word) (s : State) :
    cascade N c x (s.withGuarded coef gain bypass) =
      ((cascade N c x s).1, (cascade N c x s).2.withGuarded coef gain bypass) := by
  simp only [cascade, bandStage_withGuarded]

/-- One channel of a sample frame over another guarded unit: it reads its word of `BUF` and its instances. -/
theorem channelFrame_withGuarded {c : Chan} (h : channelFrame N c s = .next t) :
    channelFrame N c (s.withGuarded coef gain bypass) = .next (t.withGuarded coef gain bypass) := by
  obtain ⟨x, hx, rfl⟩ := channelFrame_next h
  rw [channelFrame_of_read N (s := s.withGuarded coef gain bypass) hx, cascade_withGuarded]
  rfl

theorem channelFrames_withGuarded (rows : Nat) (h : channelFrames N rows s = .next t) :
    channelFrames N rows (s.withGuarded coef gain bypass) = .next (t.withGuarded coef gain bypass) := by
  match rows, h with
  | 0, h =>
    obtain rfl : s = t := by simpa [channelFrames] using h
    rfl
  | 1, h => exact channelFrame_withGuarded coef gain bypass h
  | m + 2, h =>
    obtain ⟨u, hl, hr⟩ := andThen_eq_next.1 h
    exact andThen_eq_next.2
      ⟨_, channelFrame_withGuarded coef gain bypass hl, channelFrame_withGuarded coef gain bypass hr⟩

theorem sampleFrame_withGuarded (h : sampleFrame N s = .next t) :
    sampleFrame N (s.withGuarded coef gain bypass) = .next (t.withGuarded coef gain bypass) := by
  obtain ⟨u, hu, ht⟩ := andThen_eq_next.1 h
  obtain rfl : { u with curN := s.curN + 1#32 } = t := by simpa using ht
  exact andThen_eq_next.2 ⟨_, channelFrames_withGuarded coef gain bypass _ hu, rfl⟩

/-- A step of `PROC` in `RUN` over another guarded unit (R71). -/
theorem procStep_withGuarded (hp : s.pstate = .run) (h : procStepWith N s = .next t) :
    procStepWith N (s.withGuarded coef gain bypass) = .next (t.withGuarded coef gain bypass) := by
  rw [procStep_of_run hp] at h
  rw [procStep_of_run (s := s.withGuarded coef gain bypass) hp]
  change (if s.actBypass ∨ s.curN = s.curNs then _ else if s.curN.toNat < s.curNs.toNat then _ else _) = _
  split_ifs at h ⊢ with hdone hn
  · obtain rfl : completeBlock s = t := by simpa using h
    rfl
  · exact sampleFrame_withGuarded coef gain bypass h
  · obtain rfl : s = t := by simpa using h
    rfl

end

/-- Settles O47: neither completion nor a sample frame reads the guarded unit. -/
theorem runningBlockCannotSeeTheGuardedUnit : Obligations.RunningBlockCannotSeeTheGuardedUnit :=
  fun _ _ coef gain bypass hp h => procStep_withGuarded coef gain bypass hp h

end Sys2Proof.Machine
end

section
/-! In a state that meets the invariants only `HOSTP`'s step can stop the machine (spec rules R64, R242). -/

namespace Sys2Proof.Machine

/-- A region of `BUF` within the bounds of R60. -/
theorem regionFits_iff (s : State) (nch ns : Nat) :
    regionFits s nch ns = true ↔ nch ≤ s.params.maxCh ∧ ns ≤ s.params.maxBlk := by
  simp [regionFits]

/-- Accepting a frame never stops the machine: `exec` does not, nor does an illegal frame (R87). -/
theorem procAccept_next (s : State) : ∃ t, procAccept s = .next t := by
  unfold procAccept acceptProcessing illegalProcessing serveProcessing
  split
  · split
    · exact exec_next _ s
    · split <;> exact ⟨_, rfl⟩
  · exact ⟨_, rfl⟩

theorem acceptControl_next (f : Frame) (s : State) : ∃ t, acceptControl f s = .next t := by
  unfold acceptControl illegalControl serveControl
  split
  · exact exec_next _ s
  · split <;> exact ⟨_, rfl⟩

/-- The pull answer of a block that fits `BUF` (R149). -/
theorem pullAnswer_next {s : State} (hf : regionFits s s.curNch.toNat s.curNs.toNat = true) (k : Word) :
    ∃ t, pullAnswer k s = .next t := by
  unfold pullAnswer
  rw [if_pos hf]
  split <;> exact ⟨_, rfl⟩

/-- The source's answer to a fill of a region in `BUF` (R162). -/
theorem srcAnswer_next {nch ns : Word} {s : State} (hf : regionFits s nch.toNat ns.toNat = true) (a : SrcAnswer) :
    ∃ t, srcAnswer a nch ns s = .next t := by
  unfold srcAnswer
  rw [if_pos hf]
  exact ⟨_, rfl⟩

/-- While samples are left in `RUN`, the words of the frame exist and are written (R60, R64). -/
theorem State.Inv.bufRead_ok {s : State} (h : s.Inv) (hp : s.pstate = .run) (hn : s.curN.toNat < s.curNs.toNat) {c : Nat}
    (hc : c < s.curNch.toNat) : ∃ w, bufRead c s.curN.toNat s = .ok w := by
  obtain ⟨hch, hblk⟩ := h.fits.fits (congrArg PState.busy hp)
  obtain ⟨w, hw⟩ := Option.isSome_iff_exists.1 (h.block.filled (.inr (.inr hp)) c s.curN.toNat hc hn)
  exact ⟨w, bufRead_eq_ok ((inBuf_iff s c _).2 ⟨by omega, by omega⟩) hw⟩

/-- A sample frame of a running block never stops the machine (R64). -/
theorem sampleFrame_next_of_inv {s : State} (h : s.Inv) (hp : s.pstate = .run) (hn : s.curN.toNat < s.curNs.toNat) :
    ∃ t, sampleFrame binary32 s = .next t := by
  have hread : ∀ c, ∃ w, chanRow c < s.curNch.toNat → bufRead (chanRow c) s.curN.toNat s = .ok w := fun c => by
    by_cases hc : chanRow c < s.curNch.toNat
    · exact (h.bufRead_ok hp hn hc).imp fun w hw _ => hw
    · exact ⟨0#32, fun hc' => absurd hc' hc⟩
  choose word hword using hread
  obtain ⟨t, ht, _⟩ := sampleFrame_filters hword
  exact ⟨_, ht⟩

/-- No step of `PROC` stops the machine. -/
theorem procStep_next {s : State} (h : s.Inv) : ∃ t, procStep s = .next t := by
  unfold procStep procStepWith
  split
  · exact procAccept_next s
  · exact procAccept_next s
  · exact procAccept_next s
  · rename_i hp
    split
    · exact pullAnswer_next ((regionFits_iff s _ _).2 (h.fits.fits (congrArg PState.busy hp))) _
    · exact ⟨_, rfl⟩
  · split <;> exact ⟨_, rfl⟩
  · exact ⟨_, rfl⟩
  · rename_i hp
    split_ifs with hdone hn
    · exact ⟨_, rfl⟩
    · exact sampleFrame_next_of_inv h hp hn
    · exact ⟨_, rfl⟩

/-- No step of `SRC` stops the machine: the fill it answers is the one of the block in progress, which fits (R147). -/
theorem srcStep_next {s : State} (h : s.Inv) : ∃ t, srcStep s = .next t := by
  unfold srcStep
  split
  · exact ⟨_, rfl⟩
  · exact ⟨_, rfl⟩
  · exact ⟨_, rfl⟩
  · rename_i nch ns hr
    split
    · exact ⟨_, rfl⟩
    · obtain ⟨hp, rfl, rfl⟩ := h.pull.request nch ns hr
      refine srcAnswer_next ((regionFits_iff _ _ _).2 ?_) _
      exact h.fits.fits (congrArg PState.busy hp)

theorem hostcStep_next (s : State) : ∃ t, hostcStep s = .next t := by
  unfold hostcStep
  split
  · exact ⟨_, rfl⟩
  · split
    · exact ⟨_, rfl⟩
    · split <;> exact ⟨_, rfl⟩

theorem ctrlxStep_next (s : State) : ∃ t, ctrlxStep s = .next t := by
  unfold ctrlxStep
  split
  · split
    · exact acceptControl_next _ s
    · exact ⟨_, rfl⟩
  · split <;> exact ⟨_, rfl⟩
  · exact ⟨_, rfl⟩

/-- Settles O52: no agent but `HOSTP` stops the machine. -/
theorem onlyTheHostCanReadAnUnwrittenWord : Obligations.OnlyTheHostCanReadAnUnwrittenWord := by
  intro s a h ha
  cases a with
  | hostp => exact absurd rfl ha
  | proc => exact procStep_next h
  | src => exact srcStep_next h
  | hostc => exact hostcStep_next s
  | ctrlx => exact ctrlxStep_next s

end Sys2Proof.Machine
end

section
/-! The hosts' steps (spec rules R160, R164, R181): a host sends, takes a response or waits; what each outside agent's step
leaves; and who touches `BUF` (R61, R76, R165). -/

namespace Sys2Proof.Machine

/-! ### `HOSTP` sends, takes a response, or waits -/

theorem PState.accepting_iff (p : PState) : p.accepting = true ↔ p = .unprepared ∨ p = .idle ∨ p = .fault := by
  cases p <;> simp [PState.accepting]

/-- Frames are accepted exactly outside a block (R34, R161). -/
theorem PState.accepting_eq_not_busy (p : PState) : p.accepting = !p.busy := by cases p <;> rfl

/-- When `HOSTP` may touch `BUF` (R61, R76). -/
theorem hostpOwnsBuf_iff (s : State) : hostpOwnsBuf s = true ↔ s.pstate.accepting = true ∧ s.hostPBlock = false := by
  simp [hostpOwnsBuf]

/-- What `HOSTP`'s script may do needs nothing outstanding on its port, or is an access to `BUF` (R160, R165). -/
theorem hostpFree_or_access {s : State} (h : hostpScriptGoes s = true) : hostpFree s = true ∨ HostAccessGoes s := by
  unfold hostpScriptGoes at h
  split at h
  · cases h
  · rename_i a rest hs
    cases a with
    | send f => exact .inl h
    | write c n v =>
      exact .inr ⟨.inl ⟨c, n, v, rest, hs⟩, (hostpOwnsBuf_iff s).1 h⟩
    | read c n =>
      exact .inr ⟨.inr ⟨c, n, rest, hs⟩, (hostpOwnsBuf_iff s).1 h⟩
    | awaitResponse => exact .inl h
    | awaitDone => exact .inl (Bool.and_eq_true_iff.1 h).1
    | awaitSignals n => exact .inl (Bool.and_eq_true_iff.1 h).1

/-- With a command or its response outstanding and no access to make, `HOSTP`'s script stands (R160). -/
theorem hostpScript_stands {s : State} (ha : ¬ HostAccessGoes s) (hfree : hostpFree s = false) :
    hostpScriptGoes s = false := by
  by_contra h
  obtain hf | hacc := hostpFree_or_access (by simpa using h)
  · simp [hfree] at hf
  · exact ha hacc

/-- Where its script stands, `HOSTP` takes a response (R164). -/
theorem hostpStep_of_stands {s : State} (h : hostpScriptGoes s = false) : hostpStep s = hostpTake s := by
  cases hs : s.hostP with
  | nil => simp [hostpStep, hs]
  | cons a rest =>
    have hmay : hostpMay a s = false := by simpa [hostpScriptGoes, hs] using h
    simp [hostpStep, hs, hmay]

/-- Where its script stands and no response waits, `HOSTP` has no step. -/
theorem hostp_waits {s : State} (h : hostpScriptGoes s = false) (hr : s.presp = none) :
    hasStep .hostp s = false ∧ hostpStep s = .next s := by
  rw [hostpStep_of_stands h]
  simp [hasStep, hostpHasStep, hostpTake, h, hr]

/-! ### `HOSTC` sends, takes a response, or waits -/

/-- What `HOSTC`'s script may do needs nothing outstanding on its port (R181). -/
theorem hostcFree_of_goes {s : State} (h : hostcScriptGoes s = true) : hostcFree s = true := by
  unfold hostcScriptGoes at h
  split at h
  · cases h
  · rename_i a rest hs
    cases a with
    | send f => exact h
    | awaitOk => exact (Bool.and_eq_true_iff.1 h).1
    | signal => exact h

/-- Where its script stands and no response waits, `HOSTC` has no step. -/
theorem hostc_waits {s : State} (h : hostcScriptGoes s = false) (hr : s.cresp = none) :
    hasStep .hostc s = false ∧ hostcStep s = .next s := by
  refine ⟨by simp [hasStep, hostcHasStep, h, hr], ?_⟩
  cases hs : s.hostC with
  | nil => simp [hostcStep, hr, hs]
  | cons a rest =>
    have hmay : hostcMay a s = false := by simpa [hostcScriptGoes, hs] using h
    simp [hostcStep, hr, hs, hmay]

/-! ### What a step of each outside agent leaves -/

theorem hostpTake_frame {s t : State} (h : hostpTake s = .next t) :
    t = { s with presp := t.presp, hostPBlock := t.hostPBlock, hostPAnswer := t.hostPAnswer, obs := t.obs } := by
  unfold hostpTake at h
  split at h <;> injection h with h <;> subst h <;> rfl

theorem hostpAct_frame {a : HostPAction} {s t : State} (h : hostpAct a s = .next t) :
    t = { s with
      pcmd := t.pcmd, buf := t.buf, hostPBlock := t.hostPBlock, hostPAnswer := t.hostPAnswer, obs := t.obs } := by
  unfold hostpAct at h
  split at h
  · injection h with h; subst h; rfl
  · split at h
    · injection h with h; subst h; rfl
    · cases h
  · split at h
    · injection h with h; subst h; rfl
    · cases h
  all_goals injection h with h; subst h; rfl

/-- What a step of `HOSTP` leaves (R260): the block but `BUF` and the slots of its port, the other outside agents, the
schedule. -/
theorem hostpStep_frame {s t : State} (h : hostpStep s = .next t) :
    t = { s with
      pcmd := t.pcmd, presp := t.presp, buf := t.buf, hostP := t.hostP, hostPBlock := t.hostPBlock,
      hostPAnswer := t.hostPAnswer, obs := t.obs } := by
  unfold hostpStep at h
  split at h
  · rw [hostpTake_frame h]
  · split at h
    · rw [hostpAct_frame h]
    · rw [hostpTake_frame h]

/-- What a step of `HOSTC` leaves (R181, R260): all but its own script, the slots of its port and its observations. -/
theorem hostcStep_frame {s t : State} (h : hostcStep s = .next t) :
    t = { s with
      ccmd := t.ccmd, cresp := t.cresp, hostC := t.hostC, hostCAnswer := t.hostCAnswer,
      hostCSignals := t.hostCSignals, obs := { s.obs with cresps := t.obs.cresps } } := by
  unfold hostcStep at h
  split at h
  · injection h with h; subst h; rfl
  · split at h
    · injection h with h; subst h; rfl
    · rename_i a rest hs
      split at h <;> injection h with h <;> subst h
      · cases a <;> rfl
      · rfl

/-- What a step of `SRC` leaves (R162, R163, R260): all but the source port, its answers, its observations and, for a
fill, `BUF`. -/
theorem srcStep_frame {s t : State} (h : srcStep s = .next t) :
    t = { s with
      sreq := t.sreq, sresp := t.sresp, buf := t.buf, source := t.source, obs := { s.obs with sreqs := t.obs.sreqs } } ∧
      (t.buf = s.buf ∨ ∃ nch ns, s.sreq = some (.fill nch ns)) := by
  unfold srcStep at h
  split at h
  · injection h with h; subst h; exact ⟨rfl, .inl rfl⟩
  · injection h with h; subst h; exact ⟨rfl, .inl rfl⟩
  · injection h with h; subst h; exact ⟨rfl, .inl rfl⟩
  · rename_i nch ns hr
    split at h
    · injection h with h; subst h; exact ⟨rfl, .inl rfl⟩
    · unfold srcAnswer at h
      split at h
      · injection h with h; subst h; exact ⟨rfl, .inr ⟨nch, ns, hr⟩⟩
      · cases h

/-! ### Signals -/

/-- The one step that signals is `HOSTC`'s, at a `signal` in its script (R225). -/
theorem agentStep_signals {a : Agent} {s t : State} (h : agentStep a s = .next t)
    (hne : t.hostCSignals ≠ s.hostCSignals) :
    a = .hostc ∧ t.hostCSignals = s.hostCSignals + 1 ∧ ∃ rest, s.hostC = .signal :: rest := by
  cases a with
  | hostp => exact absurd (by rw [hostpStep_frame h]) hne
  | proc => exact absurd (by rw [(procStep_effect h).frame_eq]) hne
  | src => exact absurd (by rw [(srcStep_frame h).1]) hne
  | ctrlx => exact absurd (by rw [(ctrlxStep_effect h).frame_eq]) hne
  | hostc =>
    refine ⟨rfl, ?_⟩
    cases hostcStep_effect h with
    | signalled hfree rest hs => exact ⟨rfl, rest, hs⟩
    | _ => exact absurd rfl hne

/-- Only `HOSTC`'s turn gives a signal. -/
theorem step_signals {s t : State} (h : step s = .next t) (hne : t.hostCSignals ≠ s.hostCSignals) :
    nextTurn s = .agent .hostc ∧ t.hostCSignals = s.hostCSignals + 1 ∧ ∃ rest, s.hostC = .signal :: rest := by
  have hsig : (useTurn s).hostCSignals = s.hostCSignals := by rw [useTurn_frame]
  have hscript : (useTurn s).hostC = s.hostC := by rw [useTurn_frame]
  obtain ⟨_, rfl⟩ | ⟨a, ha, ⟨_, hstep⟩ | rfl⟩ := step_effect h
  · exact absurd hsig hne
  · obtain ⟨rfl, hcount, hs⟩ := agentStep_signals hstep (hsig ▸ hne)
    exact ⟨ha, hsig ▸ hcount, hscript ▸ hs⟩
  · exact absurd hsig hne

/-- Settles O42: what may go in each script, and, where it stands, the waiting response or no step. -/
theorem hostsSendOneCommandAtATime : Obligations.HostsSendOneCommandAtATime := by
  intro s
  refine ⟨fun f rest hs hc hr hp => ?_, fun w hw => ⟨?_, fun ha => ?_⟩, fun hr hbusy ha => ?_,
    fun n rest hr hwait => ?_, fun f rest hs hc hr hcs => ?_, fun r hr => ?_, fun rest hr hs ha => ?_,
    fun hr hbusy => ?_, fun t h hne => step_signals h hne⟩
  · have hfree : hostpFree s = true := (hostpFree_iff s).2 ⟨hc, hr, (PState.accepting_iff _).2 hp⟩
    rw [hostpStep_of_may hs hfree]
    rfl
  · simp [hasStep, hostpHasStep, hw]
  · rw [hostpStep_of_stands (hostpScript_stands ha (by simp [hostpFree, hw]))]
    simp [hostpTake, hw]
  · refine hostp_waits (hostpScript_stands ha ?_) hr
    obtain hc | hb := hbusy
    · simp [hostpFree, hc]
    · simp [hostpFree, PState.accepting_eq_not_busy, hb]
  · refine hostp_waits ?_ hr
    obtain ⟨hs, ha⟩ | ⟨hs, hn⟩ := hwait
    · simp [hostpScriptGoes, hs, hostpMay, okWord_eq, ha]
    · simp [hostpScriptGoes, hs, hostpMay, hn]
  · have hfree : hostcFree s = true := (hostcFree_iff s).2 ⟨hc, hr, hcs⟩
    simp [hostcStep, hr, hs, hostcMay, hfree, hostcAct]
  · simp [hostcStep, hr]
  · exact hostc_waits (by simp [hostcScriptGoes, hs, hostcMay, okWord_eq, ha]) hr
  · refine hostc_waits ?_ hr
    by_contra hgo
    obtain ⟨hc, _, hcs⟩ := (hostcFree_iff s).1 (hostcFree_of_goes (by simpa using hgo))
    exact hbusy.elim (absurd hc) (absurd hcs)

/-! ### Who touches `BUF` -/

/-- A frame counts as a `PROCESS` exactly if it decodes to one (R76). -/
theorem isProcessFrame_iff (f : Frame) :
    isProcessFrame f = true ↔ ∃ nch ns, decode .processing f = .ok (.process nch ns) := by
  unfold isProcessFrame
  split
  · rename_i i hi
    cases i <;> simp [startsBlock, hi]
  · simp [*]

/-- A step of `HOSTP` touches `BUF` only as its owner (R61, R76). -/
theorem hostpStep_owns {s t : State} (h : hostpStep s = .next t) (hne : t.buf ≠ s.buf ∨ t.obs.reads ≠ s.obs.reads) :
    hostpOwnsBuf s = true := by
  have hframe := hostpStep_frame h
  cases hostpStep_effect h with
  | writeBuf hown => exact hown
  | readBuf hown => exact hown
  | answer nch ns hr =>
    have hr' : s.sreq = none := (congrArg State.sreq hframe).symm
    simp [hr'] at hr
  | _ => exact hne.elim (absurd rfl) (absurd rfl)

/-- A step of `PROC` touches `BUF` only as it leaves `PULL` and in `RUN` (R150, R152). -/
theorem ProcEffect.buf_eq {s t : State} (e : ProcEffect s t) (h : ¬ (s.pstate = .pull ∨ s.pstate = .run)) :
    t.buf = s.buf := by
  cases e with
  | pull hp => exact absurd (.inl hp) h
  | frame hp => exact absurd (.inr hp) h
  | _ => rfl

/-- Whose step touches `BUF`, and in which phase (R61, R76, R165). -/
theorem agentStep_touches {a : Agent} {s t : State} (hinv : s.Inv) (h : agentStep a s = .next t)
    (hne : t.buf ≠ s.buf ∨ t.obs.reads ≠ s.obs.reads) :
    (a = .hostp ∧ hostpOwnsBuf s = true) ∨ (a = .src ∧ s.pstate = .pull) ∨
      (a = .proc ∧ (s.pstate = .pull ∨ s.pstate = .run)) := by
  cases a with
  | hostp => exact .inl ⟨rfl, hostpStep_owns h hne⟩
  | proc =>
    have e := procStep_effect h
    have hreads : t.obs.reads = s.obs.reads := by rw [e.frame_eq]
    exact .inr (.inr ⟨rfl, not_not.1 fun hp => hne.elim (absurd (e.buf_eq hp)) (absurd hreads)⟩)
  | src =>
    obtain ⟨hframe, hbuf | ⟨nch, ns, hr⟩⟩ := srcStep_frame h
    · have hreads : t.obs.reads = s.obs.reads := by rw [hframe]
      exact hne.elim (absurd hbuf) (absurd hreads)
    · exact .inr (.inl ⟨rfl, (hinv.pull.request nch ns hr).1⟩)
  | hostc =>
    have hbuf : t.buf = s.buf := by rw [hostcStep_frame h]
    have hreads : t.obs.reads = s.obs.reads := by rw [hostcStep_frame h]
    exact hne.elim (absurd hbuf) (absurd hreads)
  | ctrlx =>
    have e := ctrlxStep_effect h
    have hbuf : t.buf = s.buf := by rw [e.frame_eq]
    have hreads : t.obs.reads = s.obs.reads := by rw [e.frame_eq]
    exact hne.elim (absurd hbuf) (absurd hreads)

/-! ### From sending a `PROCESS` to taking its response -/

/-- While `HOSTP` has a `PROCESS` outstanding it may not send (R76, R160). -/
theorem State.HostKeepsOff.not_free {s : State} (h : s.HostKeepsOff) (hb : s.hostPBlock = true) :
    ¬ hostpFree s = true := by
  intro hfree
  obtain ⟨hc, hr, ha⟩ := (hostpFree_iff s).1 hfree
  obtain hout | hout | hout := h.outstanding hb
  · exact hout hc
  · exact hout hr
  · simp [PState.busy_of_accepting ha] at hout

/-- Of the agents' steps only `HOSTP`'s taking of a response ends `hostPBlock` (R76). -/
theorem agentStep_hostPBlock {a : Agent} {s t : State} (hown : s.HostKeepsOff) (h : agentStep a s = .next t)
    (hb : s.hostPBlock = true) : t.hostPBlock = true ∨ (a = .hostp ∧ s.presp ≠ none ∧ t.presp = none) := by
  cases a with
  | hostp =>
    cases hostpStep_effect h with
    | takePresp w hw => exact .inr ⟨rfl, by simp [hw], rfl⟩
    | sendP hfree => exact absurd hfree (hown.not_free hb)
    | _ => exact .inl hb
  | proc => exact .inl (by rw [(procStep_effect h).frame_eq]; exact hb)
  | src => exact .inl (by rw [(srcStep_frame h).1]; exact hb)
  | hostc => exact .inl (by rw [hostcStep_frame h]; exact hb)
  | ctrlx => exact .inl (by rw [(ctrlxStep_effect h).frame_eq]; exact hb)

/-- Settles O44: the owner of the phase by agent, and `hostPBlock` over the step of each agent. -/
theorem onlyTheOwnerTouchesTheBuffer : Obligations.OnlyTheOwnerTouchesTheBuffer := by
  refine ⟨isProcessFrame_iff, fun s t a hinv h hne => ?_, fun s t hinv h hb => ?_⟩
  · have hne : t.buf ≠ s.buf ∨ t.obs.reads ≠ s.obs.reads :=
      hne.imp_left fun hbuf heq => hbuf fun x => by rw [heq]
    refine (agentStep_touches hinv h hne).imp_left fun ⟨ha, hown⟩ => ?_
    obtain ⟨hacc, hb⟩ := (hostpOwnsBuf_iff s).1 hown
    refine ⟨ha, (PState.accepting_iff _).1 hacc, hb, fun ⟨f, nch, ns, hf, hd⟩ => ?_⟩
    have := hinv.owner.sent f hf ((isProcessFrame_iff f).2 ⟨nch, ns, hd⟩)
    simp [hb] at this
  · have hb' : (useTurn s).hostPBlock = true := by rw [useTurn_frame]; exact hb
    have hr : (useTurn s).presp = s.presp := by rw [useTurn_frame]
    obtain ⟨hreset, _⟩ | ⟨a, ha, ⟨_, hstep⟩ | rfl⟩ := step_effect h
    · exact .inr (.inl hreset)
    · obtain hkept | ⟨rfl, hw, ht⟩ := agentStep_hostPBlock (inv_useTurn hinv).owner hstep hb'
      · exact .inl hkept
      · exact .inr (.inr ⟨ha, hr ▸ hw, ht⟩)
    · exact .inl hb'

end Sys2Proof.Machine
end

section
/-! A block in progress ends in every weakly fair run whose source answers (spec rules R74, R148, R292): a measure of the
work left to the block and to the control side, which no step raises, and an agent that has a step and whose step lowers
it. -/

namespace Sys2Proof.Machine

/-! ### The work left and the agent that does it -/

/-- The steps of `SRC` and `PROC` left to the block in progress. -/
def blockWork (s : State) : Nat :=
  match s.pstate with
  | .pull => (if s.sresp.isSome then 3 else 4) + s.curNs.toNat
  | .snapWait => 2 + s.curNs.toNat
  | .snapHold => 1 + s.curNs.toNat
  | .run => s.curNs.toNat - s.curN.toNat
  | .unprepared => 0
  | .idle => 0
  | .fault => 0

/-- The agent the block in progress waits for: the source for a fill, `CTRLX` while it has the lock `PROC` waits for, else
`PROC`. -/
def blockHelper (s : State) : Agent :=
  match s.pstate with
  | .pull => if s.sresp.isSome then .proc else .src
  | .snapWait => if s.lock = .free then .proc else .ctrlx
  | .snapHold => .proc
  | .run => .proc
  | .unprepared => .proc
  | .idle => .proc
  | .fault => .proc

/-- The work left to the block and to the control side, whose use of the lock may hold the block up (R74). -/
def workLeft (s : State) : Nat := blockWork s + controlWork s

theorem workLeft_useTurn (s : State) : workLeft (useTurn s) = workLeft s := by rw [useTurn_frame]; rfl

theorem blockHelper_useTurn (s : State) : blockHelper (useTurn s) = blockHelper s := by rw [useTurn_frame]; rfl

/-- The phases of a block in progress (R38). -/
theorem PState.busy_cases {p : PState} (h : p.busy = true) : p = .pull ∨ p = .snapWait ∨ p = .snapHold ∨ p = .run := by
  simpa [PState.busy_eq] using h

/-- Every fill the source is asked for has an answer in its script (R148). -/
def State.Answered (s : State) : Prop := ∀ nch ns, s.sreq = some (.fill nch ns) → s.source ≠ []

/-- The agent a block in progress waits for has a step. -/
theorem hasStep_blockHelper {s : State} (h : s.Inv) (hsrc : s.Answered) (hb : s.pstate.busy = true) :
    hasStep (blockHelper s) s = true := by
  obtain hp | hp | hp | hp := PState.busy_cases hb
  · by_cases hr : s.sresp.isSome = true
    · simp [blockHelper, hasStep, procHasStep, hp, hr]
    · have hfill : s.sreq = some (.fill s.curNch s.curNs) := (h.pull.pull hp).resolve_right hr
      simp [blockHelper, hasStep, srcHasStep, hp, hr, hfill, hsrc _ _ hfill]
  · cases hl : s.lock with
    | free => simp [blockHelper, hasStep, procHasStep, hp, hl]
    | ctrl => simp [blockHelper, hasStep, ctrlxHasStep, hp, hl, h.lock.ctrl.1 hl]
    | proc => simp [h.lock.proc.1 hl] at hp
  · simp [blockHelper, hasStep, procHasStep, hp]
  · simp [blockHelper, hasStep, procHasStep, hp, h.fits.loop hb]

/-! ### The steps of the agents -/

/-- A step of `PROC` does not touch the control side's work. -/
theorem ProcEffect.controlWork_eq {s t : State} (e : ProcEffect s t) : controlWork t = controlWork s := by
  rw [e.frame_eq]; rfl

/-- A sample frame is work of the block done. -/
theorem FrameEffect.blockWork_lt {s t : State} (e : FrameEffect s t) (hp : s.pstate = .run)
    (hn : s.curN.toNat < s.curNs.toNat) : blockWork t < blockWork s := by
  have hnext : (s.curN + 1#32).toNat = s.curN.toNat + 1 := by
    simp only [BitVec.toNat_add, BitVec.toNat_ofNat]
    omega
  rw [e.frame]
  simp only [blockWork, hp, hnext]
  omega

/-- In a block a step of `PROC` that it has ends the block or leaves less of its work. -/
theorem procStep_blockWork {s t : State} (hb : s.pstate.busy = true) (hs : hasStep .proc s = true)
    (h : procStep s = .next t) (hbt : t.pstate.busy = true) : blockWork t < blockWork s := by
  obtain hp | hp | hp | hp := PState.busy_cases hb
  · obtain ⟨k, hk⟩ : ∃ k, s.sresp = some k := by
      simpa [hasStep, procHasStep, hp, Option.isSome_iff_exists] using hs
    simp only [procStepWith, hp, hk, pullAnswer] at h
    split_ifs at h with hbig hfit
    · cases h
      cases hbt
    · cases h
      simp [blockWork, hp, hk]
  · have hl : s.lock = .free := by simpa [hasStep, procHasStep, hp] using hs
    simp only [procStepWith, hp, hl] at h
    cases h
    simp [blockWork, procAcquire, hp]
  · simp only [procStepWith, hp] at h
    cases h
    simp [blockWork, snap, hp]
  · simp only [procStepWith, hp] at h
    split_ifs at h with hdone hn
    · cases h
      cases hbt
    · exact (sampleFrame_next h).blockWork_lt hp hn
    · obtain ⟨hbypass, hne⟩ := not_or.1 hdone
      have hle : s.curN.toNat ≤ s.curNs.toNat := by simpa [hasStep, procHasStep, hp, hbypass] using hs
      exact absurd (BitVec.eq_of_toNat_eq (by omega)) hne

/-- What a step may do to a block in progress: leave less work, or leave the work and the agent it waits for. -/
def Advances (s t : State) : Prop := workLeft t < workLeft s ∨ (workLeft t = workLeft s ∧ blockHelper t = blockHelper s)

/-- A step that leaves the block's work and the agent it waits for, and no more work to the control side. -/
theorem advances_of_le {s t : State} (hb : blockWork t = blockWork s) (hh : blockHelper t = blockHelper s)
    (hc : controlWork t ≤ controlWork s) : Advances s t := by
  obtain hlt | heq := hc.lt_or_eq
  · exact .inl (by unfold workLeft; omega)
  · exact .inr ⟨by unfold workLeft; omega, hh⟩

theorem CtrlEffect.blockWork_eq {s t : State} (e : CtrlEffect s t) : blockWork t = blockWork s := by
  rw [e.frame_eq]; rfl

/-- The acquire step of `CTRLX` lowers the control side's work (R74). -/
theorem controlWork_ctrlAcquire {s : State} (hc : s.cstate = .cWait) : controlWork (ctrlAcquire s) < controlWork s := by
  cases hf : s.ccmd <;> simp [controlWork, ctrlAcquire, hc, hf]

/-- `CTRLX` takes and gives back the lock at the cost of the control side's work (R74). -/
theorem CtrlEffect.advances {s t : State} (e : CtrlEffect s t) : Advances s t := by
  have hb := e.blockWork_eq
  have hle := controlWork_le (.ctrlx e)
  cases e with
  | acquire hc hl => exact .inl (Nat.add_lt_add_of_le_of_lt hb.le (controlWork_ctrlAcquire hc))
  | write hc => exact .inl (Nat.add_lt_add_of_le_of_lt hb.le (controlWork_ctrlWrite hc))
  | _ => exact advances_of_le hb rfl hle

/-- The source's answer is work of the block done (R162). -/
theorem blockWork_answered {s t : State} (hp : s.pstate = .pull) (hr : s.sresp = none) (hpt : t.pstate = s.pstate)
    (hns : t.curNs = s.curNs) (hrt : t.sresp.isSome = true) : blockWork t < blockWork s := by
  simp [blockWork, hpt, hp, hr, hns, hrt]

/-- An outside agent leaves the block as it is, but for the source's answer (R162). -/
theorem OutsideEffect.advances {s t : State} (hinv : s.PullTracked) (e : OutsideEffect s t) : Advances s t := by
  have hle := controlWork_le (.outside e)
  cases e with
  | answer nch ns hr a rest hf =>
    have hnone : s.sresp = none := by
      by_contra hs
      simp [(hinv.answer (Option.isSome_iff_ne_none.2 hs)).2] at hr
    exact .inl (Nat.add_lt_add_of_lt_of_le (blockWork_answered (hinv.request nch ns hr).1 hnone rfl rfl rfl) hle)
  | _ => exact advances_of_le rfl rfl hle

/-! ### The agent the block waits for -/

theorem blockHelper_eq_src {s : State} (h : blockHelper s = .src) : s.pstate = .pull ∧ s.sresp = none := by
  cases hp : s.pstate with
  | pull =>
    cases hr : s.sresp with
    | none => exact ⟨rfl, rfl⟩
    | some k => simp [blockHelper, hp, hr] at h
  | snapWait => by_cases hl : s.lock = .free <;> simp [blockHelper, hp, hl] at h
  | _ => simp [blockHelper, hp] at h

theorem blockHelper_eq_ctrlx {s : State} (h : blockHelper s = .ctrlx) : s.pstate = .snapWait ∧ s.lock ≠ .free := by
  cases hp : s.pstate with
  | pull => cases hr : s.sresp <;> simp [blockHelper, hp, hr] at h
  | snapWait => exact ⟨rfl, fun hl => by simp [blockHelper, hp, hl] at h⟩
  | _ => simp [blockHelper, hp] at h

/-- A block waits for no host. -/
theorem blockHelper_ne_host (s : State) : blockHelper s ≠ .hostp ∧ blockHelper s ≠ .hostc := by
  unfold blockHelper
  split
  · split <;> simp
  · split <;> simp
  all_goals simp

/-- A fill of the block in progress that has an answer is answered (R162). -/
theorem srcStep_blockWork {s t : State} (h : s.PullTracked) (hsrc : s.Answered) (hp : s.pstate = .pull)
    (hr : s.sresp = none) (hstep : srcStep s = .next t) : blockWork t < blockWork s := by
  have hfill : s.sreq = some (.fill s.curNch s.curNs) := (h.pull hp).resolve_right (by simp [hr])
  obtain ⟨a, rest, hs⟩ := List.exists_cons_of_ne_nil (hsrc _ _ hfill)
  simp only [srcStep, hfill, hs, srcAnswer] at hstep
  split_ifs at hstep
  cases hstep
  exact blockWork_answered hp hr rfl rfl rfl

/-- `CTRLX` gives back a lock that `PROC` waits for (R193). -/
theorem ctrlxStep_controlWork {s t : State} (h : s.LockOwned) (hp : s.pstate = .snapWait) (hl : s.lock ≠ .free)
    (hstep : ctrlxStep s = .next t) : controlWork t < controlWork s := by
  have hc : s.cstate = .cHold := by
    cases hlock : s.lock with
    | free => exact absurd hlock hl
    | ctrl => exact h.ctrl.1 hlock
    | proc => simp [h.proc.1 hlock] at hp
  simp only [ctrlxStep, hc] at hstep
  cases hstep
  exact controlWork_ctrlWrite hc

/-- The step of an agent in a block that goes on: it advances the block, and it leaves less work if it is the step of the
agent the block waits for. -/
theorem agentStep_advances {a : Agent} {s t : State} (h : s.Inv) (hsrc : s.Answered) (hb : s.pstate.busy = true)
    (hs : hasStep a s = true) (hstep : agentStep a s = .next t) (hbt : t.pstate.busy = true) :
    Advances s t ∧ (blockHelper s = a → workLeft t < workLeft s) := by
  cases a with
  | hostp => exact ⟨(hostpStep_effect hstep).advances h.pull, fun ha => absurd ha (blockHelper_ne_host s).1⟩
  | hostc => exact ⟨(hostcStep_effect hstep).advances h.pull, fun ha => absurd ha (blockHelper_ne_host s).2⟩
  | proc =>
    have hlt : workLeft t < workLeft s :=
      Nat.add_lt_add_of_lt_of_le (procStep_blockWork hb hs hstep hbt) (procStep_effect hstep).controlWork_eq.le
    exact ⟨.inl hlt, fun _ => hlt⟩
  | src =>
    have e := srcStep_effect hstep
    refine ⟨e.advances h.pull, fun ha => ?_⟩
    obtain ⟨hp, hr⟩ := blockHelper_eq_src ha
    exact Nat.add_lt_add_of_lt_of_le (srcStep_blockWork h.pull hsrc hp hr hstep) (controlWork_le (.outside e))
  | ctrlx =>
    have e := ctrlxStep_effect hstep
    refine ⟨e.advances, fun ha => ?_⟩
    obtain ⟨hp, hl⟩ := blockHelper_eq_ctrlx ha
    exact Nat.add_lt_add_of_le_of_lt e.blockWork_eq.le (ctrlxStep_controlWork h.lock hp hl hstep)

/-! ### The machine's steps -/

/-- In a block `HOSTP` can only take a response, which stops nothing (R76, R160). -/
theorem hostpStep_next_of_busy {s : State} (hb : s.pstate.busy = true) : ∃ t, hostpStep s = .next t := by
  have hacc : s.pstate.accepting = false := by simp [PState.accepting_eq_not_busy, hb]
  rw [hostpStep_of_stands (hostpScript_stands (fun ha => by simp [ha.2.1] at hacc) (by simp [hostpFree, hacc]))]
  unfold hostpTake
  split <;> exact ⟨_, rfl⟩

theorem noStep_of_hasStep {a : Agent} {s : State} (h : hasStep a s = true) : noStep s = false := by
  cases a <;> simp [noStep, h]

theorem runOver_of_busy {s : State} (hb : s.pstate.busy = true) : runOver s = false := by
  simp [runOver, PState.accepting_eq_not_busy, hb]

/-- A block in progress whose fill has an answer never stops the machine. -/
theorem step_next_of_busy {s : State} (h : s.Inv) (hsrc : s.Answered) (hb : s.pstate.busy = true) :
    ∃ t, step s = .next t := by
  have hinv := inv_useTurn h
  have hb' : (useTurn s).pstate.busy = true := by rwa [useTurn_pstate]
  cases ht : nextTurn s with
  | hardwareReset => exact ⟨hardwareReset (useTurn s), by simp [step, stepWith, ht]⟩
  | agent a =>
    rw [step_of_agent ht]
    by_cases hs : hasStep a (useTurn s) = true
    · rw [takeTurn_of_hasStep binary32 hs]
      by_cases ha : a = .hostp
      · subst ha
        exact hostpStep_next_of_busy hb'
      · exact onlyTheHostCanReadAnUnwrittenWord _ a hinv ha
    · have hstuck : noStep (useTurn s) = false :=
        noStep_of_hasStep ((hasStep_useTurn _ s).trans (hasStep_blockHelper h hsrc hb))
      exact ⟨useTurn s, by simp [takeTurn, hs, runOver_of_busy hb', hstuck]⟩

/-- A step of the machine in a block that goes on: it advances the block, and leaves less work in the turn of the agent the
block waits for. -/
theorem step_advances {s t : State} (h : s.Inv) (hsrc : s.Answered) (hb : s.pstate.busy = true)
    (hstep : step s = .next t) (hbt : t.pstate.busy = true) :
    Advances s t ∧ (nextTurn s = .agent (blockHelper s) → workLeft t < workLeft s) := by
  cases ht : nextTurn s with
  | hardwareReset =>
    obtain rfl : hardwareReset (useTurn s) = t := by simpa [step, stepWith, ht] using hstep
    cases hbt
  | agent a =>
    rw [step_of_agent ht] at hstep
    obtain ⟨hs, hstep⟩ | ⟨hs, rfl⟩ := takeTurn_next hstep
    · have hsrc' : (useTurn s).Answered := by rw [useTurn_frame]; exact hsrc
      have hb' : (useTurn s).pstate.busy = true := by rwa [useTurn_pstate]
      obtain ⟨hadv, hlow⟩ := agentStep_advances (inv_useTurn h) hsrc' hb' hs hstep hbt
      rw [Advances, workLeft_useTurn, blockHelper_useTurn] at hadv
      rw [workLeft_useTurn, blockHelper_useTurn] at hlow
      exact ⟨hadv, fun ha => hlow (by cases ha; rfl)⟩
    · refine ⟨.inr ⟨workLeft_useTurn s, blockHelper_useTurn s⟩, fun ha => ?_⟩
      have hhas := (hasStep_useTurn _ s).trans (hasStep_blockHelper h hsrc hb)
      cases ha
      simp [hs] at hhas

/-! ### Runs -/

/-- Every state of a run from a state of the invariants meets them. -/
theorem IsRun.inv {run : Nat → State} (hrun : IsRun run) (h0 : (run 0).Inv) (n : Nat) : (run n).Inv := by
  induction n with
  | zero => exact h0
  | succ n ih =>
    obtain hstep | ⟨_, heq⟩ := hrun n
    · exact everyStepKeepsTheInvariants _ _ ih hstep
    · rwa [heq]

/-- In a run, a block in progress whose fill has an answer goes to the machine's next state. -/
theorem IsRun.step_of_busy {run : Nat → State} (hrun : IsRun run) {n : Nat} (h : (run n).Inv)
    (hsrc : (run n).Answered) (hb : (run n).pstate.busy = true) : step (run n) = .next (run (n + 1)) := by
  obtain hstep | ⟨hstop, _⟩ := hrun n
  · exact hstep
  · obtain ⟨t, ht⟩ := step_next_of_busy h hsrc hb
    exact absurd ht (hstop t)

/-- In a weakly fair run no amount of work keeps a block in progress for ever: until less is left, the block waits for one
agent, which has a step and so takes its turn. -/
theorem busy_forever_false {run : Nat → State} (hrun : IsRun run) (hfair : WeaklyFair run) (hsrc : SourceAnswers run)
    (h0 : (run 0).Inv) {n : Nat} (hb : ∀ m, n ≤ m → (run m).pstate.busy = true) (w : Nat) :
    ∀ m, n ≤ m → workLeft (run m) ≠ w := by
  have hadv : ∀ m, n ≤ m → Advances (run m) (run (m + 1)) ∧
      (nextTurn (run m) = .agent (blockHelper (run m)) → workLeft (run (m + 1)) < workLeft (run m)) := fun m hm =>
    have hinv := hrun.inv h0 m
    step_advances hinv (hsrc m) (hb m hm) (hrun.step_of_busy hinv (hsrc m) (hb m hm)) (hb (m + 1) (by omega))
  induction w using Nat.strong_induction_on with
  | _ w ih =>
    intro m hm hw
    have hstays : ∀ j, m ≤ j → workLeft (run j) = w ∧ blockHelper (run j) = blockHelper (run m) := by
      refine fun j hj => Nat.le_induction ⟨hw, rfl⟩ (fun j hj hjw => ?_) j hj
      obtain hlt | ⟨heq, hhelp⟩ := (hadv j (hm.trans hj)).1
      · exact absurd rfl (ih _ (hjw.1 ▸ hlt) (j + 1) (by omega))
      · exact ⟨heq.trans hjw.1, hhelp.trans hjw.2⟩
    obtain ⟨j, hj, hturn⟩ := hfair (blockHelper (run m)) m fun j hj =>
      (hstays j hj).2 ▸ hasStep_blockHelper (hrun.inv h0 j) (hsrc j) (hb j (hm.trans hj))
    obtain ⟨hjw, hhelp⟩ := hstays j hj
    exact ih _ (hjw ▸ (hadv j (hm.trans hj)).2 (hhelp ▸ hturn)) (j + 1) (by omega) rfl

/-- Settles O54: if the block never ended, some amount of work would be left for ever. -/
theorem fairRunsEndEveryBlock : Obligations.FairRunsEndEveryBlock := by
  intro run hrun hfair hsrc h0 n _
  by_contra hnever
  have hb : ∀ m, n ≤ m → (run m).pstate.busy = true := fun m hm => by
    by_contra hm'
    exact hnever ⟨m, hm, by simpa using hm'⟩
  exact busy_forever_false hrun hfair hsrc h0 hb _ n le_rfl rfl

end Sys2Proof.Machine
end

section
/-! What the decoder accepts (spec rules R82 to R93): the checks a frame passes that decodes to a command, and from them
the round trip the other way: the frame is the frame of its command. -/

namespace Sys2Proof

/-- Settles O6, by the decoder's checks on an encoded header one by one. -/
theorem decodeOfEncodeIsTheCommand : Obligations.DecodeOfEncodeIsTheCommand := decode_encode

/-- Header fields and operand words make a command of their opcode. -/
theorem op_of_assemble {o : Op} {h : Word} {ops : List Word} {i : Instr} (ha : assemble o h ops = .ok i) :
    i.op = o := by
  cases o
  all_goals
    simp only [assemble] at ha
    repeat' split at ha
    all_goals cases ha
    rfl

/-- A frame decodes to a command exactly if it passes every check of R93 for the command's opcode. -/
theorem decode_eq_ok_iff {p : Port} {f : Frame} {i : Instr} :
    decode p f = .ok i ↔
      headerReservedLow f.header = 0#5 ∧ headerReservedHigh f.header = 0#8 ∧ headerOp f.header = opNumber i.op ∧
        i.op.port = p ∧ unusedFieldsZero i.op f.header = true ∧ assemble i.op f.header f.operands = .ok i := by
  constructor
  · intro h
    unfold decode at h
    split at h
    case isFalse => cases h
    case isTrue hres =>
      split at h
      case h_1 => cases h
      case h_2 o ho =>
        split_ifs at h with hport hunused
        obtain rfl := op_of_assemble h
        exact ⟨hres.1, hres.2, opNumber_of_opOfNumber ho, hport, hunused, h⟩
  · rintro ⟨hlow, hhigh, hop, hport, hunused, ha⟩
    simp [decode, hlow, hhigh, hop, hport, hunused, ha]

/-- The one-bit field of a flag. -/
theorem ofBool_beq_one (v : BitVec 1) : BitVec.ofBool (v == 1#1) = v := by revert v; decide

/-- The header fields and the operand words that make a command are those of its encoding (R93). -/
theorem fields_of_assemble {i : Instr} {h : Word} {ops : List Word} (hu : unusedFieldsZero i.op h = true)
    (ha : assemble i.op h ops = .ok i) :
    headerBand h = headerBand (encodeHeader i) ∧ headerEn h = headerEn (encodeHeader i) ∧
      headerIdx h = headerIdx (encodeHeader i) ∧ ops = encodeOperands i := by
  cases i with
  | wrCoef | wrGain =>
    simp only [Instr.op, unusedFieldsZero, assemble, Bool.and_eq_true, beq_iff_eq] at hu ha
    split at ha
    case h_1 => cases ha
    case h_2 b hb =>
      split at ha <;> cases ha
      simp [encodeHeader, encodeOperands, hu, bandNumber_of_bandOfNumber hb]
  | _ =>
    simp only [Instr.op, unusedFieldsZero, assemble, Bool.and_eq_true, beq_iff_eq] at hu ha
    split at ha <;> cases ha
    simp [encodeHeader, encodeOperands, hu, ofBool_beq_one]

/-- Settles O7: the frame's header and operand words are the command's encoding, field by field, and a header is the word
of its fields. -/
theorem decodedFrameIsTheEncoding : Obligations.DecodedFrameIsTheEncoding := by
  rintro p ⟨header, operands⟩ i h
  obtain ⟨hlow, hhigh, hop, hport, hunused, ha⟩ := decode_eq_ok_iff.1 h
  dsimp only at hlow hhigh hop hunused ha
  obtain ⟨hband, hen, hidx, rfl⟩ := fields_of_assemble hunused ha
  have hheader : header = encodeHeader i := by
    rw [← headerWord_of_fields hlow hhigh, hop, hband, hen, hidx, ← headerOp_encodeHeader i]
    exact headerWord_of_fields (headerReservedLow_encodeHeader i) (headerReservedHigh_encodeHeader i)
  exact ⟨congrArg (Frame.mk · _) hheader, hport.symm⟩

end Sys2Proof
end

section
/-! The mask table of R85 and the checks of R87 and R88, written over masks of the whole header word, read field by field
(R82): each is a condition on the fields the decoder of R93 reads. -/

namespace Sys2Proof

/-! ### A word by its fields -/

/-- A word is determined by the six fields of R82. -/
theorem word_eq_iff_fields {h g : Word} :
    h = g ↔ headerOp h = headerOp g ∧ headerBand h = headerBand g ∧ headerEn h = headerEn g ∧
      headerReservedLow h = headerReservedLow g ∧ headerIdx h = headerIdx g ∧
        headerReservedHigh h = headerReservedHigh g := by
  refine ⟨by rintro rfl; simp, fun ⟨hop, hband, hen, hlow, hidx, hhigh⟩ => ?_⟩
  have hh := h.isLt
  have hg := g.isLt
  simp only [headerOp, headerBand, headerEn, headerReservedLow, headerIdx, headerReservedHigh,
    ← BitVec.toNat_inj, BitVec.extractLsb'_toNat, Nat.shiftRight_eq_div_pow] at *
  omega

/-- A word under a mask has a pattern exactly if each field under its part of the mask has its part of the pattern. -/
theorem and_eq_iff_fields {h m c : Word} :
    h &&& m = c ↔ headerOp h &&& m.extractLsb' 0 8 = c.extractLsb' 0 8 ∧
      headerBand h &&& m.extractLsb' 8 2 = c.extractLsb' 8 2 ∧ headerEn h &&& m.extractLsb' 10 1 = c.extractLsb' 10 1 ∧
      headerReservedLow h &&& m.extractLsb' 11 5 = c.extractLsb' 11 5 ∧
      headerIdx h &&& m.extractLsb' 16 8 = c.extractLsb' 16 8 ∧
      headerReservedHigh h &&& m.extractLsb' 24 8 = c.extractLsb' 24 8 := by
  rw [word_eq_iff_fields]
  simp only [headerOp, headerBand, headerEn, headerReservedLow, headerIdx, headerReservedHigh, BitVec.extractLsb'_and]

/-- A mask of ones leaves every bit of a field. -/
theorem and_of_eq_allOnes {n : Nat} (v : BitVec n) {m : BitVec n} (hm : m = BitVec.allOnes n) : v &&& m = v := by
  rw [hm, BitVec.and_allOnes]

/-! ### The mask table -/

/-- A header selects a row of the table exactly if its opcode number is the row's, its reserved bits are 0 and so are the
fields the opcode does not use (R82, R85). -/
theorem selects_iff {r : OpcodeRow} (hr : r ∈ opcodeRows) (h : Word) :
    r.selects h = true ↔ headerOp h = opNumber r.op ∧ headerReservedLow h = 0#5 ∧ headerReservedHigh h = 0#8 ∧
      unusedFieldsZero r.op h = true := by
  rw [OpcodeRow.selects, beq_iff_eq, and_eq_iff_fields]
  fin_cases hr <;> simp (disch := decide) [and_of_eq_allOnes, opNumber, unusedFieldsZero, and_assoc, and_comm, and_left_comm]

/-- Different opcodes have different numbers (R84). -/
theorem opNumber_inj {o o' : Op} : opNumber o = opNumber o' ↔ o = o' := by
  refine ⟨fun h => ?_, congrArg _⟩
  have := congrArg opOfNumber h
  simpa using this

/-- Settles O5: the decoder's checks of the header are the row's condition, and the opcode number tells the row. -/
theorem decodedHeaderSelectsOnlyItsRow : Obligations.DecodedHeaderSelectsOnlyItsRow := by
  intro p f i hd r hr
  obtain ⟨hlow, hhigh, hop, -, hunused, -⟩ := decode_eq_ok_iff.1 hd
  rw [selects_iff hr, hop, opNumber_inj]
  constructor
  · rintro ⟨h, -⟩
    exact h.symm
  · intro h
    exact ⟨h.symm, hlow, hhigh, h ▸ hunused⟩

/-! ### The row a header's opcode number tells -/

/-- Bits 7:0 of a header are a row's pattern there exactly if its opcode number is the row's (R84). -/
theorem opByte_eq_pattern_iff {r : OpcodeRow} (hr : r ∈ opcodeRows) (h : Word) :
    h &&& 0x000000FF#32 = r.pattern ↔ headerOp h = opNumber r.op := by
  rw [and_eq_iff_fields]
  fin_cases hr <;> simp (disch := decide) [and_of_eq_allOnes, opNumber]

/-- The row a header tells stands in the table and has the header's opcode number (R84). -/
theorem rowOfHeader_eq_some {h : Word} {r : OpcodeRow} (hr : rowOfHeader h = some r) :
    r ∈ opcodeRows ∧ headerOp h = opNumber r.op := by
  have hmem := List.mem_of_find?_eq_some hr
  unfold rowOfHeader at hr
  exact ⟨hmem, (opByte_eq_pattern_iff hmem h).1 (by simpa using List.find?_some hr)⟩

/-- Every opcode has its row in the table (R85). -/
theorem exists_row_of_op (o : Op) : ∃ r ∈ opcodeRows, r.op = o := by cases o <;> decide

/-- A header with an opcode's number tells a row (R84, R85). -/
theorem rowOfHeader_isSome_of_op {h : Word} {o : Op} (hop : headerOp h = opNumber o) : (rowOfHeader h).isSome = true := by
  obtain ⟨r, hr, rfl⟩ := exists_row_of_op o
  exact List.find?_isSome.2 ⟨r, hr, by simpa using (opByte_eq_pattern_iff hr h).2 hop⟩

/-! ### The checks of R87 and R88 for the row of the header -/

/-- What R86 to R88 ask of a frame whose header has the number of opcode `o`, on the fields the decoder reads. -/
def FieldsLegal (o : Op) (p : Port) (f : Frame) : Prop :=
  (headerReservedLow f.header = 0#5 ∧ headerReservedHigh f.header = 0#8) ∧ o.port = p ∧
    unusedFieldsZero o f.header = true ∧ (o = .wrCoef ∨ o = .wrGain → headerBand f.header ≠ 3#2) ∧
    f.operands.length = o.operandWords

/-- R87's mask of the reserved bits covers the two reserved fields. -/
theorem Frame.reservedClear_iff (f : Frame) :
    f.reservedClear = true ↔ headerReservedLow f.header = 0#5 ∧ headerReservedHigh f.header = 0#8 := by
  rw [Frame.reservedClear, beq_iff_eq, and_eq_iff_fields]
  simp (disch := decide) [and_of_eq_allOnes]

section Row
variable {f : Frame} {r : OpcodeRow} (hr : rowOfHeader f.header = some r)
include hr

/-- The field bits that a row's mask leaves fixed are the fields its opcode does not use (R82, R87). -/
theorem Frame.unusedFieldsClear_iff : f.unusedFieldsClear = true ↔ unusedFieldsZero r.op f.header = true := by
  obtain ⟨hmem, -⟩ := rowOfHeader_eq_some hr
  simp only [Frame.unusedFieldsClear, hr, Option.all_some, beq_iff_eq, BitVec.and_assoc]
  rw [and_eq_iff_fields]
  clear hr
  fin_cases hmem <;> simp (disch := decide) [and_of_eq_allOnes, unusedFieldsZero, and_assoc]

/-- The mask of R88 reads the field `band`. -/
theorem Frame.bandNamed_iff :
    f.bandNamed = true ↔ (r.op = .wrCoef ∨ r.op = .wrGain → headerBand f.header ≠ 3#2) := by
  have hband : f.header &&& 0x00000300#32 = 0x00000300#32 ↔ headerBand f.header = 3#2 := by
    rw [and_eq_iff_fields]
    simp (disch := decide) [and_of_eq_allOnes]
  rw [Ne, ← hband]
  simp [Frame.bandNamed, hr, imp_iff_not_or]

/-- A frame whose header tells a row is well formed exactly if its fields are legal for the row's opcode. -/
theorem Frame.wellFormed_iff (p : Port) : f.wellFormed p = true ↔ FieldsLegal r.op p f := by
  have hassigned : f.opAssigned = true := by simp [Frame.opAssigned, hr]
  have hport : f.portLegal p = true ↔ r.op.port = p := by simp [Frame.portLegal, hr]
  have hlen : f.lengthRight = true ↔ f.operands.length = r.op.operandWords := by simp [Frame.lengthRight, hr]
  simp only [Frame.wellFormed, Bool.and_eq_true, hassigned, hport, f.reservedClear_iff, unusedFieldsClear_iff hr,
    bandNamed_iff hr, hlen, FieldsLegal]
  tauto

end Row

/-! ### The decoder against the checks -/

/-- Only the index 3 names no band (R88). -/
theorem bandOfNumber_ne_none_iff {n : BitVec 2} : bandOfNumber n ≠ none ↔ n ≠ 3#2 := by revert n; decide

/-- The fields and operand words make a command exactly if the band they need is one and there are as many words as the
opcode's frame carries (R84, R88). -/
theorem exists_assemble_iff {o : Op} {h : Word} {ops : List Word} :
    (∃ i, assemble o h ops = .ok i) ↔
      (o = .wrCoef ∨ o = .wrGain → headerBand h ≠ 3#2) ∧ ops.length = o.operandWords := by
  rw [← bandOfNumber_ne_none_iff]
  constructor
  · rintro ⟨i, ha⟩
    cases o
    all_goals
      simp only [assemble] at ha
      repeat' split at ha
      all_goals cases ha
      simp [Op.operandWords, *]
  · rintro ⟨hband, hlen⟩
    cases o with
    | wrCoef =>
      obtain ⟨b, hb⟩ := Option.ne_none_iff_exists'.1 (hband (.inl rfl))
      match ops, hlen with
      | [_, _, _, _, _, _], _ => simp [assemble, hb]
    | wrGain =>
      obtain ⟨b, hb⟩ := Option.ne_none_iff_exists'.1 (hband (.inr rfl))
      match ops, hlen with
      | [_], _ => simp [assemble, hb]
    | prepare | process =>
      match ops, hlen with
      | [_, _], _ => simp [assemble]
    | release | flush | wrEnable | rdReg =>
      obtain rfl := List.length_eq_zero_iff.1 hlen
      simp [assemble]

/-- A frame whose header has an opcode's number decodes exactly if its fields are legal for that opcode (R93). -/
theorem exists_decode_iff {o : Op} {p : Port} {f : Frame} (hop : headerOp f.header = opNumber o) :
    (∃ i, decode p f = .ok i) ↔ FieldsLegal o p f := by
  simp only [decode, hop, opOfNumber_opNumber, FieldsLegal, ← exists_assemble_iff]
  split_ifs <;> simp [*]

/-- Settles O4: for a header that tells a row both sides are the same checks on the fields, and without a row the opcode is
unassigned to both. -/
theorem decoderAcceptsExactlyTheWellFormedFrames : Obligations.DecoderAcceptsExactlyTheWellFormedFrames := by
  intro p f
  cases hr : rowOfHeader f.header with
  | some r => exact (exists_decode_iff (rowOfHeader_eq_some hr).2).trans (Frame.wellFormed_iff hr p).symm
  | none =>
    have hbad : f.wellFormed p = false := by simp [Frame.wellFormed, Frame.opAssigned, hr]
    refine iff_of_false (fun ⟨i, hi⟩ => ?_) (by simp [hbad])
    obtain ⟨-, -, hop, -⟩ := decode_eq_ok_iff.1 hi
    simpa [hr] using rowOfHeader_isSome_of_op hop

/-- Settles O8, by evaluating the decoder on each word. -/
theorem writtenOutWordsDecode : Obligations.WrittenOutWordsDecode := by
  unfold Obligations.WrittenOutWordsDecode
  decide

end Sys2Proof
end

section
/-! A turn of an executor with an illegal frame (spec rules R87, R88, R248): a fault on the processing port, a refusal on the
control port. -/

namespace Sys2Proof.Machine

/-- The decoder rejects a frame that is not well formed (R90). -/
theorem exists_decode_error {p : Port} {f : Frame} (h : f.wellFormed p = false) : ∃ e, decode p f = .error e := by
  cases hd : decode p f with
  | error e => exact ⟨e, rfl⟩
  | ok i => simpa [h] using (decoderAcceptsExactlyTheWellFormedFrames p f).1 ⟨i, hd⟩

/-- `PROC` takes an illegal frame as fault 3 with its header, and no request to the source holds it up (R87). -/
theorem takeTurn_proc_of_error {f : Frame} {e : Illegal} {s : State} (N : NumOps Word)
    (hp : s.pstate = .unprepared ∨ s.pstate = .idle) (hf : s.pcmd = some f) (hd : decode .processing f = .error e) :
    takeTurn N .proc s = .next (raiseFault 3#4 f.header (takePcmd s)) := by
  have hstep : hasStep .proc s = true := by simp [hasStep_proc_of_ready hp hf, frameNeedsSource, hd]
  have hacc : procAccept s = .next (raiseFault 3#4 f.header (takePcmd s)) := by
    simp [procAccept, hf, acceptProcessing, hd, illegalProcessing, serveProcessing_of_ready hp]
  rw [takeTurn_of_hasStep N hstep, ← hacc]
  obtain hp | hp := hp <;> simp [agentStepWith, procStepWith, hp]

/-- `CTRLX` refuses an illegal frame (R87, R248). -/
theorem takeTurn_ctrlx_of_error {f : Frame} {e : Illegal} {s : State} (N : NumOps Word)
    (hc : s.cstate = .cIdle) (hf : s.ccmd = some f) (hd : decode .control f = .error e) :
    takeTurn N .ctrlx s = .next (refuse (takeCcmd s)) := by
  have hstep : hasStep .ctrlx s = true := by simp [hasStep, ctrlxHasStep, hc, hf]
  rw [takeTurn_of_hasStep N hstep]
  simp [agentStepWith, ctrlxStep, hc, hf, acceptControl, hd, illegalControl, serveControl]

/-- Settles O3: the decoder rejects a frame that is not well formed, and the executor's turn on it is the fault or the
refusal. -/
theorem illegalFramesFaultOrAreRefused : Obligations.IllegalFramesFaultOrAreRefused := by
  intro s f
  refine ⟨fun ht hf hp hw => ?_, fun ht hf hc hw => ?_⟩
  · obtain ⟨e, hd⟩ := exists_decode_error hw
    rw [step_of_agent ht,
      takeTurn_proc_of_error binary32 (by rwa [useTurn_pstate]) (by rwa [useTurn_pcmd]) hd]
    rfl
  · obtain ⟨e, hd⟩ := exists_decode_error hw
    rw [step_of_agent ht,
      takeTurn_ctrlx_of_error binary32 (by rwa [useTurn_cstate]) (by rwa [useTurn_ccmd]) hd]
    rfl

end Sys2Proof.Machine
end

section
/-! The classes of a binary32 word (spec rules R12, R115): NaN, infinity, finite, and among the finite ones the zeros. -/

namespace Sys2Proof.Machine

/-- The sign of a value as a factor. -/
def signFactor (neg : Bool) : Int := if neg then -1 else 1

theorem signFactor_xor (a b : Bool) : signFactor (a ^^ b) = signFactor a * signFactor b := by
  cases a <;> cases b <;> rfl

@[simp] theorem signFactor_mul_signFactor_mul (neg : Bool) (z : Int) : signFactor neg * (signFactor neg * z) = z := by
  cases neg <;> simp [signFactor]

@[simp] theorem abs_signFactor_mul (neg : Bool) (z : Int) : |signFactor neg * z| = |z| := by
  cases neg <;> simp [signFactor]

/-- A whole number is its sign times its magnitude. -/
theorem signFactor_mul_natAbs (z : Int) : signFactor (decide (z < 0)) * z.natAbs = z := by
  by_cases h : z < 0
  · simp [signFactor, h, abs_of_neg h]
  · simp [signFactor, h, abs_of_nonneg (not_lt.1 h)]

/-- A finite value is its sign times its magnitude (R12). -/
theorem units_eq (v : Word) : units v = signFactor (signBit v) * magnitude v := by
  cases h : signBit v <;> simp [units, signFactor, h]

/-- A word is finite exactly when it is no NaN and no infinity (R12). -/
theorem isFinite_iff {v : Word} : isFinite v = true ↔ isNaN v = false ∧ isInf v = false := by
  refine ⟨fun h => ?_, fun ⟨hnan, hinf⟩ => isFinite_of_not_nan_of_not_inf hnan hinf⟩
  simp_all [isFinite, isNaN, isInf]

theorem isNaN_eq_false_of_isInf {v : Word} (h : isInf v = true) : isNaN v = false := by
  simp_all [isInf, isNaN]

/-- A zero is finite (R12). -/
theorem isFinite_of_isZero {v : Word} (h : isZero v = true) : isFinite v = true := by
  simp_all [isZero, isFinite]

/-- The zeros are the finite values of magnitude 0 (R12). -/
theorem isZero_iff_magnitude {v : Word} : isZero v = true ↔ magnitude v = 0 := by
  by_cases h : expField v = 0 <;> simp [isZero, magnitude, h]

/-- The product of two finite values is the exclusive-or of the signs and the product of the magnitudes (R113). -/
theorem units_mul (a b : Word) :
    units a * units b = signFactor (signBit a ^^ signBit b) * (magnitude a * magnitude b : Nat) := by
  rw [units_eq a, units_eq b, signFactor_xor]
  push_cast
  ring

theorem units_eq_zero_iff {v : Word} : units v = 0 ↔ isZero v = true := by
  rw [isZero_iff_magnitude, units_eq]
  cases signBit v <;> simp [signFactor]

/-- A sign with the bits 0 is a zero of that sign. -/
@[simp] theorem isZero_pack_zero (neg : Bool) : isZero (pack neg 0) = true := by
  cases neg <;> rfl

/-- A sign with the infinity's bits is an infinity of that sign. -/
@[simp] theorem isInf_pack_inf (neg : Bool) : isInf (pack neg 0x7F800000) = true := by
  cases neg <;> rfl

@[simp] theorem signBit_pack_inf (neg : Bool) : signBit (pack neg 0x7F800000) = neg := signBit_pack (by decide)

@[simp] theorem signBit_pack_zero (neg : Bool) : signBit (pack neg 0) = neg := signBit_pack (by decide)

/-- The negative zero is the one pattern of a zero with its sign bit set (R12). -/
theorem eq_negZero_iff {v : Word} : v = 0x80000000#32 ↔ isZero v = true ∧ signBit v = true := by
  refine ⟨fun h => by subst h; exact ⟨rfl, rfl⟩, fun ⟨hz, hs⟩ => ?_⟩
  obtain ⟨he, hf⟩ : expField v = 0 ∧ fracField v = 0 := by simpa [isZero] using hz
  rw [expField_eq] at he
  rw [fracField_eq] at hf
  rw [eq_pack v, hs, show v.toNat % 2 ^ 31 = 0 by omega]
  rfl

/-- Flipping the sign bit keeps bits 30 to 0 (R112). -/
theorem toNat_fneg (v : Word) : (fneg v).toNat % 2 ^ 31 = v.toNat % 2 ^ 31 := by
  rw [fneg, BitVec.toNat_xor, Nat.xor_mod_two_pow]
  simp

@[simp] theorem expField_fneg (v : Word) : expField (fneg v) = expField v := by
  have := toNat_fneg v
  rw [expField_eq, expField_eq]
  omega

@[simp] theorem fracField_fneg (v : Word) : fracField (fneg v) = fracField v := by
  have := toNat_fneg v
  rw [fracField_eq, fracField_eq]
  omega

@[simp] theorem isNaN_fneg (v : Word) : isNaN (fneg v) = isNaN v := by simp [isNaN]

@[simp] theorem isZero_fneg (v : Word) : isZero (fneg v) = isZero v := by simp [isZero]

end Sys2Proof.Machine
end

section
/-! The rounding function meets `RoundsTo` (spec rule R111): the sign is put beside the rounded magnitude, and a value that
is representable is returned bit for bit. -/

namespace Sys2Proof.Machine

/-- The rounded magnitude is nearest among the finite values of either sign: a value of the other sign is no
nearer than 0. -/
theorem roundMagnitude_nearest_units {num den : Nat} (hd : 0 < den) (hfin : roundMagnitude num den < 0x7F800000)
    {u : Int} {p : Nat} (hp : p < 0x7F800000) (hu : |u| = patternUnits p) :
    |(num : Int) - den * patternUnits (roundMagnitude num den)| ≤ |(num : Int) - den * u| ∧
      (|(num : Int) - den * patternUnits (roundMagnitude num den)| = |(num : Int) - den * u| →
        u = patternUnits (roundMagnitude num den) ∨ roundMagnitude num den % 2 = 0) := by
  rcases le_or_gt 0 u with h0 | h0
  · rw [abs_of_nonneg h0] at hu
    subst hu
    exact_mod_cast roundMagnitude_nearest hd hfin hp
  · have hzero := (roundMagnitude_nearest hd hfin (p := 0) (by decide)).1
    have hfar : |(num : Int) - den * patternUnits 0| < |(num : Int) - den * u| := by
      have hneg : (den : Int) * u < 0 := mul_neg_of_pos_of_neg (by exact_mod_cast hd) h0
      rw [show patternUnits 0 = 0 from rfl, abs_of_nonneg (by simp), abs_of_nonneg (by omega)]
      omega
    exact ⟨(hzero.trans_lt hfar).le, fun h => absurd h (hzero.trans_lt hfar).ne⟩

theorem getLsbD_zero_pack {neg : Bool} {bits : Nat} (h : bits < 2 ^ 31) (heven : bits % 2 = 0) :
    (pack neg bits).getLsbD 0 = false := by
  rw [BitVec.getLsbD, toNat_pack h, Nat.testBit_zero]
  cases neg <;> simp <;> omega

/-- A sign beside the rounded magnitude of a quotient is that signed quotient, rounded (R111). -/
theorem roundsTo_pack (neg : Bool) (num : Nat) {den : Nat} (hd : 0 < den) :
    RoundsTo (signFactor neg * num) den (pack neg (roundMagnitude num den)) := by
  have hle := roundMagnitude_le num den
  have hover := roundMagnitude_overflow (num := num) hd
  unfold RoundsTo
  rw [abs_signFactor_mul, Nat.abs_cast]
  refine ⟨fun h => ?_, fun h => ?_⟩
  · have hinf : roundMagnitude num den = 0x7F800000 := hover.2 (by exact_mod_cast h)
    have hnum : num ≠ 0 := by
      rintro rfl
      have : 0 < den * 2 ^ 253 := by positivity
      have := hover.1 hinf
      nlinarith
    rw [isInf_pack hle, signBit_pack (by omega)]
    refine ⟨by simpa using hinf, ?_⟩
    cases neg
    · simp [signFactor]
    · simp [signFactor]; omega
  · have hfin : roundMagnitude num den < 0x7F800000 :=
      lt_of_le_of_ne hle fun hinf => absurd (hover.1 hinf) (not_le.2 (by exact_mod_cast h))
    refine ⟨by rw [isFinite_pack hle]; simpa using hfin, fun w hw => ?_⟩
    obtain ⟨hp, hmag⟩ := magnitude_eq hw
    obtain ⟨hnear, htie⟩ := roundMagnitude_nearest_units hd hfin hp (u := signFactor neg * units w)
      (by rw [abs_signFactor_mul, units_eq, abs_signFactor_mul, Nat.abs_cast, hmag])
    have hflip (y : Int) : |signFactor neg * num - den * y| = |num - den * (signFactor neg * y)| := by
      rw [← abs_signFactor_mul neg, mul_sub, signFactor_mul_signFactor_mul, mul_left_comm]
    rw [units_eq (pack _ _), signBit_pack (by omega), magnitude_pack hfin, hflip, hflip, signFactor_mul_signFactor_mul]
    refine ⟨hnear, fun h => (htie h).imp (fun hu => ?_) (getLsbD_zero_pack (by omega))⟩
    rw [← hu, signFactor_mul_signFactor_mul]

/-- Rounding the exact magnitude of a finite value gives the value bit for bit. -/
theorem pack_roundMagnitude_exact {v : Word} {num den : Nat} (hfin : isFinite v = true) (hd : 0 < den)
    (h : num = den * magnitude v) : pack (signBit v) (roundMagnitude num den) = v := by
  obtain ⟨hp, hmag⟩ := magnitude_eq hfin
  rw [roundMagnitude_exact hd hp (by rw [h, hmag]), ← eq_pack v]

end Sys2Proof.Machine
end

section
/-! The four operations of binary32 case by case (spec rules R111 to R115): NaN operands, infinities, finite operands. -/

namespace Sys2Proof.Machine

variable {nan a b : Word}

theorem isNaN_of_eq_drawNaN {v : Word} {d : Nat} (h : v = drawNaN d) : isNaN v = true := by
  rw [h, isNaN_drawNaN]

/-! ### Addition -/

theorem faddWith_of_nan (h : isNaN a = true ∨ isNaN b = true) : faddWith nan a b = nan := by
  simp [faddWith, h]

theorem faddWith_of_opposite_infs (ha : isInf a = true) (hb : isInf b = true) (hs : signBit a ≠ signBit b) :
    faddWith nan a b = nan := by
  simp [faddWith, isNaN_eq_false_of_isInf, ha, hb, hs]

theorem faddWith_of_inf_left (ha : isInf a = true)
    (hb : isFinite b = true ∨ (isInf b = true ∧ signBit b = signBit a)) : faddWith nan a b = a := by
  obtain hb | ⟨hb, hs⟩ := hb
  · obtain ⟨hnan, hinf⟩ := isFinite_iff.1 hb
    simp [faddWith, isNaN_eq_false_of_isInf ha, ha, hnan, hinf]
  · simp [faddWith, isNaN_eq_false_of_isInf, ha, hb, hs]

theorem faddWith_of_inf_right (ha : isFinite a = true) (hb : isInf b = true) : faddWith nan a b = b := by
  obtain ⟨hnan, hinf⟩ := isFinite_iff.1 ha
  simp [faddWith, isNaN_eq_false_of_isInf hb, hb, hnan, hinf]

/-- A sum of finite values that is exactly 0: `-0.0` when both are `-0.0`, else `+0.0` (R111). -/
theorem faddWith_of_units_eq_zero (ha : isFinite a = true) (hb : isFinite b = true) (hz : units a + units b = 0) :
    faddWith nan a b = if a = 0x80000000#32 ∧ b = 0x80000000#32 then 0x80000000#32 else 0x00000000#32 := by
  by_cases h : a = 0x80000000#32 ∧ b = 0x80000000#32
  · obtain ⟨rfl, rfl⟩ := h
    rfl
  · obtain ⟨hnan, hinf⟩ := isFinite_iff.1 ha
    obtain ⟨hnan', hinf'⟩ := isFinite_iff.1 hb
    have hsign : (isZero a && isZero b && signBit a && signBit b) = false := by
      by_contra hs
      obtain ⟨hza, hzb, hsa, hsb⟩ :
          isZero a = true ∧ isZero b = true ∧ signBit a = true ∧ signBit b = true := by simpa using hs
      exact h ⟨eq_negZero_iff.2 ⟨hza, hsa⟩, eq_negZero_iff.2 ⟨hzb, hsb⟩⟩
    rw [if_neg h]
    simp only [faddWith, hnan, hinf, hnan', hinf', hz, hsign]
    rfl

/-- A sum of finite values that is not 0 (R111). -/
theorem faddWith_of_units_ne_zero (ha : isFinite a = true) (hb : isFinite b = true) (hz : units a + units b ≠ 0) :
    faddWith nan a b =
      pack (decide (units a + units b < 0)) (roundMagnitude (units a + units b).natAbs 1) := by
  obtain ⟨hnan, hinf⟩ := isFinite_iff.1 ha
  obtain ⟨hnan', hinf'⟩ := isFinite_iff.1 hb
  simp [faddWith, hnan, hinf, hnan', hinf', hz]

/-- Adding a zero to a finite value that is not 0 gives the value bit for bit (R111). -/
theorem faddWith_zero (ha : isFinite a = true) (hne : isZero a = false) (hb : isZero b = true) :
    faddWith nan a b = a := by
  have hb0 : units b = 0 := units_eq_zero_iff.2 hb
  have ha0 : units a ≠ 0 := by simp [units_eq_zero_iff, hne]
  rw [faddWith_of_units_ne_zero ha (isFinite_of_isZero hb) (by simpa [hb0] using ha0), hb0, add_zero]
  have hsign : decide (units a < 0) = signBit a := by
    rw [units_eq] at ha0 ⊢
    cases h : signBit a <;> simp_all [signFactor]
    omega
  rw [hsign]
  refine pack_roundMagnitude_exact ha one_pos ?_
  rw [units_eq, Int.natAbs_mul]
  cases signBit a <;> simp [signFactor]

/-! ### Subtraction -/

theorem fsubWith_of_nan (h : isNaN a = true ∨ isNaN b = true) : fsubWith nan a b = nan :=
  faddWith_of_nan (by rwa [isNaN_fneg])

/-- Subtracting a zero from a finite value that is not 0 gives the value bit for bit (R112). -/
theorem fsubWith_zero (ha : isFinite a = true) (hne : isZero a = false) (hb : isZero b = true) :
    fsubWith nan a b = a :=
  faddWith_zero ha hne (by rwa [isZero_fneg])

/-! ### Multiplication -/

theorem fmulWith_comm (nan a b : Word) : fmulWith nan a b = fmulWith nan b a := by
  have hinvalid : ((isInf a && isZero b) || (isZero a && isInf b)) = ((isInf b && isZero a) || (isZero b && isInf a)) := by
    rw [Bool.or_comm, Bool.and_comm (isZero a), Bool.and_comm (isInf a)]
  simp only [fmulWith, hinvalid, Bool.or_comm (isNaN a), Bool.or_comm (isInf a), Bool.xor_comm (signBit a),
    Nat.mul_comm (magnitude a)]

theorem fmulWith_of_nan (h : isNaN a = true ∨ isNaN b = true) : fmulWith nan a b = nan := by
  simp [fmulWith, h]

theorem fmulWith_of_zero_inf (h : (isZero a = true ∧ isInf b = true) ∨ (isInf a = true ∧ isZero b = true)) :
    fmulWith nan a b = nan := by
  simp [fmulWith, h.symm]

/-- An infinity times a value that is no NaN and no zero (R113). -/
theorem fmulWith_of_inf (ha : isNaN a = false) (hb : isNaN b = false) (hzi : ¬ (isZero a = true ∧ isInf b = true))
    (hiz : ¬ (isInf a = true ∧ isZero b = true)) (h : isInf a = true ∨ isInf b = true) :
    fmulWith nan a b = pack (signBit a ^^ signBit b) 0x7F800000 := by
  simp [fmulWith, ha, hb, hzi, hiz, h]

theorem fmulWith_of_finite (ha : isFinite a = true) (hb : isFinite b = true) :
    fmulWith nan a b = pack (signBit a ^^ signBit b) (roundMagnitude (magnitude a * magnitude b) (2 ^ 149)) := by
  obtain ⟨hnan, hinf⟩ := isFinite_iff.1 ha
  obtain ⟨hnan', hinf'⟩ := isFinite_iff.1 hb
  simp [fmulWith, hnan, hinf, hnan', hinf']

/-- One times a finite value is the value bit for bit (R113). -/
theorem fmulWith_one (ha : isFinite a = true) : fmulWith nan 0x3F800000#32 a = a := by
  have hmag : magnitude 0x3F800000#32 = 2 ^ 149 := by decide
  rw [fmulWith_of_finite (by decide) ha, hmag, show signBit 0x3F800000#32 = false by decide, Bool.false_xor]
  exact pack_roundMagnitude_exact ha (by positivity) rfl

/-- Zero times a finite value is a zero (R113). -/
theorem isZero_fmulWith_zero (ha : isFinite a = true) : isZero (fmulWith nan 0#32 a) = true := by
  have hround : roundMagnitude 0 (2 ^ 149) = 0 := roundMagnitude_exact (by positivity) (by decide) rfl
  rw [fmulWith_of_finite (by decide) ha, show magnitude 0#32 = 0 by decide, Nat.zero_mul, hround]
  exact isZero_pack_zero _

/-! ### Division -/

theorem fdivWith_of_nan (h : isNaN a = true ∨ isNaN b = true) : fdivWith nan a b = nan := by
  simp [fdivWith, h]

theorem fdivWith_of_zeros_or_infs (h : (isZero a = true ∧ isZero b = true) ∨ (isInf a = true ∧ isInf b = true)) :
    fdivWith nan a b = nan := by
  simp [fdivWith, h.symm]

/-- A finite value that is not 0 over a zero (R114). -/
theorem fdivWith_of_zero_divisor (ha : isFinite a = true) (hne : isZero a = false) (hb : isZero b = true) :
    fdivWith nan a b = pack (signBit a ^^ signBit b) 0x7F800000 := by
  obtain ⟨hnan, hinf⟩ := isFinite_iff.1 ha
  obtain ⟨hnan', hinf'⟩ := isFinite_iff.1 (isFinite_of_isZero hb)
  simp [fdivWith, hnan, hinf, hnan', hinf', hne, hb]

/-- A finite value over an infinity (R114). -/
theorem fdivWith_of_inf_divisor (ha : isFinite a = true) (hb : isInf b = true) :
    fdivWith nan a b = pack (signBit a ^^ signBit b) 0 := by
  obtain ⟨hnan, hinf⟩ := isFinite_iff.1 ha
  have hne : isZero b = false := by
    by_contra hz
    simpa [hb] using isFinite_iff.1 (isFinite_of_isZero (Bool.eq_true_of_not_eq_false hz))
  simp [fdivWith, hnan, hinf, isNaN_eq_false_of_isInf hb, hb, hne]

theorem fdivWith_of_finite (ha : isFinite a = true) (hb : isFinite b = true) (hne : isZero b = false) :
    fdivWith nan a b = pack (signBit a ^^ signBit b) (roundMagnitude (magnitude a * 2 ^ 149) (magnitude b)) := by
  obtain ⟨hnan, hinf⟩ := isFinite_iff.1 ha
  obtain ⟨hnan', hinf'⟩ := isFinite_iff.1 hb
  simp [fdivWith, hnan, hinf, hnan', hinf', hne]

/-- A finite value over one is the value bit for bit (R114). -/
theorem fdivWith_one (ha : isFinite a = true) : fdivWith nan a 0x3F800000#32 = a := by
  have hmag : magnitude 0x3F800000#32 = 2 ^ 149 := by decide
  rw [fdivWith_of_finite ha (by decide) (by decide), hmag, show signBit 0x3F800000#32 = false by decide,
    Bool.xor_false]
  exact pack_roundMagnitude_exact ha (by positivity) (Nat.mul_comm _ _)

end Sys2Proof.Machine
end

section
/-! The statements about the four operations (spec rules R111 to R114). -/

namespace Sys2Proof.Machine

/-- Settles O9: each clause by the equation of `fadd` for its case, and the sum that is not 0 by `roundsTo_pack`. -/
theorem faddRoundsTheExactSum : Obligations.FaddRoundsTheExactSum := by
  intro d a b
  refine ⟨fun h => ?_, faddWith_of_inf_left, fun hb ha => faddWith_of_inf_right ha hb,
    fun ha hb => ⟨faddWith_of_units_eq_zero ha hb, fun hz => ?_⟩⟩
  · refine isNaN_of_eq_drawNaN (d := d) ?_
    obtain h | h | ⟨ha, hb, hs⟩ := h
    · exact faddWith_of_nan (.inl h)
    · exact faddWith_of_nan (.inr h)
    · exact faddWith_of_opposite_infs ha hb hs
  · have hround := roundsTo_pack (decide (units a + units b < 0)) (units a + units b).natAbs one_pos
    rwa [signFactor_mul_natAbs, ← faddWith_of_units_ne_zero (nan := drawNaN d) ha hb hz] at hround

/-- Settles O10: `fsub` is defined as that sum; a zero minus `+0.0` adds `-0.0`, and an infinity minus itself adds
opposite infinities. -/
theorem fsubAddsTheNegation : Obligations.FsubAddsTheNegation := by
  refine ⟨fun _ _ _ => rfl, fun d => ⟨?_, ?_, ?_, ?_⟩⟩
  · exact faddWith_of_units_eq_zero (nan := drawNaN d) (a := 0x00000000#32) (b := 0x80000000#32) (by decide) (by decide)
      (by decide)
  · exact faddWith_of_units_eq_zero (nan := drawNaN d) (a := 0x80000000#32) (b := 0x80000000#32) (by decide) (by decide)
      (by decide)
  · exact isNaN_of_eq_drawNaN (d := d)
      (faddWith_of_opposite_infs (a := 0x7F800000#32) (b := 0xFF800000#32) (by decide) (by decide) (by decide))
  · exact isNaN_of_eq_drawNaN (d := d)
      (faddWith_of_opposite_infs (a := 0xFF800000#32) (b := 0x7F800000#32) (by decide) (by decide) (by decide))

/-- Settles O11: each clause by the equation of `fmul` for its case, the finite product by `roundsTo_pack`. -/
theorem fmulRoundsTheExactProduct : Obligations.FmulRoundsTheExactProduct := by
  intro d a b
  refine ⟨fun h => ?_, fun hna hnb hzi hiz => ?_, fmulWith_comm _ a b⟩
  · refine isNaN_of_eq_drawNaN (d := d) ?_
    obtain h | h | h := h
    · exact fmulWith_of_nan (.inl h)
    · exact fmulWith_of_nan (.inr h)
    · exact fmulWith_of_zero_inf h
  · by_cases hinf : isInf a = true ∨ isInf b = true
    · rw [show binary32.fmul d a b = _ from fmulWith_of_inf hna hnb hzi hiz hinf]
      refine ⟨signBit_pack_inf _, fun _ => isInf_pack_inf _, fun ha hb => ?_⟩
      simp [(isFinite_iff.1 ha).2, (isFinite_iff.1 hb).2] at hinf
    · obtain ⟨hia, hib⟩ : isInf a = false ∧ isInf b = false := by simpa using hinf
      rw [show binary32.fmul d a b = _ from
        fmulWith_of_finite (isFinite_iff.2 ⟨hna, hia⟩) (isFinite_iff.2 ⟨hnb, hib⟩)]
      refine ⟨signBit_pack ((roundMagnitude_le _ _).trans_lt (by decide)), fun h => absurd h hinf, fun _ _ => ?_⟩
      rw [units_mul]
      exact roundsTo_pack _ _ (by positivity)

/-- Settles O12: each clause by the equation of `fdiv` for its case, the finite quotient by `roundsTo_pack`. -/
theorem fdivRoundsTheExactQuotient : Obligations.FdivRoundsTheExactQuotient := by
  intro d a b
  refine ⟨fun h => ?_, fun ha hne hb => ?_, fun ha hb => ?_, fun ha hb hne => ?_⟩
  · refine isNaN_of_eq_drawNaN (d := d) ?_
    obtain h | h | h := h
    · exact fdivWith_of_nan (.inl h)
    · exact fdivWith_of_nan (.inr h)
    · exact fdivWith_of_zeros_or_infs h
  · rw [show binary32.fdiv d a b = _ from fdivWith_of_zero_divisor ha hne hb]
    exact ⟨isInf_pack_inf _, signBit_pack_inf _⟩
  · rw [show binary32.fdiv d a b = _ from fdivWith_of_inf_divisor ha hb]
    exact ⟨isZero_pack_zero _, signBit_pack_zero _⟩
  · have hpos : 0 < magnitude b := Nat.pos_of_ne_zero fun h => by simp [isZero_iff_magnitude.2 h] at hne
    have hnum : (if signBit b then -1 else 1) * units a * 2 ^ 149 =
        signFactor (signBit a ^^ signBit b) * (magnitude a * 2 ^ 149 : Nat) := by
      change signFactor (signBit b) * units a * 2 ^ 149 = _
      rw [units_eq, signFactor_xor]
      push_cast
      ring
    rw [hnum, show binary32.fdiv d a b = _ from fdivWith_of_finite ha hb hne]
    exact roundsTo_pack _ _ hpos

end Sys2Proof.Machine
end

section
/-! The biquad step on binary32 words (spec rules R116, R118, R119, R121, R123, R124, R283): what it computes, the identity
set, and the NaN that stays in the history. -/

namespace Sys2Proof.Machine

/-- Settles O13: the step is `BQ.STEP` as it is defined, and its instances are those of `instanceOf_bqStep`. -/
theorem bqStepComputesAndShifts : Obligations.BqStepComputesAndShifts := fun b c x s =>
  ⟨(bqStep b c x s).2.flt, Prod.ext rfl (bqStep_frame binary32 b c x s),
    fun b' c' => instanceOf_bqStep binary32 b b' c c' x s⟩

/-- Settles O17: both operations are record updates of one of the two fields. -/
theorem retuneKeepsHistoryAndClearIsIdempotent : Obligations.RetuneKeepsHistoryAndClearIsIdempotent :=
  fun _ _ => ⟨rfl, rfl, rfl⟩

/-- Settles O15: the two products with 1 and the division by 1 give their operand, and the four other products are
zeros, which the sum does not see. -/
theorem identitySetPassesFiniteSamplesThrough : Obligations.IdentitySetPassesFiniteSamplesThrough := by
  intro d h x hx1 hx2 hy1 hy2 hx hne
  have hp0 := fmulWith_one (nan := drawNaN d) hx
  have hs1 := faddWith_zero (nan := drawNaN (d + 5)) hx hne (isZero_fmulWith_zero (nan := drawNaN (d + 1)) hx1)
  have hs2 := faddWith_zero (nan := drawNaN (d + 6)) hx hne (isZero_fmulWith_zero (nan := drawNaN (d + 2)) hx2)
  have hs3 := fsubWith_zero (nan := drawNaN (d + 7)) hx hne (isZero_fmulWith_zero (nan := drawNaN (d + 3)) hy1)
  have hs4 := fsubWith_zero (nan := drawNaN (d + 8)) hx hne (isZero_fmulWith_zero (nan := drawNaN (d + 4)) hy2)
  simp only [biquadOut, binary32, hp0, hs1, hs2, hs3, hs4, fdivWith_one hx]

/-! ### NaN operands -/

theorem isNaN_fadd {d : Nat} {a b : Word} (h : isNaN a = true ∨ isNaN b = true) : isNaN (binary32.fadd d a b) = true :=
  isNaN_of_eq_drawNaN (faddWith_of_nan h)

theorem isNaN_fsub {d : Nat} {a b : Word} (h : isNaN a = true ∨ isNaN b = true) : isNaN (binary32.fsub d a b) = true :=
  isNaN_of_eq_drawNaN (fsubWith_of_nan h)

theorem isNaN_fmul {d : Nat} {a b : Word} (h : isNaN a = true ∨ isNaN b = true) : isNaN (binary32.fmul d a b) = true :=
  isNaN_of_eq_drawNaN (fmulWith_of_nan h)

theorem isNaN_fdiv {d : Nat} {a b : Word} (h : isNaN a = true ∨ isNaN b = true) : isNaN (binary32.fdiv d a b) = true :=
  isNaN_of_eq_drawNaN (fdivWith_of_nan h)

/-- A NaN as the input or as the previous output reaches the output (R119): through the first product and every later sum, or
through the fourth product. -/
theorem isNaN_biquadOut {d : Nat} {k : Coefs Word} {h : Hist Word} {x : Word}
    (hx : isNaN x = true ∨ isNaN h.y1 = true) : isNaN (biquadOut binary32 d k h x) = true := by
  refine isNaN_fdiv (.inl (isNaN_fsub (.inl (isNaN_fsub ?_))))
  obtain hx | hy := hx
  · exact .inl (isNaN_fadd (.inl (isNaN_fadd (.inl (isNaN_fmul (.inr hx))))))
  · exact .inr (isNaN_fmul (.inr hy))

/-- A NaN as the input or as the previous output makes every output from then on a NaN (R283): each output is the next
step's previous one. -/
theorem isNaN_biquadRun {k : Coefs Word} (xs : List Word) {d : Nat} {h : Hist Word}
    (hx : (∃ x rest, xs = x :: rest ∧ isNaN x = true) ∨ isNaN h.y1 = true) :
    ∀ y ∈ (biquadRun binary32 k d h xs).1, isNaN y = true := by
  induction xs generalizing d h with
  | nil => simp [biquadRun]
  | cons x xs ih =>
    have hout : isNaN (biquadOut binary32 d k h x) = true := isNaN_biquadOut (by simpa using hx)
    exact List.forall_mem_cons.2 ⟨hout, ih (.inr hout)⟩

/-- Settles O16: the first input is a NaN. -/
theorem nanInputPoisonsEveryLaterOutput : Obligations.NaNInputPoisonsEveryLaterOutput :=
  fun _ _ _ x xs hx => isNaN_biquadRun (x :: xs) (.inl ⟨x, xs, rfl, hx⟩)

end Sys2Proof.Machine
end

section
/-! Exact arithmetic: the difference equation (spec rules R117, R120), along the signals with the history before them. -/

namespace Sys2Proof.Machine

variable {K : Type} [Field K]

/-- The input signal from the oldest value in the history on: x[n-2], x[n-1], x[n] stand at places n, n+1, n+2. -/
def inputSignal (h : Hist K) (xs : List K) : List K := h.x2 :: h.x1 :: xs

/-- The output signal from the oldest value in the history on. -/
def outputSignal (h : Hist K) (ys : List K) : List K := h.y2 :: h.y1 :: ys

/-- The step solves the difference equation for the output (R120). -/
theorem biquadOut_exactNum {k : Coefs K} (d : Nat) (h : Hist K) (x : K) (ha0 : k.a0 ≠ 0) :
    k.a0 * biquadOut (exactNum K) d k h x =
      k.b0 * x + k.b1 * h.x1 + k.b2 * h.x2 - k.a1 * h.y1 - k.a2 * h.y2 :=
  mul_div_cancel₀ _ ha0

theorem length_biquadRun {α : Type} (N : NumOps α) (k : Coefs α) (d : Nat) (h : Hist α) (xs : List α) :
    (biquadRun N k d h xs).1.length = xs.length := by
  induction xs generalizing d h with
  | nil => rfl
  | cons x xs ih => simp [biquadRun, ih]

/-- The difference equation at every sample, whatever the history before the first one: the history after a step is the
signals one place on. -/
theorem biquadRun_differenceEquation {k : Coefs K} (ha0 : k.a0 ≠ 0) (xs : List K) (d : Nat) (h : Hist K) {n : Nat}
    (hn : n < xs.length) :
    let X := inputSignal h xs
    let Y := outputSignal h (biquadRun (exactNum K) k d h xs).1
    k.a0 * Y.getD (n + 2) 0 =
      k.b0 * X.getD (n + 2) 0 + k.b1 * X.getD (n + 1) 0 + k.b2 * X.getD n 0
        - k.a1 * Y.getD (n + 1) 0 - k.a2 * Y.getD n 0 := by
  induction xs generalizing d h n with
  | nil => simp at hn
  | cons x xs ih =>
    cases n with
    | zero => exact biquadOut_exactNum d h x ha0
    | succ n => exact ih (d + 10) (shiftHist h x (biquadOut (exactNum K) d k h x)) (Nat.lt_of_succ_lt_succ hn)

/-- A delayed signal is the signal with two zeros before it, read two places on. -/
theorem delayed_eq_getD (l : List K) (n : Nat) {d : Nat} (hd : d ≤ 2) :
    delayed l n d = (0 :: 0 :: l).getD (n + 2 - d) 0 := by
  unfold delayed
  split
  · rw [show n + 2 - d = n - d + 2 by omega]
    rfl
  · obtain hfirst | hsecond : n + 2 - d = 0 ∨ n + 2 - d = 1 := by omega
    · rw [hfirst]
      rfl
    · rw [hsecond]
      rfl

/-- Settles O14: a cleared history is the two zeros before each signal. -/
theorem exactInstanceSatisfiesTheDifferenceEquation : Obligations.ExactInstanceSatisfiesTheDifferenceEquation := by
  intro K _ k d xs ha0
  refine ⟨length_biquadRun _ k d _ xs, fun n hn => ?_⟩
  simp only [delayed_eq_getD, Nat.zero_le, Nat.one_le_ofNat, le_refl]
  exact biquadRun_differenceEquation ha0 xs d { x1 := 0, x2 := 0, y1 := 0, y2 := 0 } hn

end Sys2Proof.Machine
end

section
/-! The gains of the designed sets (spec rules R120, R212 to R220): at zero frequency and Nyquist, and on the unit circle. -/

namespace Sys2Proof.Machine

/-! ### The angle and the alpha of a design -/

theorem clampQ_pos {K : Type} [Field K] [LinearOrder K] [IsStrictOrderedRing K] (m : HostMath K) (q : HostNum K) :
    0 < clampQ m q := by
  have hmin : (0 : K) < qMin := by norm_num [qMin]
  have hmax : (0 : K) < qMax := by norm_num [qMax]
  cases q with
  | num v => exact lt_min (lt_max_of_lt_right hmin) hmax
  | nan => cases h : m.nanQIsMax <;> simp [clampQ, h, hmin, hmax]

/-- The alpha of every shape has the sign of `sin_w0` (R212, R215). -/
theorem designAlpha_pos {K : Type} [Field K] [LinearOrder K] [IsStrictOrderedRing K] (lphpUseQ : Bool) (m : HostMath K)
    (shape : FilterShape) {sinW0 : K} (q : HostNum K) (h : 0 < sinW0) : 0 < designAlpha lphpUseQ m shape sinW0 q := by
  unfold designAlpha
  split
  · exact div_pos h (mul_pos two_pos (clampQ_pos m q))
  · exact h

/-- A set designed over the reals, for a rate and a frequency in the domain of R213, is the formulas of R212 at an angle
strictly between 0 and pi, with a positive alpha. -/
theorem design_eq_coefsFromAngle (roundT : ℝ → Word) (fb : FrequencyBounds ℝ) (nanMax : Bool) (shape : FilterShape)
    {fs f : ℝ} (q : HostNum ℝ) (hfs : 0 < fs) (hf : 0 < f) (hnyquist : f < fs / 2) :
    let w0 := angularFrequency (realMath roundT fb nanMax) fs f
    ∃ alpha, 0 < alpha ∧ 0 < Real.sin w0 ∧
      design (realMath roundT fb nanMax) shape fs f q = coefsFromAngle shape (Real.cos w0) alpha := by
  intro w0
  have hw0 : w0 = Real.pi * (2 * f / fs) := by
    simp only [w0, angularFrequency, realMath]
    ring
  have hratio : 2 * f / fs < 1 := by
    rw [div_lt_one hfs]
    linarith
  have hsin : 0 < Real.sin w0 := by
    refine Real.sin_pos_of_pos_of_lt_pi ?_ ?_
    · rw [hw0]
      positivity
    · rw [hw0]
      exact mul_lt_of_lt_one_right Real.pi_pos hratio
  exact ⟨_, designAlpha_pos Config.lphpUseQ (realMath roundT fb nanMax) shape q hsin, hsin, rfl⟩

/-- Where the sine is not 0 the cosine is neither 1 nor -1. -/
theorem cos_ne_of_sin_pos {w : ℝ} (h : 0 < Real.sin w) : 1 - Real.cos w ≠ 0 ∧ 1 + Real.cos w ≠ 0 := by
  have hsq := Real.sin_sq_add_cos_sq w
  constructor <;> intro h' <;> nlinarith

/-! ### Zero frequency and Nyquist -/

/-- The shapes that pass a constant signal (R216 to R220). -/
def passesDc : FilterShape → Bool
  | .lowPass | .bandStop | .allPass => true
  | .highPass | .bandPass => false

/-- The shapes that pass the Nyquist frequency (R216 to R220). -/
def passesNyquist : FilterShape → Bool
  | .highPass | .bandStop | .allPass => true
  | .lowPass | .bandPass => false

section Gains

variable (shape : FilterShape) {c : ℝ} (alpha : ℝ)

/-- At zero frequency the denominator is `2 (1 - cos_w0)`, and the numerator is the same or 0. -/
theorem dcGain_coefsFromAngle (h : 1 - c ≠ 0) :
    dcGain (coefsFromAngle shape c alpha) = if passesDc shape then 1 else 0 := by
  have hden : (coefsFromAngle shape c alpha).a0 + (coefsFromAngle shape c alpha).a1 + (coefsFromAngle shape c alpha).a2 =
      2 * (1 - c) := by
    have hsum : 1 + alpha + -2 * c + (1 - alpha) = 2 * (1 - c) := by ring
    cases shape <;> exact hsum
  have hnum : (coefsFromAngle shape c alpha).b0 + (coefsFromAngle shape c alpha).b1 + (coefsFromAngle shape c alpha).b2 =
      if passesDc shape then 2 * (1 - c) else 0 := by
    cases shape with
    | lowPass | bandStop | allPass => simp only [coefsFromAngle, passesDc, if_true]; ring
    | highPass | bandPass => simp only [coefsFromAngle, passesDc, Bool.false_eq_true, if_false]; ring
  rw [dcGain, hnum, hden, ite_div, div_self (mul_ne_zero two_ne_zero h), zero_div]

/-- At Nyquist the denominator is `2 (1 + cos_w0)`, and the numerator is the same or 0. -/
theorem nyquistGain_coefsFromAngle (h : 1 + c ≠ 0) :
    nyquistGain (coefsFromAngle shape c alpha) = if passesNyquist shape then 1 else 0 := by
  have hden : (coefsFromAngle shape c alpha).a0 - (coefsFromAngle shape c alpha).a1 + (coefsFromAngle shape c alpha).a2 =
      2 * (1 + c) := by
    have hsum : 1 + alpha - -2 * c + (1 - alpha) = 2 * (1 + c) := by ring
    cases shape <;> exact hsum
  have hnum : (coefsFromAngle shape c alpha).b0 - (coefsFromAngle shape c alpha).b1 + (coefsFromAngle shape c alpha).b2 =
      if passesNyquist shape then 2 * (1 + c) else 0 := by
    cases shape with
    | highPass | bandStop | allPass => simp only [coefsFromAngle, passesNyquist, if_true]; ring
    | lowPass | bandPass => simp only [coefsFromAngle, passesNyquist, Bool.false_eq_true, if_false]; ring
  rw [nyquistGain, hnum, hden, ite_div, div_self (mul_ne_zero two_ne_zero h), zero_div]

end Gains

/-! ### The unit circle -/

/-- `p0 + p1 z^-1 + p2 z^-2` times `z`, at `z = exp(i w)`, by its real and imaginary parts. -/
noncomputable def circleValue (p0 p1 p2 w : ℝ) : ℂ := ⟨(p0 + p2) * Real.cos w + p1, (p0 - p2) * Real.sin w⟩

theorem exp_mul_eq_circleValue (p0 p1 p2 w : ℝ) :
    Complex.exp (Complex.I * w) *
        (p0 + p1 * (Complex.exp (Complex.I * w))⁻¹ + p2 * (Complex.exp (Complex.I * w))⁻¹ ^ 2) =
      circleValue p0 p1 p2 w := by
  have hne := Complex.exp_ne_zero (Complex.I * w)
  have hinv : (Complex.exp (Complex.I * w))⁻¹ = Complex.cos w - Complex.sin w * Complex.I := by
    rw [← Complex.exp_neg, mul_comm, ← neg_mul, Complex.exp_mul_I, Complex.cos_neg, Complex.sin_neg]
    ring
  have hexp : Complex.exp (Complex.I * w) = Complex.cos w + Complex.sin w * Complex.I := by
    rw [mul_comm, Complex.exp_mul_I]
  calc _ = p0 * Complex.exp (Complex.I * w) + p1 + p2 * (Complex.exp (Complex.I * w))⁻¹ := by
        field_simp
    _ = _ := by
        rw [hinv, hexp]
        apply Complex.ext <;> simp [circleValue, ← Complex.ofReal_cos, ← Complex.ofReal_sin] <;> ring

/-- The transfer function of a real set on the unit circle (R120). -/
theorem transferFunction_exp (k : Coefs ℝ) (w : ℝ) :
    transferFunction (mapCoefs (fun v : ℝ => (v : ℂ)) k) (Complex.exp (Complex.I * w)) =
      circleValue k.b0 k.b1 k.b2 w / circleValue k.a0 k.a1 k.a2 w := by
  rw [← exp_mul_eq_circleValue, ← exp_mul_eq_circleValue, mul_div_mul_left _ _ (Complex.exp_ne_zero _)]
  rfl

/-- The denominator of every shape on the unit circle. -/
theorem circleValue_denominator (shape : FilterShape) (c alpha w : ℝ) :
    circleValue (coefsFromAngle shape c alpha).a0 (coefsFromAngle shape c alpha).a1 (coefsFromAngle shape c alpha).a2 w =
      ⟨2 * (Real.cos w - c), 2 * alpha * Real.sin w⟩ := by
  have h : circleValue (1 + alpha) (-2 * c) (1 - alpha) w = ⟨2 * (Real.cos w - c), 2 * alpha * Real.sin w⟩ := by
    unfold circleValue
    congr 1 <;> ring
  cases shape <;> exact h

/-- The numerator of the band-pass shape is the imaginary part of the denominator. -/
theorem circleValue_bandPass_numerator (alpha w : ℝ) :
    circleValue alpha 0 (-alpha) w = ⟨0, 2 * alpha * Real.sin w⟩ := by
  unfold circleValue
  congr 1 <;> ring

/-- The numerator of the band-stop shape is the real part of the denominator. -/
theorem circleValue_bandStop_numerator (c w : ℝ) : circleValue 1 (-2 * c) 1 w = ⟨2 * (Real.cos w - c), 0⟩ := by
  unfold circleValue
  congr 1 <;> ring

/-- The numerator of the all-pass shape is the conjugate of its denominator. -/
theorem circleValue_allPass_numerator (c alpha w : ℝ) :
    circleValue (1 - alpha) (-2 * c) (1 + alpha) w =
      (starRingEnd ℂ) ⟨2 * (Real.cos w - c), 2 * alpha * Real.sin w⟩ := by
  unfold circleValue
  apply Complex.ext <;> simp <;> ring

/-- With an angle of the domain the denominator is not 0 on the unit circle: where its imaginary part is 0 the cosine is 1
or -1, and `cos_w0` is neither. -/
theorem denominator_ne_zero {w0 alpha : ℝ} (halpha : 0 < alpha) (hsin : 0 < Real.sin w0) (w : ℝ) :
    (⟨2 * (Real.cos w - Real.cos w0), 2 * alpha * Real.sin w⟩ : ℂ) ≠ 0 := by
  intro h
  obtain ⟨hre, him⟩ := Complex.ext_iff.1 h
  have hcos : Real.cos w = Real.cos w0 := by simpa [sub_eq_zero] using hre
  have hsinw : Real.sin w = 0 := by simpa [halpha.ne'] using him
  have hw := Real.sin_sq_add_cos_sq w
  have hw0 := Real.sin_sq_add_cos_sq w0
  rw [hcos, hsinw] at hw
  nlinarith

/-! ### The statements -/

/-- Settles O56: the low-pass shape passes zero frequency and not Nyquist, the high-pass shape the reverse. -/
theorem lowPassAndHighPassGains : Obligations.LowPassAndHighPassGains := by
  intro roundT fb nanMax fs f q hfs hf hnyquist
  obtain ⟨alpha, _, hsin, hlow⟩ := design_eq_coefsFromAngle roundT fb nanMax .lowPass q hfs hf hnyquist
  obtain ⟨alpha', _, _, hhigh⟩ := design_eq_coefsFromAngle roundT fb nanMax .highPass q hfs hf hnyquist
  obtain ⟨hdc, hny⟩ := cos_ne_of_sin_pos hsin
  rw [hlow, hhigh]
  exact ⟨dcGain_coefsFromAngle .lowPass _ hdc, nyquistGain_coefsFromAngle .lowPass _ hny,
    dcGain_coefsFromAngle .highPass _ hdc, nyquistGain_coefsFromAngle .highPass _ hny⟩

/-- Settles O57: at the target frequency the real part of the denominator is 0, so that the numerator is the denominator for
the band-pass shape and 0 for the band-stop shape. -/
theorem bandPassAndBandStopGains : Obligations.BandPassAndBandStopGains := by
  intro roundT fb nanMax fs f q hfs hf hnyquist m z
  obtain ⟨alpha, halpha, hsin, hpass⟩ := design_eq_coefsFromAngle roundT fb nanMax .bandPass q hfs hf hnyquist
  obtain ⟨alpha', _, _, hstop⟩ := design_eq_coefsFromAngle roundT fb nanMax .bandStop q hfs hf hnyquist
  obtain ⟨hdc, hny⟩ := cos_ne_of_sin_pos hsin
  rw [hpass, hstop]
  refine ⟨⟨dcGain_coefsFromAngle .bandPass _ hdc, nyquistGain_coefsFromAngle .bandPass _ hny, ?_⟩,
    dcGain_coefsFromAngle .bandStop _ hdc, nyquistGain_coefsFromAngle .bandStop _ hny, ?_⟩
  · have hden := denominator_ne_zero halpha hsin (angularFrequency m fs f)
    rw [transferFunction_exp, circleValue_denominator, coefsFromAngle, circleValue_bandPass_numerator]
    rw [sub_self, mul_zero] at hden ⊢
    exact div_self hden
  · rw [transferFunction_exp, coefsFromAngle, circleValue_bandStop_numerator, sub_self, mul_zero]
    exact zero_div _

/-- Settles O58: the numerator is the conjugate of the denominator, which is not 0. -/
theorem allPassHasUnitMagnitude : Obligations.AllPassHasUnitMagnitude := by
  intro roundT fb nanMax fs f w q hfs hf hnyquist
  obtain ⟨alpha, halpha, hsin, hall⟩ := design_eq_coefsFromAngle roundT fb nanMax .allPass q hfs hf hnyquist
  have hden := denominator_ne_zero halpha hsin w
  rw [hall, transferFunction_exp, circleValue_denominator, coefsFromAngle, circleValue_allPass_numerator, norm_div,
    Complex.norm_conj]
  exact div_self (norm_ne_zero_iff.2 hden)

end Sys2Proof.Machine
end

section
/-! `FLUSH` (spec rule R158), the frames that reach a stage in `FAULT` (R159, R246), and the steps of `PROC` that take a
block from its pull answer to `RUN` and out of it (R149, R150, R153, R155, R195, R196). -/

namespace Sys2Proof.Machine

/-! ### `FLUSH`, and any frame in `FAULT` -/

/-- `FLUSH` clears the histories and answers (R158). -/
theorem exec_flush {s : State} (hp : s.pstate = .unprepared ∨ s.pstate = .idle) :
    exec .flush s = .next { s with flt := (clearAll s).flt, pcmd := none, presp := some okWord } := by
  simp only [exec, execFlush, serveProcessing_of_ready hp]
  rfl

/-- Settles O22: the cleared instances are those of `instanceOf_clearAll`. -/
theorem flushClearsAllHistoryAndNothingElse : Obligations.FlushClearsAllHistoryAndNothingElse := fun s hp =>
  ⟨(clearAll s).flt, okWord_eq ▸ exec_flush hp, fun b c => instanceOf_clearAll s b c⟩

/-- In `FAULT` a processing command is not served: its frame is answered with the first fault (R246). -/
theorem serveProcessing_of_fault {s : State} (hp : s.pstate = .fault)
    (serve : State → Host.Outcome State Fault Refusal) :
    serveProcessing serve s = .next (respondProcessing (faultWord s.faultCode) (takePcmd s)) := by
  simp [serveProcessing, hp]

/-- In `FAULT` the frame of every processing command, and every illegal frame, meets the entry of R159. -/
theorem acceptProcessing_of_fault {s : State} (hp : s.pstate = .fault) (f : Frame) :
    acceptProcessing f s = .next (respondProcessing (faultWord s.faultCode) (takePcmd s)) := by
  cases hd : decode .processing f with
  | error e => simp only [acceptProcessing, hd, illegalProcessing, serveProcessing_of_fault hp]
  | ok i =>
    have hport := decode_port hd
    simp only [acceptProcessing, hd]
    cases i with
    | prepare | release | process | flush =>
      simp only [exec, execPrepare, execRelease, execProcess, execFlush, serveProcessing_of_fault hp]
    | wrCoef | wrGain | wrEnable | rdReg => cases hport

/-- Settles O37: whatever the frame is, accepting it is the answer of R246. -/
theorem faultStateAnswersEveryFrame : Obligations.FaultStateAnswersEveryFrame := by
  intro s f hp hf
  have hstep : procStep s = acceptProcessing f s := by simp [procStepWith, procAccept, hp, hf]
  rw [hstep]
  exact acceptProcessing_of_fault hp f

/-! ### From the pull answer to `RUN`, and completion -/

/-- In `PULL`, with its answer there, the step of `PROC` is the pull answer (R149). -/
theorem procStep_of_answered {N : NumOps Word} {s : State} {k : Word} (hp : s.pstate = .pull) (hk : s.sresp = some k) :
    procStepWith N s = pullAnswer k s := by
  simp [procStepWith, hp, hk]

/-- A count above what was asked is fault 4 (R149). -/
theorem pullAnswer_too_many {s : State} {k : Word} (hk : s.curNs.toNat < k.toNat) :
    pullAnswer k s = .next (raiseFault 4#4 0x00000003#32 { s with sresp := none }) := by
  simp [pullAnswer, hk]

/-- Any other count is followed by the silence fill of a block in `BUF` (R149, R150). -/
theorem pullAnswer_fits {s : State} {k : Word} (hk : k.toNat ≤ s.curNs.toNat)
    (hf : regionFits s s.curNch.toNat s.curNs.toNat = true) :
    pullAnswer k s = .next { s with
      sresp := none
      curK := k
      buf := Memory.fillRows s.buf (fun _ _ => 0#32) k.toNat (s.curNs.toNat - k.toNat) s.curNch.toNat
      pstate := .snapWait } := by
  simp [pullAnswer, hk.not_gt, hf]

/-- Settles O24: the pull answer's two outcomes, and in the second what the fill leaves at each word. -/
theorem pullAnswerFillsTheShortfallWithSilence : Obligations.PullAnswerFillsTheShortfallWithSilence := by
  intro s k hp hr
  rw [procStep, procStep_of_answered hp hr]
  refine ⟨pullAnswer_too_many, fun hk hc hn => ⟨_, pullAnswer_fits hk ((regionFits_iff s _ _).2 ⟨hc, hn⟩), ?_⟩⟩
  intro c n hn'
  rw [Memory.read_fillRows _ _ _ _ _ _ _ (by omega) hn', Nat.add_sub_cancel' hk]

/-- In `SNAP_WAIT` with the lock free the step of `PROC` takes it (R195). -/
theorem procStep_of_free_lock {N : NumOps Word} {s : State} (hp : s.pstate = .snapWait) (hl : s.lock = .free) :
    procStepWith N s = .next (procAcquire s) := by
  simp [procStepWith, hp, hl]

/-- In `SNAP_HOLD` the step of `PROC` is `SNAP` (R196). -/
theorem procStep_of_snapHold {N : NumOps Word} {s : State} (hp : s.pstate = .snapHold) :
    procStepWith N s = .next (snap s) := by
  simp [procStepWith, hp]

/-- Settles O29: in `RUN` a bypassed block and a block with its samples done are completed. -/
theorem completionTouchesNothingElse : Obligations.CompletionTouchesNothingElse := by
  intro s hp hdone
  rw [procStep, procStep_of_run hp, if_pos hdone]
  rfl

end Sys2Proof.Machine
end

section
/-! The steps of the source (spec rules R162, R163). -/

namespace Sys2Proof.Machine

/-- A release and a prepare the source only takes (R163). -/
theorem srcStep_of_notice {s : State} {r : SrcReq} (hr : s.sreq = some r)
    (hn : r = .release ∨ ∃ blk fs, r = .prepare blk fs) : hasStep .src s = true ∧ srcStep s = .next (takeSreq r s) := by
  obtain rfl | ⟨blk, fs, rfl⟩ := hn <;> simp [hasStep, srcHasStep, srcStep, hr]

/-- A fill the source takes and answers (R162). -/
theorem srcStep_of_fill {s : State} {nch ns : Word} {a : SrcAnswer} {rest : List SrcAnswer}
    (hr : s.sreq = some (.fill nch ns)) (hs : s.source = a :: rest) (hf : regionFits s nch.toNat ns.toNat = true) :
    srcStep s = .next { s with
      buf := Memory.fillRows s.buf a.sample 0 (min a.count.toNat ns.toNat) nch.toNat
      source := rest
      sreq := none
      sresp := some a.count
      obs := { s.obs with sreqs := s.obs.sreqs ++ [.fill nch ns] } } := by
  simp only [srcStep, hr, hs]
  exact if_pos hf

/-- Settles O25: a prepare and a release are taken, a fill is answered; `Memory.read_fillRows` tells what the answer leaves
at each word. -/
theorem sourceAnswerWritesOnlyTheRequestedRegion : Obligations.SourceAnswerWritesOnlyTheRequestedRegion := by
  refine ⟨fun s r hr hn => srcStep_of_notice hr hn, fun s nch ns a rest hr hs hc hn => ?_⟩
  refine ⟨_, srcStep_of_fill hr hs ((regionFits_iff s _ _).2 ⟨hc, hn⟩), fun c n hn' => ?_⟩
  rw [Memory.read_fillRows _ _ _ _ _ _ _ (by omega) hn', Nat.zero_add]
  simp only [Nat.zero_le, true_and, lt_min_iff]

end Sys2Proof.Machine
end

section
/-! The clamp of a sample rate, value by value (spec rule R143). -/

namespace Sys2Proof.Machine

theorem clampFs_of_nan {v : Word} (h : isNaN v = true) (fsMin : Word) : clampFs v fsMin = fsMin := by
  simp [clampFs, h]

/-- A finite value is clamped from below only. -/
theorem clampFs_of_finite {v : Word} (h : isFinite v = true) (fsMin : Word) :
    clampFs v fsMin = if units v < units fsMin then fsMin else v := by
  obtain ⟨hnan, hinf⟩ := isFinite_iff.1 h
  simp [clampFs, lessThanFinite, hnan, hinf]

/-- An infinity is clamped by its sign. -/
theorem clampFs_of_inf {v : Word} (h : isInf v = true) (fsMin : Word) :
    clampFs v fsMin = if signBit v then fsMin else 0x7F7FFFFF#32 := by
  simp [clampFs, lessThanFinite, isNaN_eq_false_of_isInf h, h]

/-- Settles O19: a NaN, an infinity and a finite value each by its own equation. -/
theorem sampleRateIsClampedToTheNearestValid : Obligations.SampleRateIsClampedToTheNearestValid := by
  refine fun p v => ⟨fun h => clampFs_of_nan h _, ?_, fun h hlt => ?_, ?_, fun h hle => ?_⟩
  · rintro rfl
    exact clampFs_of_inf (by decide) _
  · rw [clampFs_of_finite h, if_pos hlt]
  · rintro rfl
    exact clampFs_of_inf (by decide) _
  · rw [clampFs_of_finite h, if_neg hle.not_gt]

end Sys2Proof.Machine
end

section
/-! The domain of the designer (spec rules R213, R223) and the sets of the host sequence `prepare` (R225). -/

namespace Sys2Proof.Machine

/-- `a0` is `1 + alpha` in every shape (R212). -/
theorem coefsFromAngle_a0 {K : Type} [Field K] (shape : FilterShape) (cosW0 alpha : K) :
    (coefsFromAngle shape cosW0 alpha).a0 = 1 + alpha := by
  cases shape <;> rfl

/-- In the designer's domain alpha is positive, so `a0` is above 1 (R213). -/
theorem one_lt_design_a0 (roundT : ℝ → Word) (fb : FrequencyBounds ℝ) (nanMax : Bool) (shape : FilterShape) {fs f : ℝ}
    (q : HostNum ℝ) (hfs : 0 < fs) (hf : 0 < f) (hnyquist : f < fs / 2) :
    1 < (design (realMath roundT fb nanMax) shape fs f q).a0 := by
  obtain ⟨alpha, halpha, _, hdesign⟩ := design_eq_coefsFromAngle roundT fb nanMax shape q hfs hf hnyquist
  rw [hdesign, coefsFromAngle_a0]
  linarith

section Clamp

variable {K : Type} [Field K] [LinearOrder K] (m : HostMath K) {fs f : K}

theorem clampFrequency_pos (hfs : 0 < fs) : 0 < clampFrequency m fs f :=
  lt_min (lt_max_of_lt_right m.freq.lo_pos) (m.freq.hi_inside fs hfs).1

theorem clampFrequency_lt_nyquist (hfs : 0 < fs) : clampFrequency m fs f < fs / 2 :=
  (min_le_right _ _).trans_lt (m.freq.hi_inside fs hfs).2

theorem clampFrequency_of_mem (hlo : m.freq.lo ≤ f) (hhi : f ≤ m.freq.hi fs) : clampFrequency m fs f = f := by
  rw [clampFrequency, max_eq_left hlo, min_eq_left hhi]

end Clamp

/-- The clamped rate is positive as a number (R143). -/
theorem wordValue_clampFs_pos (p : Params) (v : Word) : (0 : ℝ) < wordValue (clampFs v p.fsMin) := by
  have hunits : 0 < units (clampFs v p.fsMin) := (validRate_clampFs p v).2.1
  have hcast : (0 : ℝ) < (units (clampFs v p.fsMin) : ℝ) := by exact_mod_cast hunits
  exact div_pos hcast (by positivity)

/-- Settles O55: the clamped frequency is in the domain at every positive rate, and the clamped rate is one. -/
theorem designKeepsA0AboveOne : Obligations.DesignKeepsA0AboveOne := by
  refine ⟨fun roundT fb nanMax shape fs f q => one_lt_design_a0 roundT fb nanMax shape q,
    fun K _ _ m fs f hfs => ?_, ?_⟩
  · exact ⟨clampFrequency_pos m hfs, clampFrequency_lt_nyquist m hfs, clampFrequency_of_mem m⟩
  · intro roundT fb nanMax p h signals blk fs b m h'
    have hfs : (0 : ℝ) < h'.sampleRate := wordValue_clampFs_pos p fs
    exact ⟨rfl, rfl, rfl,
      one_lt_design_a0 roundT fb nanMax _ _ hfs (clampFrequency_pos m hfs) (clampFrequency_lt_nyquist m hfs)⟩

end Sys2Proof.Machine
end

section
/-! A whole block, from the frame of its `PROCESS` to its response (spec rules R147 to R156, R195, R196, R290): the turns
that bring it to `RUN`, the turns of its sample frames, and the turn that completes it. -/

namespace Sys2Proof.Machine

/-! ### Runs by their turns -/

/-- A run goes on from where its first steps end. -/
theorem run_add {m : Nat} {s t : State} (h : core.run m s = .next t) (n : Nat) :
    core.run (m + n) s = core.run n t := by
  induction m generalizing s with
  | zero =>
    cases h
    rw [Nat.zero_add]
  | succ m ih =>
    rw [Nat.add_right_comm]
    cases hstep : core.step s with
    | next u =>
      simp only [Host.Core.run, hstep] at h ⊢
      exact ih h
    | fault r => simp [Host.Core.run, hstep] at h
    | refused r => simp [Host.Core.run, hstep] at h

theorem run_succ_of_step {m : Nat} {s t u : State} (h : core.run m s = .next t) (hstep : step t = .next u) :
    core.run (m + 1) s = .next u := by
  have hone : core.step t = .next u := hstep
  rw [run_add h]
  simp only [Host.Core.run, hone]

/-- The turn the schedule names first is its agent's step, if the agent has one (R16). -/
theorem step_of_sched {a : Agent} {turns : List Turn} {s t : State} (hsched : s.sched = .agent a :: turns)
    (hs : hasStep a s = true) (h : agentStep a { s with sched := turns } = .next t) : step s = .next t := by
  have hturn : nextTurn s = .agent a := by simp [nextTurn, hsched]
  have huse : useTurn s = { s with sched := turns } := by simp [useTurn, hsched]
  rw [step_of_agent hturn, takeTurn_of_hasStep binary32 ((hasStep_useTurn a s).trans hs), huse]
  exact h

/-! ### The turns that bring a block to `RUN` -/

/-- A `PROCESS` that will be admitted: its frame is there, the block fits `BUF`, the lock is free, and the source has an
answer that claims no more than is asked (R147, R149). -/
structure BlockAdmissible (s : State) (nch ns : Word) (a : SrcAnswer) (rest : List SrcAnswer) : Prop where
  idle : s.pstate = .idle
  frame : s.pcmd = some (encode (.process nch ns))
  sreq : s.sreq = none
  lock : s.lock = .free
  rows : nch.toNat ≤ s.params.maxCh
  samples : ns.toNat ≤ s.params.maxBlk
  source : s.source = a :: rest
  count : a.count.toNat ≤ ns.toNat

/-- The admission turn (R147). -/
theorem step_admits {s : State} {nch ns : Word} {a : SrcAnswer} {rest : List SrcAnswer} {turns : List Turn}
    (h : BlockAdmissible s nch ns a rest) (hsched : s.sched = .agent .proc :: turns) :
    step s = .next { s with
      sched := turns, pcmd := none, curNch := nch, curNs := ns, sreq := some (.fill nch ns), pstate := .pull } := by
  have hs : hasStep .proc s = true := by simp [hasStep_proc_of_ready (.inr h.idle) h.frame, h.sreq]
  have hacc : s.pstate.accepting = true := by rw [h.idle]; rfl
  refine step_of_sched hsched hs ?_
  exact (procStep_of_decode (s := { s with sched := turns }) binary32 h.frame hacc (decode_encode _)).trans
    (exec_process_admitted (s := { s with sched := turns }) h.idle h.rows h.samples h.sreq)

/-- The turn of the source's answer to a fill (R162). -/
theorem step_answers {s : State} {nch ns : Word} {a : SrcAnswer} {rest : List SrcAnswer} {turns : List Turn}
    (hsched : s.sched = .agent .src :: turns) (hr : s.sreq = some (.fill nch ns)) (hsource : s.source = a :: rest)
    (hc : nch.toNat ≤ s.params.maxCh) (hn : ns.toNat ≤ s.params.maxBlk) :
    ∃ M, step s = .next { s with
        sched := turns, source := rest, sreq := none, sresp := some a.count, buf := M
        obs := { s.obs with sreqs := s.obs.sreqs ++ [.fill nch ns] } } ∧
      ∀ c n, n < 2 ^ 32 → Memory.read M (Memory.addr c n) =
        if c < nch.toNat ∧ n < a.count.toNat ∧ n < ns.toNat then some (a.sample c n)
        else Memory.read s.buf (Memory.addr c n) := by
  have hs : hasStep .src s = true := by simp [hasStep, srcHasStep, hr, hsource]
  obtain ⟨M, hstep, hM⟩ :=
    sourceAnswerWritesOnlyTheRequestedRegion.2 { s with sched := turns } nch ns a rest hr hsource hc hn
  exact ⟨M, step_of_sched hsched hs hstep, hM⟩

/-- The turn of a pull answer that claims no more than was asked (R149, R150). -/
theorem step_pulls {s : State} {k : Word} {turns : List Turn} (hsched : s.sched = .agent .proc :: turns)
    (hp : s.pstate = .pull) (hr : s.sresp = some k) (hk : k.toNat ≤ s.curNs.toNat)
    (hc : s.curNch.toNat ≤ s.params.maxCh) (hn : s.curNs.toNat ≤ s.params.maxBlk) :
    ∃ M, step s = .next { s with sched := turns, sresp := none, curK := k, buf := M, pstate := .snapWait } ∧
      ∀ c n, n < 2 ^ 32 → Memory.read M (Memory.addr c n) =
        if c < s.curNch.toNat ∧ k.toNat ≤ n ∧ n < s.curNs.toNat then some 0x00000000#32
        else Memory.read s.buf (Memory.addr c n) := by
  have hs : hasStep .proc s = true := by simp [hasStep, procHasStep, hp, hr]
  obtain ⟨M, hstep, hM⟩ :=
    (pullAnswerFillsTheShortfallWithSilence { s with sched := turns } k hp hr).2 hk hc hn
  exact ⟨M, step_of_sched hsched hs hstep, hM⟩

/-- The turn that takes the lock (R195). -/
theorem step_acquires {s : State} {turns : List Turn} (hsched : s.sched = .agent .proc :: turns)
    (hp : s.pstate = .snapWait) (hl : s.lock = .free) : step s = .next (procAcquire { s with sched := turns }) :=
  step_of_sched hsched (by simp [hasStep, procHasStep, hp, hl])
    (procStep_of_free_lock (s := { s with sched := turns }) hp hl)

/-- The turn of `SNAP` (R196). -/
theorem step_snaps {s : State} {turns : List Turn} (hsched : s.sched = .agent .proc :: turns)
    (hp : s.pstate = .snapHold) : step s = .next (snap { s with sched := turns }) :=
  step_of_sched hsched (by simp [hasStep, procHasStep, hp])
    (procStep_of_snapHold (s := { s with sched := turns }) hp)

/-- What the five turns from a `PROCESS` to `RUN` make of the state `s`, with the turns `turns` left: the registers they
write, the guarded unit in the active copies, the histories kept, and in `BUF` the source's samples and then silence. -/
structure BlockStarted (nch ns : Word) (a : SrcAnswer) (rest : List SrcAnswer) (turns : List Turn) (s t : State) :
    Prop where
  frame : t = { s with
    flt := t.flt, actGain := s.cfgGain, actBypass := s.cfgBypass, lock := .free, pstate := .run
    curNch := nch, curNs := ns, curK := a.count, curN := 0#32, pcmd := none, sreq := none, sresp := none
    buf := t.buf, source := rest, sched := turns, obs := t.obs }
  instances : ∀ b c, instanceOf t b c = { coef := s.cfgCoef.get b, hist := (instanceOf s b c).hist }
  buf : ∀ c n, n < 2 ^ 32 → Memory.read t.buf (Memory.addr c n) =
    if c < nch.toNat ∧ n < a.count.toNat then some (a.sample c n)
    else if c < nch.toNat ∧ n < ns.toNat then some 0x00000000#32
    else Memory.read s.buf (Memory.addr c n)

/-- An admissible `PROCESS` is in `RUN` after four turns of `PROC` and one of the source, and busy from the first on. -/
theorem block_starts {s : State} {nch ns : Word} {a : SrcAnswer} {rest : List SrcAnswer} {turns : List Turn}
    (h : BlockAdmissible s nch ns a rest)
    (hsched : s.sched = .agent .proc :: .agent .src :: (List.replicate 3 (.agent .proc) ++ turns)) :
    (∀ m, 0 < m → m ≤ 5 → ∃ u, core.run m s = .next u ∧ u.pstate.busy = true) ∧
      ∃ t, core.run 5 s = .next t ∧ BlockStarted nch ns a rest turns s t := by
  have h1 := run_succ_of_step (m := 0) rfl (step_admits h hsched)
  obtain ⟨M, hanswer, hM⟩ := step_answers (s := { s with
    sched := _, pcmd := none, curNch := nch, curNs := ns, sreq := some (.fill nch ns), pstate := .pull })
    rfl rfl h.source h.rows h.samples
  have h2 := run_succ_of_step h1 hanswer
  obtain ⟨M', hpull, hM'⟩ := step_pulls (s := { s with
    sched := _, pcmd := none, curNch := nch, curNs := ns, pstate := .pull, source := rest, sreq := none
    sresp := some a.count, buf := M, obs := { s.obs with sreqs := s.obs.sreqs ++ [.fill nch ns] } })
    rfl rfl rfl h.count h.rows h.samples
  have h3 := run_succ_of_step h2 hpull
  have h4 := run_succ_of_step h3 (step_acquires rfl rfl h.lock)
  have h5 := run_succ_of_step h4 (step_snaps rfl rfl)
  refine ⟨fun m hm hm5 => ?_, _, h5, ⟨rfl, fun b c => instanceOf_snap _ b c, fun c n hn => ?_⟩⟩
  · interval_cases m
    · exact ⟨_, h1, rfl⟩
    · exact ⟨_, h2, rfl⟩
    · exact ⟨_, h3, rfl⟩
    · exact ⟨_, h4, rfl⟩
    · exact ⟨_, h5, rfl⟩
  · refine (hM' c n hn).trans ?_
    rw [hM c n hn]
    by_cases hc : c < nch.toNat
    · by_cases hk : n < a.count.toNat
      · simp [hc, hk, hk.trans_le h.count]
      · simp [hc, hk, not_lt.1 hk]
    · simp [hc]

/-! ### The turns of the sample frames -/

/-- A block in `RUN` whose samples are filtered: not bypassed, within `BUF`, every word of it written (R60, R64,
R152). -/
structure FilteredRun (s : State) : Prop where
  running : s.pstate = .run
  unbypassed : s.actBypass = false
  rows : s.curNch.toNat ≤ s.params.maxCh
  samples : s.curNs.toNat ≤ s.params.maxBlk
  written : ∀ c n, c < s.curNch.toNat → n < s.curNs.toNat → written s c n

/-- The sample frames do not look at the schedule. -/
theorem FilteredRun.withSched {s : State} (h : FilteredRun s) (turns : List Turn) :
    FilteredRun { s with sched := turns } :=
  ⟨h.running, h.unbypassed, h.rows, h.samples, h.written⟩

/-- A sample frame reads words that exist and are written, so it does not stop (R64, R152). -/
theorem FilteredRun.exists_sampleFrame {s : State} (h : FilteredRun s) (hn : s.curN.toNat < s.curNs.toNat) :
    ∃ t, sampleFrame binary32 s = .next t := by
  have hread : ∀ c, ∃ w, chanRow c < s.curNch.toNat → bufRead (chanRow c) s.curN.toNat s = .ok w := fun c => by
    by_cases hc : chanRow c < s.curNch.toNat
    · obtain ⟨w, hw⟩ := Option.isSome_iff_exists.1 (h.written _ _ hc hn)
      exact ⟨w, fun _ => bufRead_eq_ok ((inBuf_iff s _ _).2 ⟨hc.trans_le h.rows, hn.trans_le h.samples⟩) hw⟩
    · exact ⟨0#32, fun hc' => absurd hc' hc⟩
  choose word hword using hread
  obtain ⟨t, ht, _⟩ := sampleFrame_filters hword
  exact ⟨_, ht⟩

theorem FrameEffect.filteredRun {s t : State} (e : FrameEffect s t) (h : FilteredRun s) : FilteredRun t := by
  rw [e.frame]
  exact ⟨h.running, h.unbypassed, h.rows, h.samples, fun c n hc hn => e.written _ (h.written c n hc hn)⟩

/-- The turn of a sample frame (R152). -/
theorem FilteredRun.step_filters {s : State} {turns : List Turn} (h : FilteredRun s)
    (hsched : s.sched = .agent .proc :: turns) (hn : s.curN.toNat < s.curNs.toNat) :
    ∃ t, step s = .next t ∧ FrameEffect { s with sched := turns } t := by
  have hs : hasStep .proc s = true := by simp [hasStep, procHasStep, h.running, hn.le]
  have h' := h.withSched turns
  obtain ⟨t, ht⟩ := h'.exists_sampleFrame hn
  exact ⟨t, step_of_sched hsched hs ((procStep_of_samples_left h'.running h'.unbypassed hn).trans ht),
    sampleFrame_next ht⟩

/-- What `j` sample frames make of the state `s`, with the turns `turns` left. -/
structure SamplesDone (j : Nat) (turns : List Turn) (s t : State) : Prop where
  frame : t = { s with flt := t.flt, nanDraws := t.nanDraws, buf := t.buf, curN := t.curN, sched := turns }
  index : t.curN.toNat = s.curN.toNat + j
  coef : ∀ b c, (instanceOf t b c).coef = (instanceOf s b c).coef
  filtered : FilteredRun t

/-- One more sample frame. -/
theorem SamplesDone.succ {j : Nat} {turns turns' : List Turn} {s t u : State} (h : SamplesDone j turns' s t)
    (hn : s.curN.toNat + j < s.curNs.toNat) (e : FrameEffect { t with sched := turns } u) :
    SamplesDone (j + 1) turns s u where
  frame := by rw [e.frame, h.frame]
  index := by
    have hindex := h.index
    have hns := s.curNs.isLt
    rw [e.frame]
    simp only [BitVec.toNat_add, BitVec.toNat_ofNat]
    omega
  coef b c := (e.coef b c).trans (h.coef b c)
  filtered := e.filteredRun (h.filtered.withSched turns)

/-- As many turns of `PROC` as there are samples left, and no more, are sample frames (R152). -/
theorem FilteredRun.run_samples {s : State} (h : FilteredRun s) {j : Nat} {turns : List Turn}
    (hsched : s.sched = List.replicate j (.agent .proc) ++ turns) (hj : s.curN.toNat + j ≤ s.curNs.toNat) :
    ∃ t, core.run j s = .next t ∧ SamplesDone j turns s t := by
  induction j generalizing turns with
  | zero =>
    cases hsched
    exact ⟨s, rfl, ⟨rfl, rfl, fun _ _ => rfl, h⟩⟩
  | succ j ih =>
    rw [List.replicate_succ', List.append_assoc, List.singleton_append] at hsched
    obtain ⟨t, hrun, hdone⟩ := ih hsched (by omega)
    have hns : t.curNs = s.curNs := by rw [hdone.frame]
    have hturn : t.sched = .agent .proc :: turns := by rw [hdone.frame]
    obtain ⟨u, hstep, e⟩ := hdone.filtered.step_filters hturn (by rw [hdone.index, hns]; omega)
    exact ⟨u, run_succ_of_step hrun hstep, hdone.succ (by omega) e⟩

/-! ### The last turn -/

/-- The turn that completes a block (R153, R155). -/
theorem step_completes {s : State} {turns : List Turn} (hsched : s.sched = .agent .proc :: turns) (hp : s.pstate = .run)
    (hdone : s.actBypass = true ∨ s.curN = s.curNs) :
    step s = .next { s with sched := turns, pstate := .idle, curN := 0#32, presp := some 0x00000000#32 } := by
  have hs : hasStep .proc s = true := by
    obtain hb | hn := hdone
    · simp [hasStep, procHasStep, hp, hb]
    · simp [hasStep, procHasStep, hp, hn]
  exact step_of_sched hsched hs (completionTouchesNothingElse { s with sched := turns } hp hdone)

/-! ### The statements -/

/-- A started block that is not bypassed is ready for its sample frames: its words are the source's and then silence. -/
theorem BlockStarted.filteredRun {nch ns : Word} {a : SrcAnswer} {rest : List SrcAnswer} {turns : List Turn}
    {s t : State} (h : BlockStarted nch ns a rest turns s t) (hadm : BlockAdmissible s nch ns a rest)
    (hb : s.cfgBypass = false) : FilteredRun t := by
  have hwritten : ∀ c n, c < nch.toNat → n < ns.toNat → written t c n := fun c n hc hn => by
    rw [written, h.buf c n (by omega)]
    by_cases hk : n < a.count.toNat <;> simp [hc, hn, hk]
  rw [h.frame] at hwritten ⊢
  exact ⟨rfl, hb, hadm.rows, hadm.samples, hwritten⟩

/-- A started block that is not bypassed has `j` of its samples done after `j` more turns of `PROC` (R152). -/
theorem BlockStarted.run_samples {nch ns : Word} {a : SrcAnswer} {rest : List SrcAnswer} {later : List Turn}
    {s t : State} (h : BlockStarted nch ns a rest (List.replicate (ns.toNat + 1) (.agent .proc) ++ later) s t)
    (hf : FilteredRun t) {j : Nat} (hj : j ≤ ns.toNat) :
    ∃ u, core.run j t = .next u ∧
      SamplesDone j (List.replicate (ns.toNat + 1 - j) (.agent .proc) ++ later) t u := by
  have hturns : t.sched = List.replicate j (.agent .proc) ++
      (List.replicate (ns.toNat + 1 - j) (.agent .proc) ++ later) := by
    rw [← List.append_assoc, ← List.replicate_add, Nat.add_sub_cancel' (by omega), h.frame]
  have hleft : t.curN.toNat + j ≤ t.curNs.toNat := by
    rw [h.frame]
    simpa using hj
  exact hf.run_samples hturns hleft

/-- Settles O30: the block starts, `m - 5` of its samples are done after `m` turns, and the last turn completes it. -/
theorem filteredBlockCompletesInItsSteps : Obligations.FilteredBlockCompletesInItsSteps := by
  intro s nch ns a rest later hidle hframe hreq hlock hrows hsamples hsource hcount hbypass hsched
  have hadm : BlockAdmissible s nch ns a rest := ⟨hidle, hframe, hreq, hlock, hrows, hsamples, hsource, hcount⟩
  rw [show 4 + ns.toNat = 3 + (ns.toNat + 1) by omega, List.replicate_add, List.append_assoc] at hsched
  obtain ⟨hbusy, t, hrun, hstart⟩ := block_starts hadm hsched
  have hfiltered := hstart.filteredRun hadm hbypass
  have hsome : ∀ j, j ≤ ns.toNat → ∃ u, core.run (5 + j) s = .next u ∧
      SamplesDone j (List.replicate (ns.toNat + 1 - j) (.agent .proc) ++ later) t u := fun j hj => by
    rw [run_add hrun]
    exact hstart.run_samples hfiltered hj
  obtain ⟨u, hall, hdone⟩ := hsome ns.toNat le_rfl
  have hn : u.curN = ns := BitVec.eq_of_toNat_eq (by rw [hdone.index, hstart.frame]; exact Nat.zero_add _)
  have hturn : u.sched = .agent .proc :: later := by
    rw [hdone.frame, Nat.add_sub_cancel_left]
    rfl
  obtain ⟨hns, hfree, hcode, hgain, hact, hguarded⟩ : u.curNs = ns ∧ u.lock = .free ∧ u.faultCode = s.faultCode ∧
      u.actGain = s.cfgGain ∧ u.actBypass = s.cfgBypass ∧ SameGuarded s u := by
    rw [hdone.frame, hstart.frame]
    exact ⟨rfl, rfl, rfl, rfl, rfl, rfl, rfl, rfl⟩
  have hcoef : ∀ b c, (instanceOf u b c).coef = s.cfgCoef.get b := fun b c => by rw [hdone.coef, hstart.instances]
  refine ⟨fun m hm hlt => ?_, ⟨u, hall, hdone.filtered.running, hn⟩, ?_⟩
  · by_cases hm5 : m ≤ 5
    · exact hbusy m hm hm5
    · obtain ⟨v, hv, hd⟩ := hsome (m - 5) (by omega)
      rw [Nat.add_sub_cancel' (by omega)] at hv
      exact ⟨v, hv, congrArg PState.busy hd.filtered.running⟩
  · have hlast := run_succ_of_step hall (step_completes hturn hdone.filtered.running (.inr (hn.trans hns.symm)))
    rw [Nat.add_right_comm] at hlast
    exact ⟨_, hlast, rfl, rfl, hfree, rfl, rfl, hcode, hgain, hact, hcoef, hguarded.coef,
      hguarded.gain, hguarded.bypass⟩

/-- Settles O31: the block starts, and the turn after it completes it, which touches neither `BUF` nor a filter. -/
theorem bypassedBlockPassesTheSourceThrough : Obligations.BypassedBlockPassesTheSourceThrough := by
  intro s nch ns a rest later hidle hframe hreq hlock hrows hsamples hsource hcount hbypass hsched
  have hadm : BlockAdmissible s nch ns a rest := ⟨hidle, hframe, hreq, hlock, hrows, hsamples, hsource, hcount⟩
  obtain ⟨_, t, hrun, hstart⟩ := block_starts (turns := .agent .proc :: later) hadm hsched
  obtain ⟨hturn, hp, hgain, hact⟩ : t.sched = .agent .proc :: later ∧ t.pstate = .run ∧ t.actGain = s.cfgGain ∧
      t.actBypass = true := by
    rw [hstart.frame]
    exact ⟨rfl, rfl, rfl, hbypass⟩
  have hhist : SameHist s t := fun b c => by rw [hstart.instances]
  have hcoef : ∀ b c, (instanceOf t b c).coef = s.cfgCoef.get b := fun b c => by rw [hstart.instances]
  exact ⟨_, run_succ_of_step hrun (step_completes hturn hp (.inl hact)), rfl, rfl, hhist, hgain, hact,
    hcoef, hstart.buf⟩

end Sys2Proof.Machine
end

section
/-! The control port (spec rules R39, R182 to R189, R192 to R194): each outcome of a control command's accept step, the
register map, and the steps in which the two executors take the lock and use it (R195, R196). -/

namespace Sys2Proof.Machine

/-! ### Which sets are valid -/

/-- The two zero patterns (R12). -/
theorem isZero_iff {v : Word} : isZero v = true ↔ v = 0x00000000#32 ∨ v = 0x80000000#32 := by
  refine ⟨fun hz => ?_, fun h => by obtain rfl | rfl := h <;> rfl⟩
  obtain ⟨he, hf⟩ : expField v = 0 ∧ fracField v = 0 := by simpa [isZero] using hz
  rw [expField_eq] at he
  rw [fracField_eq] at hf
  rw [eq_pack v, show v.toNat % 2 ^ 31 = 0 by omega]
  cases signBit v with
  | true => exact .inr rfl
  | false => exact .inl rfl

/-- A set is valid exactly when its values are finite and `a0` is neither zero (R183). -/
theorem validCoef_iff {k : Coefs Word} :
    validCoef k = true ↔ coefsFinite k = true ∧ k.a0 ≠ 0x00000000#32 ∧ k.a0 ≠ 0x80000000#32 := by
  rw [← not_or, ← isZero_iff]
  simp [validCoef]

/-- A set that is not finite, or whose `a0` is a zero, is not valid (R183). -/
theorem validCoef_eq_false {k : Coefs Word}
    (h : coefsFinite k = false ∨ k.a0 = 0x00000000#32 ∨ k.a0 = 0x80000000#32) : validCoef k = false := by
  rw [← isZero_iff] at h
  obtain h | h := h <;> simp [validCoef, h]

/-- A NaN or an infinity is not finite (R186). -/
theorem isFinite_eq_false {v : Word} (h : isNaN v = true ∨ isInf v = true) : isFinite v = false := by
  rw [← Bool.not_eq_true, isFinite_iff]
  obtain h | h := h <;> simp [h]

/-! ### The accept step of a control write -/

/-- In `C_IDLE` a control command is served, its frame taken (R181, R182). -/
theorem serveControl_of_idle {s : State} (hc : s.cstate = .cIdle) (serve : State → Host.Outcome State Fault Refusal) :
    serveControl serve s = serve (takeCcmd s) := by
  simp [serveControl, hc]

/-- A valid set is latched (R182). -/
theorem exec_wrCoef_valid {k : Coefs Word} {s : State} (hc : s.cstate = .cIdle) (hk : validCoef k = true) (band : Band) :
    exec (.wrCoef band k) s = .next (latchWrite (.wrCoef band k) (takeCcmd s)) := by
  simp [exec, execWrCoef, serveControl_of_idle hc, hk]

/-- Any other set is refused (R182). -/
theorem exec_wrCoef_invalid {k : Coefs Word} {s : State} (hc : s.cstate = .cIdle) (hk : validCoef k = false)
    (band : Band) : exec (.wrCoef band k) s = .next (refuse (takeCcmd s)) := by
  simp [exec, execWrCoef, serveControl_of_idle hc, hk]

/-- A finite gain is latched (R182, R186). -/
theorem exec_wrGain_finite {g : Word} {s : State} (hc : s.cstate = .cIdle) (hg : isFinite g = true) (band : Band) :
    exec (.wrGain band g) s = .next (latchWrite (.wrGain band g) (takeCcmd s)) := by
  simp [exec, execWrGain, serveControl_of_idle hc, hg]

/-- Any other gain is refused (R186). -/
theorem exec_wrGain_not_finite {g : Word} {s : State} (hc : s.cstate = .cIdle) (hg : isFinite g = false)
    (band : Band) : exec (.wrGain band g) s = .next (refuse (takeCcmd s)) := by
  simp [exec, execWrGain, serveControl_of_idle hc, hg]

/-- An enable write is always latched (R187). -/
theorem exec_wrEnable {s : State} (hc : s.cstate = .cIdle) (en : Bool) :
    exec (.wrEnable en) s = .next (latchWrite (.wrEnable en) (takeCcmd s)) := by
  simp [exec, execWrEnable, serveControl_of_idle hc]

/-- What a refusal of the frame in the slot leaves (R248): everything but `cfg_err` and the slots of the port. -/
theorem refuse_takeCcmd (s : State) :
    refuse (takeCcmd s) = { s with
      ccmd := none, cfgErr := true, cresp := some { word := 0x00000001#32, data := none } } := by
  rw [← errWord_eq]
  rfl

/-! ### The acquire and write steps -/

/-- In `C_WAIT` with the lock free `CTRLX` takes it (R192). -/
theorem ctrlxStep_of_free_lock {s : State} (hc : s.cstate = .cWait) (hl : s.lock = .free) :
    ctrlxStep s = .next (ctrlAcquire s) := by
  simp [ctrlxStep, hc, hl]

/-- In `C_WAIT` with the lock held `CTRLX` has no step (R73, R192). -/
theorem ctrlx_waits {s : State} (hc : s.cstate = .cWait) (hl : s.lock ≠ .free) :
    hasStep .ctrlx s = false ∧ ctrlxStep s = .next s := by
  refine ⟨by simp [hasStep, ctrlxHasStep, hc, hl], ?_⟩
  cases h : s.lock with
  | free => exact absurd h hl
  | ctrl | proc => simp [ctrlxStep, hc, h]

/-- In `SNAP_WAIT` with the lock held `PROC` has no step (R73, R195). -/
theorem proc_waits {N : NumOps Word} {s : State} (hp : s.pstate = .snapWait) (hl : s.lock ≠ .free) :
    hasStep .proc s = false ∧ procStepWith N s = .next s := by
  refine ⟨by simp [hasStep, procHasStep, hp, hl], ?_⟩
  cases h : s.lock with
  | free => exact absurd h hl
  | ctrl | proc => simp [procStepWith, hp, h]

/-- In `C_HOLD` the step of `CTRLX` is the effect of the latched command, the release of the lock and `OK` (R193). -/
theorem ctrlxStep_of_latched {s : State} {l : Latched} (hc : s.cstate = .cHold) (hl : s.clatch = l) :
    ctrlxStep s = .next { applyLatched l s with
      lock := .free, cstate := .cIdle, cresp := some { word := 0x00000000#32, data := none } } := by
  simp only [ctrlxStep, hc, ctrlWrite, hl, okWord_eq]
  rfl

/-! ### The register map -/

/-- The place of a coefficient register in its set's block of the register map (R39). -/
def CoefReg.offset : CoefReg → Nat
  | .b0 => 0
  | .b1 => 1
  | .b2 => 2
  | .a0 => 3
  | .a1 => 4
  | .a2 => 5

/-- The gains have the indices from `0x04` on (R39). -/
theorem regOfIndex_gain {idx : BitVec 8} {b : Band} (h : idx.toNat = 0x04 + (bandNumber b).toNat) :
    regOfIndex idx = some (.gain b) := by
  cases b <;> simp [regOfIndex, h, bandNumber]

/-- The coefficients have the indices from `0x10` on, eight to a band (R39). -/
theorem regOfIndex_coef {idx : BitVec 8} {b : Band} (r : CoefReg)
    (h : idx.toNat = 0x10 + 8 * (bandNumber b).toNat + r.offset) : regOfIndex idx = some (.coef b r) := by
  cases b <;> cases r <;> simp [regOfIndex, h, bandNumber, CoefReg.offset]

/-- An index behind the gains that is below the sets, above them, or one of the last two of a band's eight names no
register (R39, R89). -/
theorem regOfIndex_reserved {idx : BitVec 8}
    (h : 7 ≤ idx.toNat ∧ (idx.toNat < 0x10 ∨ 0x28 ≤ idx.toNat ∨ 6 ≤ idx.toNat % 8)) : regOfIndex idx = none := by
  unfold regOfIndex
  split
  case h_26 => rfl
  all_goals omega

/-- Taking the frame changes no register that `RD_REG` reads. -/
@[simp] theorem regValue_takeCcmd (r : RegName) (s : State) : regValue r (takeCcmd s) = regValue r s := by
  cases r <;> rfl

/-- An index of the register map is answered with its register's word (R188). -/
theorem exec_rdReg_of_register {idx : BitVec 8} {r : RegName} {s : State} (hc : s.cstate = .cIdle)
    (hr : regOfIndex idx = some r) :
    exec (.rdReg idx) s = .next { s with
      ccmd := none, cresp := some { word := 0x00000000#32, data := some (regValue r s) } } := by
  simp only [exec, execRdReg, serveControl_of_idle hc, hr, regValue_takeCcmd, okWord_eq]
  rfl

/-- Any other index is refused (R189). -/
theorem exec_rdReg_of_no_register {idx : BitVec 8} {s : State} (hc : s.cstate = .cIdle) (hr : regOfIndex idx = none) :
    exec (.rdReg idx) s = .next (refuse (takeCcmd s)) := by
  simp [exec, execRdReg, serveControl_of_idle hc, hr]

/-! ### The statements -/

/-- Settles O26: the step is `SNAP`, whose instances are those of `instanceOf_snap`. -/
theorem snapshotCopiesTheWholeGuardedUnit : Obligations.SnapshotCopiesTheWholeGuardedUnit := fun s hp =>
  ⟨(snap s).flt, procStep_of_snapHold hp, fun b c => instanceOf_snap s b c⟩

/-- Settles O32: the accept step by the validity of the set, the other two steps as for every latched command. -/
theorem wrCoefReplacesThePendingSet : Obligations.WrCoefReplacesThePendingSet := fun band _ s =>
  ⟨fun hc hfin hpos hneg => exec_wrCoef_valid hc (validCoef_iff.2 ⟨hfin, hpos, hneg⟩) band,
    fun hc _ hl => ctrlxStep_of_free_lock hc hl,
    fun hc hl => ctrlxStep_of_latched hc hl,
    fun hc hk => refuse_takeCcmd s ▸ exec_wrCoef_invalid hc (validCoef_eq_false hk) band⟩

/-- Settles O33: the accept step by whether the gain is finite, the other two steps as for every latched command. -/
theorem wrGainReplacesThePendingGain : Obligations.WrGainReplacesThePendingGain := fun band _ s =>
  ⟨fun hc hg => exec_wrGain_finite hc hg band,
    fun hc _ hl => ctrlxStep_of_free_lock hc hl,
    fun hc hl => ctrlxStep_of_latched hc hl,
    fun hc hg => refuse_takeCcmd s ▸ exec_wrGain_not_finite hc (isFinite_eq_false hg) band⟩

/-- Settles O34: the command is latched, and the other two steps are as for every latched command. -/
theorem wrEnableSetsThePendingBypass : Obligations.WrEnableSetsThePendingBypass := fun en _ =>
  ⟨fun hc => exec_wrEnable hc en,
    fun hc _ hl => ctrlxStep_of_free_lock hc hl,
    fun hc hl => ctrlxStep_of_latched hc hl⟩

/-- Settles O35: each index by its place in the register map, and the answer by the register it names. -/
theorem rdRegReadsTheRegisterMap : Obligations.RdRegReadsTheRegisterMap := by
  intro idx s hc answers
  have hread : ∀ r, regOfIndex idx = some r → answers (regValue r s) := fun _ hr => exec_rdReg_of_register hc hr
  have hcoef : ∀ b (r : CoefReg), idx.toNat = 0x10 + 8 * (bandNumber b).toNat + r.offset →
      answers (r.of (s.cfgCoef.get b)) := fun b r h => hread (.coef b r) (regOfIndex_coef r h)
  refine ⟨fun h => hread .status ?_, fun h => hread .fs ?_, fun h => hread .blk ?_, fun h => hread .faultInfo ?_,
    fun b h => hread (.gain b) (regOfIndex_gain h),
    fun b => ⟨hcoef b .b0, hcoef b .b1, hcoef b .b2, hcoef b .a0, hcoef b .a1, hcoef b .a2⟩,
    fun h => refuse_takeCcmd s ▸ exec_rdReg_of_no_register hc (regOfIndex_reserved h)⟩
  all_goals simp [regOfIndex, h]

/-- Settles O40: by their frames, both steps write only what is the control side's or `HOSTC`'s. -/
theorem controlSideNeverTouchesTheProcessingSide : Obligations.ControlSideNeverTouchesTheProcessingSide := by
  intro s t h
  have hframe : t = { s with
      cfgCoef := t.cfgCoef, cfgGain := t.cfgGain, cfgBypass := t.cfgBypass, lock := t.lock, cfgErr := t.cfgErr,
      cstate := t.cstate, clatch := t.clatch, ccmd := t.ccmd, cresp := t.cresp, hostC := t.hostC,
      hostCAnswer := t.hostCAnswer, hostCSignals := t.hostCSignals, obs := t.obs } := by
    obtain h | h := h
    · rw [(ctrlxStep_effect h).frame_eq]
    · rw [hostcStep_frame h]
  rw [hframe]
  exact ⟨⟨rfl, rfl, rfl, ⟨rfl, rfl⟩, ⟨rfl, rfl, rfl, rfl⟩, ⟨rfl, rfl⟩, fun _ => rfl⟩, rfl, rfl, rfl, rfl, rfl, rfl⟩

/-- Settles O27: each executor's acquire step with the lock free, and its wait with the lock held. -/
theorem waitersTakeTheLockOnlyWhenFree : Obligations.WaitersTakeTheLockOnlyWhenFree := fun _ =>
  ⟨fun hc => ⟨ctrlxStep_of_free_lock hc, ctrlx_waits hc⟩, fun hp => ⟨procStep_of_free_lock hp, proc_waits hp⟩⟩

end Sys2Proof.Machine
end

section
/-! The exact sets at a quarter of the sample rate (spec rules R212, R214, R215, R232): there the angle is half of pi, so
that the cosine is 0 and the sine 1, and a set is a function of its shape and of the clamped Q. -/

namespace Sys2Proof.Machine

/-! ### The clamp of Q by the place of the value -/

section ClampQ

variable {K : Type} [Field K] [LinearOrder K] (m : HostMath K) {v : K}

theorem clampQ_of_mem (hmin : qMin ≤ v) (hmax : v ≤ qMax) : clampQ m (.num v) = v := by
  rw [clampQ, max_eq_left hmin, min_eq_left hmax]

theorem clampQ_of_le_qMin [IsStrictOrderedRing K] (h : v ≤ qMin) : clampQ m (.num v) = qMin := by
  have hrange : (qMin : K) ≤ qMax := by norm_num [qMin, qMax]
  rw [clampQ, max_eq_right h, min_eq_left hrange]

theorem clampQ_of_qMax_le (h : qMax ≤ v) : clampQ m (.num v) = qMax := by
  rw [clampQ, min_eq_right (h.trans (le_max_left v qMin))]

end ClampQ

/-! ### The angle at a quarter of the rate -/

section QuarterRate

variable (roundT : ℝ → Word) (fb : FrequencyBounds ℝ) (nanMax : Bool) {fs : ℝ}

theorem angularFrequency_quarter (hfs : 0 < fs) :
    angularFrequency (realMath roundT fb nanMax) fs (fs / 4) = Real.pi / 2 := by
  have hne := hfs.ne'
  simp only [angularFrequency, realMath]
  field_simp
  norm_num

/-- A set at a quarter of the rate is the formulas of R212 at cosine 0 and sine 1. -/
theorem design_quarter (shape : FilterShape) (q : HostNum ℝ) (hfs : 0 < fs) :
    design (realMath roundT fb nanMax) shape fs (fs / 4) q =
      coefsFromAngle shape 0 (designAlpha Config.lphpUseQ (realMath roundT fb nanMax) shape 1 q) := by
  have hcos : (realMath roundT fb nanMax).cos (Real.pi / 2) = 0 := Real.cos_pi_div_two
  have hsin : (realMath roundT fb nanMax).sin (Real.pi / 2) = 1 := Real.sin_pi_div_two
  rw [design, designWith, angularFrequency_quarter roundT fb nanMax hfs, hcos, hsin]

/-- A shape that does not use Q has alpha 1 there (R215). -/
theorem design_quarter_of_not_usesQ (shape : FilterShape) (hshape : usesQ Config.lphpUseQ shape = false) (q : HostNum ℝ)
    (hfs : 0 < fs) :
    design (realMath roundT fb nanMax) shape fs (fs / 4) q = coefsFromAngle shape 0 1 := by
  rw [design_quarter roundT fb nanMax shape q hfs, designAlpha, hshape, if_neg Bool.false_ne_true]

/-- A shape that uses Q has alpha `1 / (2 Q)` there, for the clamped Q (R212, R214). -/
theorem design_quarter_of_usesQ (shape : FilterShape) (hshape : usesQ Config.lphpUseQ shape = true) {q : HostNum ℝ}
    {clamped : ℝ} (hq : clampQ (realMath roundT fb nanMax) q = clamped) (hfs : 0 < fs) :
    design (realMath roundT fb nanMax) shape fs (fs / 4) q = coefsFromAngle shape 0 (1 / (2 * clamped)) := by
  rw [design_quarter roundT fb nanMax shape q hfs, designAlpha, hshape, if_pos rfl, hq]

end QuarterRate

/-! ### The statement -/

/-- Settles O59: alpha is 1 for the shapes without Q and at Q = 1/2, and `1 / (2 Q)` in the other rows, where a Q of 0 is
clamped to `Q_MIN` and one of 5000 to `Q_MAX`. -/
theorem quarterRateSets : Obligations.QuarterRateSets := by
  intro roundT fb nanMax fs q hfs m
  have hhalf : clampQ m (.num (1 / 2)) = 1 / 2 := clampQ_of_mem m (by norm_num [qMin]) (by norm_num [qMax])
  have hone : clampQ m (.num 1) = 1 := clampQ_of_mem m (by norm_num [qMin]) (by norm_num [qMax])
  have hzero : clampQ m (.num 0) = qMin := clampQ_of_le_qMin m (by norm_num [qMin])
  have hhuge : clampQ m (.num 5000) = qMax := clampQ_of_qMax_le m (by norm_num [qMax])
  rw [design_quarter_of_not_usesQ roundT fb nanMax .lowPass rfl q hfs,
    design_quarter_of_not_usesQ roundT fb nanMax .highPass rfl q hfs,
    design_quarter_of_usesQ roundT fb nanMax .bandPass rfl hhalf hfs,
    design_quarter_of_usesQ roundT fb nanMax .bandPass rfl hone hfs,
    design_quarter_of_usesQ roundT fb nanMax .bandStop rfl hhalf hfs,
    design_quarter_of_usesQ roundT fb nanMax .allPass rfl hhalf hfs,
    design_quarter_of_usesQ roundT fb nanMax .bandPass rfl hzero hfs,
    design_quarter_of_usesQ roundT fb nanMax .bandPass rfl hhuge hfs]
  norm_num [coefsFromAngle, qMin, qMax]

end Sys2Proof.Machine
end

section
/-! The host sequences `setBandGain` and `setBandFrequency` (spec rules R226, R227): a band's set depends on the rate and on
the band's own frequency and Q alone. -/

namespace Sys2Proof.Machine

section BandSet

variable {K : Type} [Field K] [LinearOrder K] (m : HostMath K) (h : HostConfig K) {b b' : Band}

/-- A band's gain does not enter its set (R226). -/
theorem designBand_setGain (g : K) :
    designBand m { h with bands := h.bands.set b { h.bands.get b with gain := g } } b = designBand m h b := by
  simp only [designBand, PerBand.get_set_same]

/-- A band's set after a new frequency: clamped, at the band's shape and Q (R223, R227). -/
theorem designBand_setFrequency (f : K) :
    designBand m { h with bands := h.bands.set b { h.bands.get b with targetFrequency := f } } b =
      design m (shapeOfBand b) h.sampleRate (clampFrequency m h.sampleRate f) (h.bands.get b).q := by
  simp only [designBand, PerBand.get_set_same]

/-- A new configuration of one band leaves the set of every other band. -/
theorem designBand_set_of_ne (c : BandConfiguration K) (hne : b' ≠ b) :
    designBand m { h with bands := h.bands.set b c } b' = designBand m h b' := by
  simp only [designBand, PerBand.get_set_of_ne h.bands c hne]

end BandSet

/-- The frames of `setBandGain`, for a linear factor (R226). -/
theorem hostSetBandGain_frames {K : Type} [Field K] [LinearOrder K] (m : HostMath K) (h : HostConfig K) (b : Band) (g : K) :
    (hostSetBandGain m h b g).2 = [encode (.wrGain b (m.roundT g)), coefFrame m h b] := by
  simp only [hostSetBandGain, coefFrame, designBand_setGain]

/-- Settles O60: the frames of each sequence carry the sets of `designBand`, and a gain in decibels is sent as its linear
factor (R228). -/
theorem gainChangesDoNotChangeTheSet : Obligations.GainChangesDoNotChangeTheSet := by
  intro K _ _ m h b v
  refine ⟨hostSetBandGain_frames m h b v, hostSetBandGain_frames m h b (dbToFactor m v), ?_, fun b' hne => ?_⟩
  · simp only [hostSetBandFrequency, coefFrame, designBand_setFrequency]
  · simp only [hostSetBandFrequency, coefFrame, designBand_set_of_ne m h _ hne]

end Sys2Proof.Machine
end

section
/-! Faults and outside agents (spec rules R241, R244, R245, R247, R260): the fault entries of `PROC`, what `FAULT` keeps, and
the registers no outside agent writes. -/

namespace Sys2Proof.Machine

/-! ### What a step leaves in `FAULT` -/

/-- In `FAULT` a step of `PROC` waits or answers a frame (R246), which keeps the fault (R247). -/
theorem ProcEffect.keeps_fault {s t : State} (e : ProcEffect s t) (hfault : s.pstate = .fault) :
    t.pstate = .fault ∧ SameFault s t := by
  cases e with
  | wait | answerFault => exact ⟨hfault, rfl, rfl⟩
  | raiseOnAccept hf hp | prepare hf hp | releaseNothing hf hp | release hf hp | flush hf hp | admitted hf hd hp
  | raiseOnPull hp | pull hp | acquire hp | snapshot hp | frame hp | complete hp => simp [hfault] at hp

/-- In `FAULT` no agent's step leaves it or changes the fault registers (R247). -/
theorem AgentEffect.keeps_fault {s t : State} (e : AgentEffect s t) (hfault : s.pstate = .fault) :
    t.pstate = .fault ∧ SameFault s t := by
  cases e with
  | proc e => exact e.keeps_fault hfault
  | ctrlx e => rw [e.frame_eq]; exact ⟨hfault, rfl, rfl⟩
  | outside e => rw [e.frame_eq]; exact ⟨hfault, rfl, rfl⟩

/-- Settles O38: a turn of an agent keeps the fault, whether its agent steps or the turn passes; the turn of the reset input
gives the values of R44. -/
theorem onlyHardwareResetLeavesFault : Obligations.OnlyHardwareResetLeavesFault := by
  intro s t hfault h
  obtain ⟨hreset, rfl⟩ | ⟨a, ha, hstep⟩ := step_effect h
  · exact ⟨fun hne => absurd hreset hne, fun _ => ⟨rfl, rfl, rfl⟩⟩
  · have e : AgentEffect (useTurn s) t := by
      obtain ⟨_, hstep⟩ | rfl := hstep
      · exact agentStep_effect hstep
      · exact .outside .wait
    have hkept : t.pstate = .fault ∧ SameFault s t := by
      rw [useTurn_frame] at e
      obtain ⟨hp, hcode, hinfo⟩ := e.keeps_fault hfault
      exact ⟨hp, hcode, hinfo⟩
    exact ⟨fun _ => hkept, fun hreset => by simp [ha] at hreset⟩

/-! ### How `PROC` enters `FAULT` -/

/-- A step of `PROC` that enters `FAULT` is fault entry: on taking a frame in `UNPREPARED` or `IDLE`, with code 1, 2 or 3, or on
taking an answer in `PULL`, with code 4 (R241, R244). -/
theorem ProcEffect.enters_fault {s t : State} (e : ProcEffect s t) (hs : s.pstate ≠ .fault) (ht : t.pstate = .fault) :
    (∃ code info, (s.pstate = .unprepared ∨ s.pstate = .idle) ∧ (code = 1#4 ∨ code = 2#4 ∨ code = 3#4) ∧
        t = raiseFault code info (takePcmd s)) ∨
      (s.pstate = .pull ∧ t = raiseFault 4#4 0x00000003#32 { s with sresp := none }) := by
  cases e with
  | raiseOnAccept hf hp code info hc => exact .inl ⟨code, info, hp, hc, rfl⟩
  | raiseOnPull hp => exact .inr ⟨hp, rfl⟩
  | wait | answerFault | releaseNothing | flush => exact absurd ht hs
  | frame hp hb hn t e => rw [e.frame] at ht; exact absurd ht hs
  | prepare | release | admitted | pull | acquire | snapshot | complete => cases ht

/-- Settles O39: both fault entries of `PROC` write what R244 lists and take the frame or the answer. -/
theorem faultsArePrecise : Obligations.FaultsArePrecise := by
  intro s t h hs ht
  obtain ⟨code, info, hp, hc, rfl⟩ | ⟨hp, rfl⟩ := (procStep_effect h).enters_fault hs ht
  · have hpull : s.pstate ≠ .pull := by obtain hp | hp := hp <;> simp [hp]
    refine ⟨hp.imp_right .inl, code, info, by tauto, ?_⟩
    rw [if_neg hpull, if_neg hpull]
    rfl
  · refine ⟨.inr (.inr hp), 4#4, 0x00000003#32, .inr (.inr (.inr rfl)), ?_⟩
    rw [if_pos hp, if_pos hp]
    rfl

/-! ### The outside agents -/

/-- Settles O41: the step of each outside agent leaves what `OutsideEffect.frame_eq` keeps. -/
theorem outsideAgentsChangeNoRegister : Obligations.OutsideAgentsChangeNoRegister := by
  intro s t h
  have e : OutsideEffect s t := by
    obtain h | h | h := h
    · exact hostpStep_effect h
    · exact hostcStep_effect h
    · exact srcStep_effect h
  rw [e.frame_eq]
  exact ⟨rfl, rfl, rfl, ⟨rfl, rfl, rfl⟩, rfl, ⟨rfl, rfl⟩, rfl, ⟨rfl, rfl, rfl, rfl⟩, ⟨rfl, rfl⟩, rfl, rfl, rfl⟩

end Sys2Proof.Machine
end

section
/-! The end of a run (spec rule R293): what the two finite scripts, the empty slots, the free lock and the states of the two
executors leave each agent to do. -/

namespace Sys2Proof.Machine

/-- What R293 calls the end of a run, as facts about the fields of the state. -/
theorem runOver_iff (s : State) : runOver s = true ↔
    (s.hostP = [] ∧ s.hostC = []) ∧ (s.pcmd = none ∧ s.presp = none) ∧ (s.ccmd = none ∧ s.cresp = none) ∧
      (s.sreq = none ∧ s.sresp = none) ∧ s.cstate = .cIdle ∧ s.lock = .free ∧ s.pstate.accepting = true := by
  simp only [runOver, Bool.and_eq_true, List.isEmpty_iff, Option.isNone_iff_eq_none, beq_iff_eq, and_assoc]

/-- Outside a block `PROC` has a step only for a frame (R161, R246). -/
theorem proc_waits_for_frame {s : State} (hacc : s.pstate.accepting = true) (hf : s.pcmd = none) :
    hasStep .proc s = false := by
  obtain hp | hp | hp := (PState.accepting_iff _).1 hacc
  · simp [hasStep, procHasStep, procCanAccept, hp, hf]
  · simp [hasStep, procHasStep, procCanAccept, hp, hf]
  · simp [hasStep, procHasStep, hp, hf]

/-- In `C_IDLE` `CTRLX` has a step only for a frame (R181). -/
theorem ctrlx_waits_for_frame {s : State} (hc : s.cstate = .cIdle) (hf : s.ccmd = none) : hasStep .ctrlx s = false := by
  simp [hasStep, ctrlxHasStep, hc, hf]

/-- `SRC` has a step only for a request (R162, R163). -/
theorem src_waits_for_request {s : State} (hr : s.sreq = none) : hasStep .src s = false := by
  simp [hasStep, srcHasStep, hr]

/-- Settles O53: a script at its end stands, so with no response waiting its host has no step; and `PROC`, `CTRLX` and `SRC`
each wait for a slot that is empty. -/
theorem nobodyMovesWhenTheRunIsOver : Obligations.NobodyMovesWhenTheRunIsOver := by
  intro s h a
  obtain ⟨⟨hscriptP, hscriptC⟩, ⟨hpcmd, hpresp⟩, ⟨hccmd, hcresp⟩, ⟨hsreq, -⟩, hcstate, -, hacc⟩ := (runOver_iff s).1 h
  cases a with
  | hostp => exact (hostp_waits (by simp [hostpScriptGoes, hscriptP]) hpresp).1
  | proc => exact proc_waits_for_frame hacc hpcmd
  | src => exact src_waits_for_request hsreq
  | hostc => exact (hostc_waits (by simp [hostcScriptGoes, hscriptC]) hcresp).1
  | ctrlx => exact ctrlx_waits_for_frame hcstate hccmd

end Sys2Proof.Machine
end
